-- ==== Sys2Proof/Word.lean ====
section
/-! DEFINITION. The word types of FCE-1: the widths the spec gives to bytes, commands, scalars and blocks. -/

namespace Sys2Proof

/-- A byte of DMEM (R50). -/
abbrev Byte := BitVec 8

/-- A command word: one word of CMDMEM (R51, R70). -/
abbrev Command := BitVec 32

/-- A scalar register value, an address, a length or a count (R21, R12). -/
abbrev Scalar := BitVec 64

/-- A 32-bit block: one half of a cipher block (HALF_W of R7). -/
abbrev Half := BitVec 32

/-- A 48-bit block: a subkey or an expanded half (SUBKEY_W of R7). -/
abbrev Subkey := BitVec 48

/-- A 64-bit block: a cipher block or a packed key (BLOCK_W of R7). -/
abbrev Block64 := BitVec 64

end Sys2Proof
end

