-- ==== Sys2Proof/Config.lean ====
section
/-! DEFINITION. What a platform fixes (the OPEN parameters of R7) and the values the spec leaves free.
`Parameters` are the raw values a platform states; `Config` can hold only well-formed ones (R9). -/

namespace Sys2Proof

/-- The raw parameters of R7, not yet checked. -/
structure Parameters where
  /-- E_TABLE -/
  eTable : List Nat
  /-- P_TABLE -/
  pTable : List Nat
  /-- SBOX, row by row -/
  sbox : List (List Nat)
  /-- DMEM_SIZE in bytes -/
  dmemSize : Nat
  /-- CMD_DEPTH in words -/
  cmdDepth : Nat
deriving DecidableEq, Repr, Inhabited

/-- An input-bit position 1..32 of a table, held as the position less one. -/
abbrev TablePos := Fin 32

/-- The parameters of one platform. The types admit exactly the well-formed values of R9, so an ill-formed configuration
has no run. The sizes are held less their least legal value. -/
structure Config where
  /-- E_TABLE: 48 positions (R33) -/
  eTable : Vector TablePos 48
  /-- P_TABLE: 32 positions (R33) -/
  pTable : Vector TablePos 32
  /-- SBOX: 4 rows of 16 entries in 0..15 (R33) -/
  sbox : Vector (Vector (BitVec 4) 16) 4
  /-- DMEM_SIZE - 16, for 16 <= DMEM_SIZE <= 2^32 -/
  dmemLess16 : Fin 4294967281
  /-- CMD_DEPTH - 1, for 1 <= CMD_DEPTH <= 2^32 - 1 -/
  cmdLess1 : Fin 4294967295
deriving DecidableEq, Repr, Inhabited

/-- The platform the reset state belongs to: any one (R7: OPEN). Log 1. -/
opaque Config.platform : Config

/-- The byte that power-up number `powerUp` left at a DMEM address: a free draw (R52). Log 3, log 4. -/
opaque Config.powerOnByte (powerUp addr : Nat) : Byte

/-- The word that power-up number `powerUp` left at a CMDMEM index: a free draw (R52). Log 3, log 4. -/
opaque Config.powerOnWord (powerUp index : Nat) : Command

end Sys2Proof
end

