-- ==== Sys2Proof/Syntax.lean ====
section
/-! DEFINITION. The commands of FCE-1: one constructor per row of the opcode map (R76), with the operands of that row. -/

namespace Sys2Proof

/-- A general register number, 0 to 15 (R21). -/
abbrev Reg := Fin 16

/-- A command with its operands, in the order A, B, C, D, immediate of R90. An argument named `p`, `q` or `t` is a
pair field: it names an even register n, the first of the pair (R[n], R[n+1]) (R23). -/
inductive Instr where
  /-- R102 -/
  | nop
  /-- R101 -/
  | halt
  /-- R103 -/
  | li (rd : Reg) (imm : BitVec 20)
  /-- R104: `rd` is source and destination -/
  | lih (rd : Reg) (imm : BitVec 20)
  /-- R106 -/
  | mov (rd rs : Reg)
  /-- R105 -/
  | rdstat (rd : Reg)
  /-- R121: `rs` holds the address -/
  | pack64 (rd rs : Reg)
  /-- R122: `ra` holds the destination address -/
  | unpack64 (ra rs : Reg)
  /-- R124: pair `p` = (address, length) -/
  | packz (rd p : Reg)
  /-- R125: `rb` a block, `ri` the bit index -/
  | bitat (rd rb ri : Reg)
  /-- R126 -/
  | xor (rd ra rb : Reg)
  /-- R131, N = 32 -/
  | blk32 (rd rs : Reg)
  /-- R131, N = 48 -/
  | blk48 (rd rs : Reg)
  /-- R131, N = 64 -/
  | blk64 (rd rs : Reg)
  /-- R132 -/
  | val (rd rs : Reg)
  /-- R133, low half -/
  | halflo (rd rs : Reg)
  /-- R133, high half -/
  | halfhi (rd rs : Reg)
  /-- R134: `rh` the high half, `rl` the low half -/
  | join (rd rh rl : Reg)
  /-- R150 -/
  | setkey (rs : Reg)
  /-- R151: `k` the subkey index, 0 to 15 -/
  | getsk (rd : Reg) (k : Fin 16)
  /-- R154 -/
  | ip (rd rs : Reg)
  /-- R155 -/
  | fp (rd rs : Reg)
  /-- R157 -/
  | expand (rd rs : Reg)
  /-- R161 -/
  | subst (rd rs : Reg)
  /-- R163 -/
  | permp (rd rs : Reg)
  /-- R165: `rr` the right half, `rk` the subkey -/
  | roundf (rd rr rk : Reg)
  /-- R169 -/
  | enc (rd rs : Reg)
  /-- R170 -/
  | dec (rd rs : Reg)
  /-- R173: `ra` the destination address, pair `p` = (source, length) -/
  | encbuf (ra p : Reg)
  /-- R174: `ra` the destination address, pair `p` = (source, length) -/
  | decbuf (ra p : Reg)
  /-- R192: pair `p` = data, pair `q` = key -/
  | xorrep (ra p q : Reg)
  /-- R196: pair `p` = text, `rs` the shift -/
  | caesar (ra p rs : Reg)
  /-- R203 -/
  | plaus (rd p : Reg)
  /-- R215: pair `p` = cipher, pair `q` = (output, capacity) -/
  | bfx1 (rd p q : Reg)
  /-- R216: pair `p` = cipher, pair `q` = (output, capacity) -/
  | bfx2 (rd p q : Reg)
  /-- R217: pair `p` = cipher, pair `q` = (output, capacity), pair `t` = (dictionary, count) -/
  | bfxd (rd p q t : Reg)
  /-- R221 -/
  | ckey (rd p : Reg)
deriving DecidableEq, Repr

end Sys2Proof
end

