-- ==== Sys2Proof/WellFormed.lean ====
section
/-! DEFINITION. When a command can be encoded (every pair field even, R83) and when platform parameters are legal (R9). -/

namespace Sys2Proof

/-- A register number a pair field may hold (R83). -/
def Reg.even (r : Reg) : Bool := r.val % 2 == 0

/-- The commands that have an encoding: every pair field names an even register. -/
def Instr.wellFormed : Instr → Bool
  | .packz _ p => Reg.even p
  | .encbuf _ p => Reg.even p
  | .decbuf _ p => Reg.even p
  | .xorrep _ p q => Reg.even p && Reg.even q
  | .caesar _ p _ => Reg.even p
  | .plaus _ p => Reg.even p
  | .bfx1 _ p q => Reg.even p && Reg.even q
  | .bfx2 _ p q => Reg.even p && Reg.even q
  | .bfxd _ p q t => Reg.even p && Reg.even q && Reg.even t
  | .ckey _ p => Reg.even p
  | .nop => true
  | .halt => true
  | .li _ _ => true
  | .lih _ _ => true
  | .mov _ _ => true
  | .rdstat _ => true
  | .pack64 _ _ => true
  | .unpack64 _ _ => true
  | .bitat _ _ _ => true
  | .xor _ _ _ => true
  | .blk32 _ _ => true
  | .blk48 _ _ => true
  | .blk64 _ _ => true
  | .val _ _ => true
  | .halflo _ _ => true
  | .halfhi _ _ => true
  | .join _ _ _ => true
  | .setkey _ => true
  | .getsk _ _ => true
  | .ip _ _ => true
  | .fp _ _ => true
  | .expand _ _ => true
  | .subst _ _ => true
  | .permp _ _ => true
  | .roundf _ _ _ => true
  | .enc _ _ => true
  | .dec _ _ => true

/-- R9, table by table: E_TABLE has exactly 48 entries in [1, 32]. -/
def Parameters.eTableOk (p : Parameters) : Bool := p.eTable.length == 48 && p.eTable.all (fun e => 1 ≤ e && e ≤ 32)

/-- P_TABLE has exactly 32 entries in [1, 32] (R9). -/
def Parameters.pTableOk (p : Parameters) : Bool := p.pTable.length == 32 && p.pTable.all (fun e => 1 ≤ e && e ≤ 32)

/-- SBOX has exactly 4 rows of 16 entries in [0, 15] (R9). -/
def Parameters.sboxOk (p : Parameters) : Bool :=
  p.sbox.length == 4 && p.sbox.all (fun row => row.length == 16 && row.all (fun v => v ≤ 15))

/-- 16 <= DMEM_SIZE <= 2^32 (R7). -/
def Parameters.dmemSizeOk (p : Parameters) : Bool := 16 ≤ p.dmemSize && p.dmemSize ≤ 2 ^ 32

/-- 1 <= CMD_DEPTH <= 2^32 - 1 (R7). -/
def Parameters.cmdDepthOk (p : Parameters) : Bool := 1 ≤ p.cmdDepth && p.cmdDepth ≤ 2 ^ 32 - 1

/-- The well-formed configurations of R9. -/
def Parameters.wellFormed (p : Parameters) : Bool :=
  p.eTableOk && p.pTableOk && p.sboxOk && p.dmemSizeOk && p.cmdDepthOk

end Sys2Proof
end

