-- ==== Sys2Proof/Decode.lean ====
section
/-! DEFINITION. Decoding a command word (R70 to R84) and the encoder, both written from the field tables of R71 and R76;
then the opcode map of R76 itself as masks and matches, and the decoder the host asks (`decodeTableWord`). -/

namespace Sys2Proof

/-- The details of ILLEGAL_COMMAND, in the order in which decode tests for them (R80). -/
inductive IllegalDetail where
  /-- the opcode byte is unassigned (R81) -/
  | undefinedOpcode
  /-- a must-be-zero field is not zero (R82) -/
  | reservedBits
  /-- a selector or subkey index is out of range (R80, item 3) -/
  | immRange
  /-- a pair field holds an odd register number (R83) -/
  | oddPair
deriving DecidableEq, Repr

/-! ## Fields (R71, R76) -/

/-- OP = word[7:0]. -/
def fieldOp (w : Command) : BitVec 8 := w.extractLsb' 0 8
/-- A = word[11:8]. -/
def fieldA (w : Command) : BitVec 4 := w.extractLsb' 8 4
/-- B = word[15:12]. -/
def fieldB (w : Command) : BitVec 4 := w.extractLsb' 12 4
/-- C = word[19:16]. -/
def fieldC (w : Command) : BitVec 4 := w.extractLsb' 16 4
/-- D = word[23:20]. -/
def fieldD (w : Command) : BitVec 4 := w.extractLsb' 20 4
/-- IMM8 = word[31:24]. -/
def fieldImm8 (w : Command) : BitVec 8 := w.extractLsb' 24 8
/-- IMM20 = word[31:12]. -/
def fieldImm20 (w : Command) : BitVec 20 := w.extractLsb' 12 20

/-- The register a 4-bit field names. -/
def regOf (b : BitVec 4) : Reg := ⟨b.toNat, b.isLt⟩

/-- The 4-bit field that names a register. -/
def regField (r : Reg) : BitVec 4 := BitVec.ofNat 4 r.val

/-! ## Decode -/

/-- The result of decoding. -/
abbrev Decoded := Except IllegalDetail Instr

/-- Goes on only if the fields the command does not use are zero (R82). -/
def mustBeZero (zero : Bool) (k : Decoded) : Decoded := if zero then k else .error .reservedBits

/-- Goes on only if every pair field holds an even register number (R83). -/
def evenPairs (even : Bool) (k : Decoded) : Decoded := if even then k else .error .oddPair

/-- Decodes one command word: the opcode first, then the must-be-zero fields, then the selector range, then the pairs
(R80). Total on every word (R84). -/
def decode (w : Command) : Decoded :=
  let a := regOf (fieldA w)
  let b := regOf (fieldB w)
  let c := regOf (fieldC w)
  let d := regOf (fieldD w)
  let a0 := fieldA w == 0
  let b0 := fieldB w == 0
  let c0 := fieldC w == 0
  let d0 := fieldD w == 0
  let i0 := fieldImm8 w == 0
  match fieldOp w with
  | 0x01#8 => mustBeZero (a0 && fieldImm20 w == 0) (.ok .nop)
  | 0x02#8 => mustBeZero (a0 && fieldImm20 w == 0) (.ok .halt)
  | 0x03#8 => .ok (.li a (fieldImm20 w))
  | 0x04#8 => .ok (.lih a (fieldImm20 w))
  | 0x05#8 => mustBeZero (c0 && d0 && i0) (.ok (.mov a b))
  | 0x06#8 => mustBeZero (b0 && c0 && d0 && i0) (.ok (.rdstat a))
  | 0x10#8 => mustBeZero (c0 && d0 && i0) (.ok (.pack64 a b))
  | 0x11#8 => mustBeZero (c0 && d0 && i0) (.ok (.unpack64 a b))
  | 0x12#8 => mustBeZero (c0 && d0 && i0) (evenPairs (Reg.even b) (.ok (.packz a b)))
  | 0x13#8 => mustBeZero (d0 && i0) (.ok (.bitat a b c))
  | 0x14#8 => mustBeZero (d0 && i0) (.ok (.xor a b c))
  | 0x15#8 => mustBeZero (c0 && d0) (match fieldImm8 w with
      | 0#8 => .ok (.blk32 a b)
      | 1#8 => .ok (.blk48 a b)
      | 2#8 => .ok (.blk64 a b)
      | _ => .error .immRange)
  | 0x16#8 => mustBeZero (c0 && d0 && i0) (.ok (.val a b))
  | 0x17#8 => mustBeZero (c0 && d0) (match fieldImm8 w with
      | 0#8 => .ok (.halflo a b)
      | 1#8 => .ok (.halfhi a b)
      | _ => .error .immRange)
  | 0x18#8 => mustBeZero (d0 && i0) (.ok (.join a b c))
  | 0x20#8 => mustBeZero (a0 && c0 && d0 && i0) (.ok (.setkey b))
  | 0x21#8 => mustBeZero (b0 && c0 && d0)
      (if (fieldImm8 w).toNat ≤ 15 then .ok (.getsk a (Fin.ofNat 16 (fieldImm8 w).toNat)) else .error .immRange)
  | 0x22#8 => mustBeZero (c0 && d0 && i0) (.ok (.ip a b))
  | 0x23#8 => mustBeZero (c0 && d0 && i0) (.ok (.fp a b))
  | 0x24#8 => mustBeZero (c0 && d0 && i0) (.ok (.expand a b))
  | 0x25#8 => mustBeZero (c0 && d0 && i0) (.ok (.subst a b))
  | 0x26#8 => mustBeZero (c0 && d0 && i0) (.ok (.permp a b))
  | 0x27#8 => mustBeZero (d0 && i0) (.ok (.roundf a b c))
  | 0x28#8 => mustBeZero (c0 && d0 && i0) (.ok (.enc a b))
  | 0x29#8 => mustBeZero (c0 && d0 && i0) (.ok (.dec a b))
  | 0x2A#8 => mustBeZero (c0 && d0 && i0) (evenPairs (Reg.even b) (.ok (.encbuf a b)))
  | 0x2B#8 => mustBeZero (c0 && d0 && i0) (evenPairs (Reg.even b) (.ok (.decbuf a b)))
  | 0x30#8 => mustBeZero (d0 && i0) (evenPairs (Reg.even b && Reg.even c) (.ok (.xorrep a b c)))
  | 0x31#8 => mustBeZero (d0 && i0) (evenPairs (Reg.even b) (.ok (.caesar a b c)))
  | 0x32#8 => mustBeZero (c0 && d0 && i0) (evenPairs (Reg.even b) (.ok (.plaus a b)))
  | 0x33#8 => mustBeZero (d0 && i0) (evenPairs (Reg.even b && Reg.even c) (.ok (.bfx1 a b c)))
  | 0x34#8 => mustBeZero (d0 && i0) (evenPairs (Reg.even b && Reg.even c) (.ok (.bfx2 a b c)))
  | 0x35#8 => mustBeZero i0 (evenPairs (Reg.even b && Reg.even c && Reg.even d) (.ok (.bfxd a b c d)))
  | 0x36#8 => mustBeZero (c0 && d0 && i0) (evenPairs (Reg.even b) (.ok (.ckey a b)))
  | _ => .error .undefinedOpcode

/-! ## Encode -/

/-- A word of format R (and of format N, with every operand field zero) (R71). -/
def wordR (op : BitVec 8) (a b c d : BitVec 4) (imm8 : BitVec 8) : Command := imm8 ++ d ++ c ++ b ++ a ++ op

/-- A word of format I (R71). -/
def wordI (op : BitVec 8) (a : BitVec 4) (imm20 : BitVec 20) : Command := imm20 ++ a ++ op

/-- The word of a command, from its row of R76. -/
def encode : Instr → Command
  | .nop => wordR 0x01 0 0 0 0 0
  | .halt => wordR 0x02 0 0 0 0 0
  | .li rd imm => wordI 0x03 (regField rd) imm
  | .lih rd imm => wordI 0x04 (regField rd) imm
  | .mov rd rs => wordR 0x05 (regField rd) (regField rs) 0 0 0
  | .rdstat rd => wordR 0x06 (regField rd) 0 0 0 0
  | .pack64 rd rs => wordR 0x10 (regField rd) (regField rs) 0 0 0
  | .unpack64 ra rs => wordR 0x11 (regField ra) (regField rs) 0 0 0
  | .packz rd p => wordR 0x12 (regField rd) (regField p) 0 0 0
  | .bitat rd rb ri => wordR 0x13 (regField rd) (regField rb) (regField ri) 0 0
  | .xor rd ra rb => wordR 0x14 (regField rd) (regField ra) (regField rb) 0 0
  | .blk32 rd rs => wordR 0x15 (regField rd) (regField rs) 0 0 0
  | .blk48 rd rs => wordR 0x15 (regField rd) (regField rs) 0 0 1
  | .blk64 rd rs => wordR 0x15 (regField rd) (regField rs) 0 0 2
  | .val rd rs => wordR 0x16 (regField rd) (regField rs) 0 0 0
  | .halflo rd rs => wordR 0x17 (regField rd) (regField rs) 0 0 0
  | .halfhi rd rs => wordR 0x17 (regField rd) (regField rs) 0 0 1
  | .join rd rh rl => wordR 0x18 (regField rd) (regField rh) (regField rl) 0 0
  | .setkey rs => wordR 0x20 0 (regField rs) 0 0 0
  | .getsk rd k => wordR 0x21 (regField rd) 0 0 0 (BitVec.ofNat 8 k.val)
  | .ip rd rs => wordR 0x22 (regField rd) (regField rs) 0 0 0
  | .fp rd rs => wordR 0x23 (regField rd) (regField rs) 0 0 0
  | .expand rd rs => wordR 0x24 (regField rd) (regField rs) 0 0 0
  | .subst rd rs => wordR 0x25 (regField rd) (regField rs) 0 0 0
  | .permp rd rs => wordR 0x26 (regField rd) (regField rs) 0 0 0
  | .roundf rd rr rk => wordR 0x27 (regField rd) (regField rr) (regField rk) 0 0
  | .enc rd rs => wordR 0x28 (regField rd) (regField rs) 0 0 0
  | .dec rd rs => wordR 0x29 (regField rd) (regField rs) 0 0 0
  | .encbuf ra p => wordR 0x2A (regField ra) (regField p) 0 0 0
  | .decbuf ra p => wordR 0x2B (regField ra) (regField p) 0 0 0
  | .xorrep ra p q => wordR 0x30 (regField ra) (regField p) (regField q) 0 0
  | .caesar ra p rs => wordR 0x31 (regField ra) (regField p) (regField rs) 0 0
  | .plaus rd p => wordR 0x32 (regField rd) (regField p) 0 0 0
  | .bfx1 rd p q => wordR 0x33 (regField rd) (regField p) (regField q) 0 0
  | .bfx2 rd p q => wordR 0x34 (regField rd) (regField p) (regField q) 0 0
  | .bfxd rd p q t => wordR 0x35 (regField rd) (regField p) (regField q) (regField t) 0
  | .ckey rd p => wordR 0x36 (regField rd) (regField p) 0 0 0

/-! ## The opcode map of R76 -/

/-- One row of R76: a word encodes the row's command exactly when its masked bits equal the match. -/
structure OpcodeRow where
  /-- the bits the row fixes -/
  mask : Command
  /-- their values -/
  pattern : Command
deriving DecidableEq, Repr

/-- Whether a word encodes the row's command (R76). -/
def OpcodeRow.fits (r : OpcodeRow) (w : Command) : Bool := w &&& r.mask == r.pattern

/-- The row of R76 a command belongs to, its mask and match as the table prints them. -/
def opcodeRow : Instr → OpcodeRow
  | .nop => ⟨0xFFFFFFFF, 0x00000001⟩
  | .halt => ⟨0xFFFFFFFF, 0x00000002⟩
  | .li _ _ => ⟨0x000000FF, 0x00000003⟩
  | .lih _ _ => ⟨0x000000FF, 0x00000004⟩
  | .mov _ _ => ⟨0xFFFF00FF, 0x00000005⟩
  | .rdstat _ => ⟨0xFFFFF0FF, 0x00000006⟩
  | .pack64 _ _ => ⟨0xFFFF00FF, 0x00000010⟩
  | .unpack64 _ _ => ⟨0xFFFF00FF, 0x00000011⟩
  | .packz _ _ => ⟨0xFFFF10FF, 0x00000012⟩
  | .bitat _ _ _ => ⟨0xFFF000FF, 0x00000013⟩
  | .xor _ _ _ => ⟨0xFFF000FF, 0x00000014⟩
  | .blk32 _ _ => ⟨0xFFFF00FF, 0x00000015⟩
  | .blk48 _ _ => ⟨0xFFFF00FF, 0x01000015⟩
  | .blk64 _ _ => ⟨0xFFFF00FF, 0x02000015⟩
  | .val _ _ => ⟨0xFFFF00FF, 0x00000016⟩
  | .halflo _ _ => ⟨0xFFFF00FF, 0x00000017⟩
  | .halfhi _ _ => ⟨0xFFFF00FF, 0x01000017⟩
  | .join _ _ _ => ⟨0xFFF000FF, 0x00000018⟩
  | .setkey _ => ⟨0xFFFF0FFF, 0x00000020⟩
  | .getsk _ _ => ⟨0xF0FFF0FF, 0x00000021⟩
  | .ip _ _ => ⟨0xFFFF00FF, 0x00000022⟩
  | .fp _ _ => ⟨0xFFFF00FF, 0x00000023⟩
  | .expand _ _ => ⟨0xFFFF00FF, 0x00000024⟩
  | .subst _ _ => ⟨0xFFFF00FF, 0x00000025⟩
  | .permp _ _ => ⟨0xFFFF00FF, 0x00000026⟩
  | .roundf _ _ _ => ⟨0xFFF000FF, 0x00000027⟩
  | .enc _ _ => ⟨0xFFFF00FF, 0x00000028⟩
  | .dec _ _ => ⟨0xFFFF00FF, 0x00000029⟩
  | .encbuf _ _ => ⟨0xFFFF10FF, 0x0000002A⟩
  | .decbuf _ _ => ⟨0xFFFF10FF, 0x0000002B⟩
  | .xorrep _ _ _ => ⟨0xFFF110FF, 0x00000030⟩
  | .caesar _ _ _ => ⟨0xFFF010FF, 0x00000031⟩
  | .plaus _ _ => ⟨0xFFFF10FF, 0x00000032⟩
  | .bfx1 _ _ _ => ⟨0xFFF110FF, 0x00000033⟩
  | .bfx2 _ _ _ => ⟨0xFFF110FF, 0x00000034⟩
  | .bfxd _ _ _ _ => ⟨0xFF1110FF, 0x00000035⟩
  | .ckey _ _ => ⟨0xFFFF10FF, 0x00000036⟩

/-- The opcode map of R76: its 37 rows in the table's order (a row does not depend on the operands). -/
def opcodeMap : List OpcodeRow :=
  [opcodeRow .nop, opcodeRow .halt, opcodeRow (.li 0 0), opcodeRow (.lih 0 0), opcodeRow (.mov 0 0),
    opcodeRow (.rdstat 0), opcodeRow (.pack64 0 0), opcodeRow (.unpack64 0 0), opcodeRow (.packz 0 0),
    opcodeRow (.bitat 0 0 0), opcodeRow (.xor 0 0 0), opcodeRow (.blk32 0 0), opcodeRow (.blk48 0 0),
    opcodeRow (.blk64 0 0), opcodeRow (.val 0 0), opcodeRow (.halflo 0 0), opcodeRow (.halfhi 0 0),
    opcodeRow (.join 0 0 0), opcodeRow (.setkey 0), opcodeRow (.getsk 0 0), opcodeRow (.ip 0 0), opcodeRow (.fp 0 0),
    opcodeRow (.expand 0 0), opcodeRow (.subst 0 0), opcodeRow (.permp 0 0), opcodeRow (.roundf 0 0 0),
    opcodeRow (.enc 0 0), opcodeRow (.dec 0 0), opcodeRow (.encbuf 0 0), opcodeRow (.decbuf 0 0),
    opcodeRow (.xorrep 0 0 0), opcodeRow (.caesar 0 0 0), opcodeRow (.plaus 0 0), opcodeRow (.bfx1 0 0 0),
    opcodeRow (.bfx2 0 0 0), opcodeRow (.bfxd 0 0 0 0), opcodeRow (.ckey 0 0)]

/-! ## The decoder the host asks -/

/-- The command the decoder reads from a word whose bits are `w`, numbered as the opcode table numbers them; the bits
from `nbits` up are zero. -/
def decodeTableWord (nbits w : Nat) : Option Instr :=
  match decode (BitVec.ofNat 32 (w % 2 ^ nbits)) with
  | .ok i => some i
  | .error _ => none

end Sys2Proof
end

