-- ==== Sys2Proof/Machine/Platform.lean ====
section
/-! DEFINITION. Reading a platform's parameters (R7, R33), and building them from raw values, which refuses an ill-formed
configuration (R9). -/

namespace Sys2Proof

/-- E_TABLE[i], a position in 1..32. -/
def Config.eEntry (c : Config) (i : Fin 48) : Nat := c.eTable[i].val + 1

/-- P_TABLE[i], a position in 1..32. -/
def Config.pEntry (c : Config) (i : Fin 32) : Nat := c.pTable[i].val + 1

/-- SBOX[row][col], a value in 0..15. -/
def Config.sboxEntry (c : Config) (row : Fin 4) (col : Fin 16) : BitVec 4 := c.sbox[row][col]

/-- DMEM_SIZE in bytes. -/
def Config.dmemSize (c : Config) : Nat := c.dmemLess16.val + 16

/-- CMD_DEPTH in words. -/
def Config.cmdDepth (c : Config) : Nat := c.cmdLess1.val + 1

/-- The configuration that raw parameters describe; none if they are ill-formed: such a platform has no run (R9). -/
def Parameters.configure? (p : Parameters) : Option Config :=
  if p.wellFormed then
    some {
      eTable := Vector.ofFn fun i => Fin.ofNat 32 (p.eTable.getD i.val 0 - 1)
      pTable := Vector.ofFn fun i => Fin.ofNat 32 (p.pTable.getD i.val 0 - 1)
      sbox := Vector.ofFn fun r => Vector.ofFn fun k => BitVec.ofNat 4 ((p.sbox.getD r.val []).getD k.val 0)
      dmemLess16 := Fin.ofNat _ (p.dmemSize - 16)
      cmdLess1 := Fin.ofNat _ (p.cmdDepth - 1)
    }
  else none

end Sys2Proof
end

