-- ==== Sys2Proof/Machine/State.lean ====
section
/-! DEFINITION. The state of the engine as plain data (R20 to R36), the reasons a step can stop, and the state after
reset (R36, R260). -/

namespace Sys2Proof.Machine

/-- A fixed-width block with its tag: B32, B48 or B64 (R21). Its value is below 2^N by its type (R22). -/
inductive Block where
  /-- tag B32 -/
  | b32 (v : Half)
  /-- tag B48 -/
  | b48 (v : Subkey)
  /-- tag B64 -/
  | b64 (v : Block64)
deriving DecidableEq, Repr

/-- A register cell: tag and value together (R21). -/
inductive Cell where
  /-- tag U: no value (R36 writes its value field as 0) -/
  | unwritten
  /-- tag S: a 64-bit unsigned scalar -/
  | scalar (v : Scalar)
  /-- a block tag -/
  | block (b : Block)
deriving DecidableEq, Repr

/-- RUNSTATE (R28). -/
inductive RunState where
  /-- after reset, before any HOST_START -/
  | idle
  /-- between HOST_START and a HALT or a fault -/
  | running
  /-- after a HALT -/
  | halted
  /-- after a fault; only reset leaves it -/
  | faulted
deriving DecidableEq, Repr

/-- A memory as sparse data: (address, value) pairs with strictly rising addresses (`Memory.wf`). An address that is not
listed has not been written since power-up. Log 3. -/
abbrev Memory (w : Nat) := List (Nat × BitVec w)

/-- The state of the machine. Every field but `cfg` and `powerUp` is an item of R20. -/
structure State where
  /-- the platform's parameters; the model's own field, changed by nothing (R7, R33; log 1) -/
  cfg : Config
  /-- which power-up the unwritten memory contents belong to; the model's own field (R52; log 4) -/
  powerUp : Nat
  /-- R0 to R15 (R21) -/
  regs : Vector Cell 16
  /-- the command index (R24) -/
  pc : BitVec 32
  /-- KEYED (R25) -/
  keyed : Bool
  /-- KEY (R26) -/
  key : Block64
  /-- SK[0..15] (R27) -/
  sk : Vector Subkey 16
  /-- RUNSTATE (R28) -/
  runState : RunState
  /-- FCAUSE (R29) -/
  fcause : BitVec 8
  /-- FDETAIL (R29) -/
  fdetail : BitVec 8
  /-- FPC (R29) -/
  fpc : BitVec 32
  /-- FINFO (R29) -/
  finfo : BitVec 64
  /-- START_PC (R30) -/
  startPc : BitVec 32
  /-- DMEM (R50) -/
  dmem : List Host.Cell
  /-- CMDMEM (R51) -/
  cmdMem : Memory 32
deriving DecidableEq, Repr

/-- Why `step` answers `fault`. An engine fault of R230 is not among these: it is a next state (log 8). -/
inductive Fault where
  /-- Raised by `step` alone, when RUNSTATE is not RUNNING: the engine takes no step (R100). Safe: only the host can
  change such a state (log 7). -/
  | engineStopped (r : RunState)
deriving DecidableEq, Repr

/-- Why an instruction is refused. -/
inductive Refusal where
  /-- Raised by an arm of `exec` for an instruction that has no meaning yet; no arm does. Safe. -/
  | notModelled (mnemonic : String)
deriving DecidableEq, Repr

/-- The outcome of a step of this machine. -/
abbrev Out := Host.Outcome State Fault Refusal

/-- The state after power-on reset (R36, R260). KEY and SK are unspecified there and read 0 here (log 5); both memories
are arbitrary, so nothing is listed (log 3). -/
def State.reset : State where
  cfg := Config.platform
  powerUp := 0
  regs := Vector.replicate 16 .unwritten
  pc := 0
  keyed := false
  key := 0
  sk := Vector.replicate 16 0
  runState := .idle
  fcause := 0
  fdetail := 0
  fpc := 0
  finfo := 0
  startPc := 0
  dmem := []
  cmdMem := []

end Sys2Proof.Machine
end

