-- ==== Sys2Proof/Machine/Ops.lean ====
section
/-! DEFINITION. The named operations over memory and registers, the one operation that takes a fault (R240), what stands
in the place of a return from one (reset, R260; there is no other, R241), and the completion of a command (R100). -/

namespace Sys2Proof.Machine

/-! ## Memory -/

/-- The canonical form: addresses strictly rising. -/
abbrev Memory.wf {w : Nat} (m : Memory w) : Prop := (m.map Prod.fst).Pairwise (· < ·)

/-- The value listed at an address, if it has been written. -/
def Memory.look {w : Nat} : Memory w → Nat → Option (BitVec w)
  | [], _ => none
  | (a, v) :: m, b => if a = b then some v else Memory.look m b

/-- The memory after one write; keeps the canonical form. -/
def Memory.put {w : Nat} : Memory w → Nat → BitVec w → Memory w
  | [], b, v => [(b, v)]
  | (a, x) :: m, b, v =>
    if b < a then (b, v) :: (a, x) :: m
    else if b = a then (b, v) :: m
    else (a, x) :: Memory.put m b v

/-- The memory after writing a sequence at rising addresses. -/
def Memory.putAll {w : Nat} : Memory w → Nat → List (BitVec w) → Memory w
  | m, _, [] => m
  | m, a, v :: vs => Memory.putAll (m.put a v) (a + 1) vs

/-- DMEM[a]: the byte written last, or the free draw of the power-up (R52). -/
def State.byte (s : State) (a : Nat) : Byte :=
  match Memory.look s.dmem a with
  | some v => v
  | none => Config.powerOnByte s.powerUp a

/-- MemRead (R12): n bytes from address a, in ascending address order. -/
def State.readBytes (s : State) (a n : Nat) : List Byte := (List.range n).map fun k => s.byte (a + k)

/-- MemWrite (R12): byte k of the sequence goes to DMEM[a + k]. -/
def State.storeBytes (s : State) (a : Nat) (bs : List Byte) : State := { s with dmem := Memory.putAll s.dmem a bs }

/-- CMDMEM[i]: the word written last, or the free draw of the power-up (R52). -/
def State.cmdWord (s : State) (i : Nat) : Command :=
  match Memory.look s.cmdMem i with
  | some w => w
  | none => Config.powerOnWord s.powerUp i

/-- The state after a word is written into CMDMEM; only the host does so (R51). -/
def State.storeCmd (s : State) (i : Nat) (w : Command) : State := { s with cmdMem := Memory.put s.cmdMem i w }

/-! ## Registers -/

/-- R[n] (R21). -/
def State.reg (s : State) (n : Reg) : Cell := s.regs[n]

/-- Writes the whole cell R[n] (R22). -/
def State.setReg (s : State) (n : Reg) (c : Cell) : State := { s with regs := s.regs.set n.val c }

/-- Binds the master key and its subkeys and sets KEYED (R150). -/
def State.bindKey (s : State) (k : Block64) (sks : Vector Subkey 16) : State :=
  { s with key := k, sk := sks, keyed := true }

/-- HALT: RUNSTATE <- HALTED, pc stays (R101). -/
def State.halt (s : State) : State := { s with runState := .halted }

/-- pc <- pc + 1 (R13, R24). -/
def State.advance (s : State) : State := { s with pc := s.pc + 1 }

/-! ## Faults -/

/-- The faults of R230, each with the value that FINFO reports. -/
inductive Raise where
  /-- INVALID_ARGUMENT(TAG_MISMATCH, n) -/
  | tagMismatch (n : Reg)
  /-- INVALID_ARGUMENT(EMPTY_KEY): 0 for XORREP, the entry index for BFXD -/
  | emptyKey (j : BitVec 64)
  /-- INVALID_ARGUMENT(BIT_INDEX, i) -/
  | bitIndex (i : Scalar)
  /-- INVALID_ARGUMENT(LENGTH, n) -/
  | length (n : Scalar)
  /-- INVALID_ARGUMENT(CAPACITY, h) -/
  | capacity (h : BitVec 64)
  /-- INVALID_ARGUMENT(VALUE_RANGE, v) -/
  | valueRange (v : Scalar)
  /-- INVALID_STATE(NOT_KEYED, 0) -/
  | notKeyed
  /-- INVALID_STATE(ALREADY_KEYED, 0) -/
  | alreadyKeyed
  /-- ILLEGAL_COMMAND with a detail of decode -/
  | illegal (d : IllegalDetail) (w : Command)
  /-- MEMORY_BOUNDS(READ, start of the region) -/
  | memRead (addr : BitVec 64)
  /-- MEMORY_BOUNDS(WRITE, start of the region) -/
  | memWrite (addr : BitVec 64)
  /-- UNWRITTEN_REGISTER(0, n) -/
  | unwritten (n : Reg)
  /-- FETCH_BOUNDS(0, pc) -/
  | fetchBounds (pc : BitVec 32)
deriving DecidableEq, Repr

/-- FCAUSE of a fault (R230). -/
def Raise.cause : Raise → BitVec 8
  | .tagMismatch _ => 1
  | .emptyKey _ => 1
  | .bitIndex _ => 1
  | .length _ => 1
  | .capacity _ => 1
  | .valueRange _ => 1
  | .notKeyed => 2
  | .alreadyKeyed => 2
  | .illegal _ _ => 3
  | .memRead _ => 4
  | .memWrite _ => 4
  | .unwritten _ => 5
  | .fetchBounds _ => 6

/-- FDETAIL of a fault (R230; the details of ILLEGAL_COMMAND are numbered in R80). -/
def Raise.detail : Raise → BitVec 8
  | .tagMismatch _ => 1
  | .emptyKey _ => 2
  | .bitIndex _ => 3
  | .length _ => 4
  | .capacity _ => 5
  | .valueRange _ => 6
  | .notKeyed => 1
  | .alreadyKeyed => 2
  | .illegal .undefinedOpcode _ => 1
  | .illegal .reservedBits _ => 2
  | .illegal .immRange _ => 3
  | .illegal .oddPair _ => 4
  | .memRead _ => 1
  | .memWrite _ => 2
  | .unwritten _ => 0
  | .fetchBounds _ => 0

/-- FINFO of a fault (R230). -/
def Raise.info : Raise → BitVec 64
  | .tagMismatch n => BitVec.ofNat 64 n.val
  | .emptyKey j => j
  | .bitIndex i => i
  | .length n => n
  | .capacity h => h
  | .valueRange v => v
  | .notKeyed => 0
  | .alreadyKeyed => 0
  | .illegal _ w => w.setWidth 64
  | .memRead addr => addr
  | .memWrite addr => addr
  | .unwritten n => BitVec.ofNat 64 n.val
  | .fetchBounds pc => pc.setWidth 64

/-- Fault entry (R240): the fault registers are written and RUNSTATE becomes FAULTED; pc and everything else stay. -/
def State.takeFault (s : State) (r : Raise) : State :=
  { s with fcause := r.cause, fdetail := r.detail, fpc := s.pc, finfo := r.info, runState := .faulted }

/-- The state after a reset of this machine (R260): as power-on reset, but both memories stay as they were (and so do the
platform and its power-up). It is the only way out of FAULTED (R241). -/
def State.resetAgain (s : State) : State :=
  { State.reset with cfg := s.cfg, powerUp := s.powerUp, dmem := s.dmem, cmdMem := s.cmdMem }

/-- Ends a command whose rule answers its writes or the first check that failed (R100, R13): on success the writes
stand and pc advances; on a fault nothing of the command stands (R231). -/
def complete (s : State) : Except Raise State → Out
  | .ok t => .next t.advance
  | .error r => .next (s.takeFault r)

end Sys2Proof.Machine
end

