-- ==== Sys2Proof/Machine/Operands.lean ====
section
/-! DEFINITION. Reading operands (R11, R23), the checks a command makes before it writes (R13, R58), and the byte order
of blocks (R54). -/

namespace Sys2Proof.Machine

/-- A part of a command's rule: a value, or the first check that failed (R13). -/
abbrev Check (α : Type) := Except Raise α

/-- Raises `r` unless the condition holds (R13). -/
def ensure (holds : Bool) (r : Raise) : Check Unit := if holds then .ok () else .error r

/-! ## Registers -/

/-- readS(n) (R11): a scalar; U raises first, then any other tag. -/
def State.readS (s : State) (n : Reg) : Check Scalar :=
  match s.reg n with
  | .unwritten => .error (.unwritten n)
  | .scalar v => .ok v
  | .block _ => .error (.tagMismatch n)

/-- readAnyB(n) (R11): a block of any width. -/
def State.readAnyB (s : State) (n : Reg) : Check Block :=
  match s.reg n with
  | .unwritten => .error (.unwritten n)
  | .scalar _ => .error (.tagMismatch n)
  | .block b => .ok b

/-- readB(n, 32) (R11). -/
def State.readB32 (s : State) (n : Reg) : Check Half :=
  match s.reg n with
  | .unwritten => .error (.unwritten n)
  | .block (.b32 v) => .ok v
  | _ => .error (.tagMismatch n)

/-- readB(n, 48) (R11). -/
def State.readB48 (s : State) (n : Reg) : Check Subkey :=
  match s.reg n with
  | .unwritten => .error (.unwritten n)
  | .block (.b48 v) => .ok v
  | _ => .error (.tagMismatch n)

/-- readB(n, 64) (R11). -/
def State.readB64 (s : State) (n : Reg) : Check Block64 :=
  match s.reg n with
  | .unwritten => .error (.unwritten n)
  | .block (.b64 v) => .ok v
  | _ => .error (.tagMismatch n)

/-- The second register of a pair: n + 1 (R23). The decoder gives pairs an even n only (R83; log 15). -/
def Reg.second (n : Reg) : Reg := n + 1

/-- readPair(n) (R11): the scalars of R[n] and R[n+1], register n first. -/
def State.readPair (s : State) (n : Reg) : Check (Scalar × Scalar) := do
  let a ← s.readS n
  let b ← s.readS (Reg.second n)
  .ok (a, b)

/-! ## Checks -/

/-- require Keyed (R13, R175). -/
def State.requireKeyed (s : State) : Check Unit := ensure s.keyed .notKeyed

/-- inBounds(addr, n) (R12), on unbounded integers. -/
def State.inBounds (s : State) (addr n : Nat) : Bool := addr + n ≤ s.cfg.dmemSize

/-- The bounds check of a region the command reads (R58, R234). -/
def State.checkRead (s : State) (addr : Scalar) (n : Nat) : Check Unit :=
  ensure (s.inBounds addr.toNat n) (.memRead addr)

/-- The bounds check of a region the command writes (R58, R234). -/
def State.checkWrite (s : State) (addr : Scalar) (n : Nat) : Check Unit :=
  ensure (s.inBounds addr.toNat n) (.memWrite addr)

/-! ## Blocks and bits -/

/-- The width N of a block. -/
def Block.width : Block → Nat
  | .b32 _ => 32
  | .b48 _ => 48
  | .b64 _ => 64

/-- The value of a block, zero-extended to 64 bits. -/
def Block.value : Block → BitVec 64
  | .b32 v => v.setWidth 64
  | .b48 v => v.setWidth 64
  | .b64 v => v

/-- The word whose bit i is `f i` (R10). -/
def bitsOf : (w : Nat) → (Fin w → Bool) → BitVec w
  | 0, _ => 0#0
  | w + 1, f => BitVec.cons (f (Fin.last w)) (bitsOf w fun i => f i.castSucc)

/-- A Boolean as the scalar 0 or 1 (R125, R203). -/
def boolScalar (b : Bool) : Scalar := if b then 1 else 0

/-! ## Byte order (R54) -/

/-- pack64: 8 bytes, big-endian; missing bytes are null, on the right (R54, R56). -/
def pack64 (b : List Byte) : Block64 :=
  b.getD 0 0 ++ b.getD 1 0 ++ b.getD 2 0 ++ b.getD 3 0 ++ b.getD 4 0 ++ b.getD 5 0 ++ b.getD 6 0 ++ b.getD 7 0

/-- unpack64: byte i is v[(7-i)*8+7 : (7-i)*8] (R54). -/
def unpack64 (v : Block64) : List Byte :=
  [v.extractLsb' 56 8, v.extractLsb' 48 8, v.extractLsb' 40 8, v.extractLsb' 32 8,
    v.extractLsb' 24 8, v.extractLsb' 16 8, v.extractLsb' 8 8, v.extractLsb' 0 8]

/-- A 32-bit index as 4 bytes, big-endian (R55, R211). -/
def unpack32 (v : BitVec 32) : List Byte :=
  [v.extractLsb' 24 8, v.extractLsb' 16 8, v.extractLsb' 8 8, v.extractLsb' 0 8]

end Sys2Proof.Machine
end

