-- ==== Sys2Proof/Machine/Flags.lean ====
section
/-! DEFINITION. FCE-1 has no flags and no command sets one (R35). What a program can read of the machine's condition is
the STATUS word (R31), computed here. -/

namespace Sys2Proof.Machine

/-- The 2-bit code of RUNSTATE (R28). -/
def RunState.code : RunState → BitVec 2
  | .idle => 0
  | .running => 1
  | .halted => 2
  | .faulted => 3

/-- A STATUS word: RUNSTATE in bits 1..0, KEYED in bit 2, bits 31..3 zero (R31). -/
def statusWord (r : RunState) (keyed : Bool) : BitVec 32 := 0#29 ++ BitVec.ofBool keyed ++ r.code

/-- STATUS as the host reads it (R31). -/
def State.status (s : State) : BitVec 32 := statusWord s.runState s.keyed

end Sys2Proof.Machine
end

