-- ==== Sys2Proof/Machine/Classical.lean ====
section
/-! DEFINITION. The classical primitives: repeating-key XOR (R191, R192) and the Caesar shift (R194 to R196). -/

namespace Sys2Proof.Machine

/-- xorRepeat: output byte i = data[i] XOR key[i mod len(key)] (R191); the commands never give it an empty key. -/
def xorRepeat (data key : List Byte) : List Byte := data.mapIdx fun i x => x ^^^ key.getD (i % key.length) 0

/-- XORREP (R192). -/
def execXorrep (ra p q : Reg) (s : State) : Out :=
  complete s do
    let dst ← s.readS ra
    let (src, n) ← s.readPair p
    let (ka, kl) ← s.readPair q
    ensure (kl != 0) (.emptyKey 0)
    s.checkRead src n.toNat
    s.checkRead ka kl.toNat
    s.checkWrite dst n.toNat
    .ok (s.storeBytes dst.toNat (xorRepeat (s.readBytes src.toNat n.toNat) (s.readBytes ka.toNat kl.toNat)))

/-- The shift s' = s mod 26 in [0, 26), of a scalar read as a signed integer (R194). -/
def caesarAmount (shift : Scalar) : Nat := (shift.toInt % 26).toNat

/-- One byte moved by k places within the m characters that start at `base` (R195). -/
def rotateIn (base m k : Nat) (c : Byte) : Byte := BitVec.ofNat 8 ((c.toNat - base + k) % m + base)

/-- Caesar shift of one byte: lower-case, upper-case, digit, or unchanged (R195, code points of R14). -/
def caesarByte (k : Nat) (c : Byte) : Byte :=
  if 0x61 ≤ c.toNat ∧ c.toNat ≤ 0x7A then rotateIn 0x61 26 k c
  else if 0x41 ≤ c.toNat ∧ c.toNat ≤ 0x5A then rotateIn 0x41 26 k c
  else if 0x30 ≤ c.toNat ∧ c.toNat ≤ 0x39 then rotateIn 0x30 10 k c
  else c

/-- caesarShift (R195). -/
def caesarShift (text : List Byte) (shift : Scalar) : List Byte := text.map (caesarByte (caesarAmount shift))

/-- CAESAR (R196): the shift register is read last. -/
def execCaesar (ra p rs : Reg) (s : State) : Out :=
  complete s do
    let dst ← s.readS ra
    let (src, n) ← s.readPair p
    let shift ← s.readS rs
    s.checkRead src n.toNat
    s.checkWrite dst n.toNat
    .ok (s.storeBytes dst.toNat (caesarShift (s.readBytes src.toNat n.toNat) shift))

end Sys2Proof.Machine
end

