-- ==== Sys2Proof/Machine/Analysis.lean ====
section
/-! DEFINITION. The cryptanalysis commands: the plausibility oracle (R200, R203), the three searches (R205 to R217) and
Caesar key estimation (R220, R221). -/

namespace Sys2Proof.Machine

/-! ## Plausibility oracle -/

/-- One plausible byte: printable (0x20 to 0x7E) or newline (R200). -/
def plausibleByte (x : Byte) : Bool := (0x20 ≤ x.toNat && x.toNat ≤ 0x7E) || x == 0x0A

/-- isPlausible: every byte is plausible (R200). -/
def isPlausible (b : List Byte) : Bool := b.all plausibleByte

/-- PLAUS (R203). -/
def execPlaus (rd p : Reg) (s : State) : Out :=
  complete s do
    let (a, n) ← s.readPair p
    s.checkRead a n.toNat
    .ok (s.setReg rd (.scalar (boolScalar (isPlausible (s.readBytes a.toNat n.toNat)))))

/-! ## Searches -/

/-- One trial of a search: the bytes that name its key in a record (R211), and the key. -/
structure Trial where
  /-- the record's first bytes -/
  name : List Byte
  /-- the repeating key -/
  key : List Byte
deriving DecidableEq, Repr

/-- The 256 one-byte keys, ascending (R206). -/
def oneByteTrials : List Trial :=
  (List.range 256).map fun k => ⟨[BitVec.ofNat 8 k], [BitVec.ofNat 8 k]⟩

/-- The 65536 two-byte keys, the outer byte first (R207). -/
def twoByteTrials : List Trial :=
  (List.range 256).flatMap fun b1 => (List.range 256).map fun b2 =>
    ⟨[BitVec.ofNat 8 b1, BitVec.ofNat 8 b2], [BitVec.ofNat 8 b1, BitVec.ofNat 8 b2]⟩

/-- The dictionary keys in the given order, each named by its index as 4 bytes big-endian (R208, R211). -/
def dictTrials (keys : List (List Byte)) : List Trial := keys.mapIdx fun j k => ⟨unpack32 (BitVec.ofNat 32 j), k⟩

/-- The dictionary parse (R208): `cnt` entries still to read, the index `j` and the address `p` of the next one. -/
def State.parseDict (s : State) : (cnt j p : Nat) → Check (List (List Byte))
  | 0, _, _ => .ok []
  | cnt + 1, j, p =>
    if s.inBounds p 1 then
      let len := (s.byte p).toNat
      if len = 0 then .error (.emptyKey (BitVec.ofNat 64 j))
      else if s.inBounds (p + 1) len then
        match State.parseDict s cnt (j + 1) (p + 1 + len) with
        | .ok keys => .ok (s.readBytes (p + 1) len :: keys)
        | .error r => .error r
      else .error (.memRead (BitVec.ofNat 64 (p + 1)))
    else .error (.memRead (BitVec.ofNat 64 p))

/-- The record of a trial if it is a hit: its key's name, then the candidate (R205, R211). -/
def hitRecord? (cipher : List Byte) (t : Trial) : Option (List Byte) :=
  if isPlausible (xorRepeat cipher t.key) then some (t.name ++ xorRepeat cipher t.key) else none

/-- The records of all hits, in trial order (R213, R214). -/
def searchRecords (cipher : List Byte) (trials : List Trial) : List (List Byte) := trials.filterMap (hitRecord? cipher)

/-- The end of every search (R213): capacity, output bounds, the records, the hit count. `size` is the record size. -/
def searchOutput (s : State) (rd : Reg) (oa cap : Scalar) (size : Nat) (records : List (List Byte)) : Check State := do
  ensure (records.length ≤ cap.toNat) (.capacity (BitVec.ofNat 64 records.length))
  s.checkWrite oa (records.length * size)
  .ok ((s.storeBytes oa.toNat records.flatten).setReg rd (.scalar (BitVec.ofNat 64 records.length)))

/-- The common rule of BFX1 and BFX2 (R213); `nameLen` is the length of a key's name in a record. -/
def keySearch (trials : List Trial) (nameLen : Nat) (rd p q : Reg) (s : State) : Check State := do
  let (ca, n) ← s.readPair p
  let (oa, cap) ← s.readPair q
  s.checkRead ca n.toNat
  searchOutput s rd oa cap (nameLen + n.toNat) (searchRecords (s.readBytes ca.toNat n.toNat) trials)

/-- BFX1 (R215). -/
def execBfx1 (rd p q : Reg) (s : State) : Out := complete s (keySearch oneByteTrials 1 rd p q s)

/-- BFX2 (R216). -/
def execBfx2 (rd p q : Reg) (s : State) : Out := complete s (keySearch twoByteTrials 2 rd p q s)

/-- BFXD (R217): the dictionary is parsed after the cipher's bounds check and before any trial (R213). -/
def execBfxd (rd p q t : Reg) (s : State) : Out :=
  complete s do
    let (ca, n) ← s.readPair p
    let (oa, cap) ← s.readPair q
    let (da, cnt) ← s.readPair t
    s.checkRead ca n.toNat
    let keys ← s.parseDict cnt.toNat 0 da.toNat
    searchOutput s rd oa cap (4 + n.toNat) (searchRecords (s.readBytes ca.toNat n.toNat) (dictTrials keys))

/-! ## Caesar key estimation -/

/-- The alphabet index of a letter, folded to lower case; none for any other byte (R220). -/
def letterIndex (c : Byte) : Option Nat :=
  if 0x61 ≤ c.toNat ∧ c.toNat ≤ 0x7A then some (c.toNat - 0x61)
  else if 0x41 ≤ c.toNat ∧ c.toNat ≤ 0x5A then some (c.toNat - 0x41)
  else none

/-- hist[i]: how many letters of the text have index i (R220). -/
def letterCount (text : List Byte) (i : Nat) : Nat := text.countP fun c => letterIndex c == some i

/-- The index of the fullest bucket, the lowest on a tie: a scan of 1..25 with a strict comparison (R220). -/
def fullestBucket (hist : Nat → Nat) : Nat :=
  (List.range' 1 25).foldl (fun m i => if hist m < hist i then i else m) 0

/-- evaluateCaesarKey: (m - 4 + 26) mod 26 (R220). -/
def evaluateCaesarKey (text : List Byte) : Nat := (fullestBucket (letterCount text) + 26 - 4) % 26

/-- CKEY (R221). -/
def execCkey (rd p : Reg) (s : State) : Out :=
  complete s do
    let (a, n) ← s.readPair p
    s.checkRead a n.toNat
    .ok (s.setReg rd (.scalar (BitVec.ofNat 64 (evaluateCaesarKey (s.readBytes a.toNat n.toNat)))))

end Sys2Proof.Machine
end

