-- ==== Sys2Proof/Machine/BitBlock.lean ====
section
/-! DEFINITION. The BitBlock commands (R121 to R134). -/

namespace Sys2Proof.Machine

/-- PACK64 (R121). -/
def execPack64 (rd rs : Reg) (s : State) : Out :=
  complete s do
    let addr ← s.readS rs
    s.checkRead addr 8
    .ok (s.setReg rd (.block (.b64 (pack64 (s.readBytes addr.toNat 8)))))

/-- UNPACK64 (R122): the address register is read first. -/
def execUnpack64 (ra rs : Reg) (s : State) : Out :=
  complete s do
    let addr ← s.readS ra
    let v ← s.readB64 rs
    s.checkWrite addr 8
    .ok (s.storeBytes addr.toNat (unpack64 v))

/-- PACKZ (R124): 0 to 8 bytes, null-padded on the right. -/
def execPackz (rd p : Reg) (s : State) : Out :=
  complete s do
    let (addr, n) ← s.readPair p
    ensure (n.toNat ≤ 8) (.length n)
    s.checkRead addr n.toNat
    .ok (s.setReg rd (.block (.b64 (pack64 (s.readBytes addr.toNat n.toNat)))))

/-- BITAT (R125). -/
def execBitat (rd rb ri : Reg) (s : State) : Out :=
  complete s do
    let b ← s.readAnyB rb
    let i ← s.readS ri
    ensure (i.toNat < b.width) (.bitIndex i)
    .ok (s.setReg rd (.scalar (boolScalar (b.value.getLsbD i.toNat))))

/-- Exclusive-or of two blocks of one width; none if the widths differ (R126). -/
def Block.xor? : Block → Block → Option Block
  | .b32 a, .b32 b => some (.b32 (a ^^^ b))
  | .b48 a, .b48 b => some (.b48 (a ^^^ b))
  | .b64 a, .b64 b => some (.b64 (a ^^^ b))
  | _, _ => none

/-- XOR (R126). -/
def execXor (rd ra rb : Reg) (s : State) : Out :=
  complete s do
    let a ← s.readAnyB ra
    let b ← s.readAnyB rb
    match a.xor? b with
    | some c => .ok (s.setReg rd (.block c))
    | none => .error (.tagMismatch rb)

/-- BLK32 (R131): a scalar too wide for the block is rejected. -/
def execBlk32 (rd rs : Reg) (s : State) : Out :=
  complete s do
    let v ← s.readS rs
    ensure (v.toNat < 2 ^ 32) (.valueRange v)
    .ok (s.setReg rd (.block (.b32 (v.setWidth 32))))

/-- BLK48 (R131). -/
def execBlk48 (rd rs : Reg) (s : State) : Out :=
  complete s do
    let v ← s.readS rs
    ensure (v.toNat < 2 ^ 48) (.valueRange v)
    .ok (s.setReg rd (.block (.b48 (v.setWidth 48))))

/-- BLK64 (R131): every scalar fits. -/
def execBlk64 (rd rs : Reg) (s : State) : Out :=
  complete s do
    let v ← s.readS rs
    .ok (s.setReg rd (.block (.b64 v)))

/-- VAL (R132). -/
def execVal (rd rs : Reg) (s : State) : Out :=
  complete s do
    let b ← s.readAnyB rs
    .ok (s.setReg rd (.scalar b.value))

/-- The low (right) 32-bit half (R133). -/
def lowHalf (v : Block64) : Half := v.extractLsb' 0 32

/-- The high (left) 32-bit half (R133). -/
def highHalf (v : Block64) : Half := v.extractLsb' 32 32

/-- HALFLO (R133). -/
def execHalflo (rd rs : Reg) (s : State) : Out :=
  complete s do
    let v ← s.readB64 rs
    .ok (s.setReg rd (.block (.b32 (lowHalf v))))

/-- HALFHI (R133). -/
def execHalfhi (rd rs : Reg) (s : State) : Out :=
  complete s do
    let v ← s.readB64 rs
    .ok (s.setReg rd (.block (.b32 (highHalf v))))

/-- The two halves as one block, h * 2^32 + l (R134). -/
def joinHalves (h l : Half) : Block64 := h ++ l

/-- JOIN (R134): `rh` is read first. -/
def execJoin (rd rh rl : Reg) (s : State) : Out :=
  complete s do
    let h ← s.readB32 rh
    let l ← s.readB32 rl
    .ok (s.setReg rd (.block (.b64 (joinHalves h l))))

end Sys2Proof.Machine
end

