-- ==== Sys2Proof/Machine/Feistel.lean ====
section
/-! DEFINITION. The Feistel unit: its functions (R152 to R171) over any tables, and its commands (R150 to R175). -/

namespace Sys2Proof.Machine

/-! ## Functions -/

/-- Subkey i: the low 48 bits of key >> i (R152). -/
def subkey (key : Block64) (i : Nat) : Subkey := (key >>> i).extractLsb' 0 48

/-- generateSubkeys (R152). -/
def generateSubkeys (key : Block64) : Vector Subkey 16 := Vector.ofFn fun i => subkey key i.val

/-- initialPermutation: the identity (R154). -/
def initialPermutation (v : Block64) : Block64 := v

/-- finalPermutation: the identity (R155). -/
def finalPermutation (v : Block64) : Block64 := v

/-- expand: output bit i = input bit 32 - E_TABLE[i] (R156). -/
def expand (c : Config) (r : Half) : Subkey := bitsOf 48 fun i => r.getLsbD (32 - c.eEntry i)

/-- Bit k of group i: input bit 6i + k, as a number (R158). -/
def groupBit (x : Subkey) (i k : Nat) : Nat := (x.getLsbD (6 * i + k)).toNat

/-- The S-box row of group i: (bit0 * 2 + bit5) mod 4 (R159). -/
def sboxRow (x : Subkey) (i : Nat) : Fin 4 := Fin.ofNat 4 (groupBit x i 0 * 2 + groupBit x i 5)

/-- The S-box column of group i: bits 1..4, bit 1 the most significant, mod 16 (R159). -/
def sboxCol (x : Subkey) (i : Nat) : Fin 16 :=
  Fin.ofNat 16 (groupBit x i 1 * 8 + groupBit x i 2 * 4 + groupBit x i 3 * 2 + groupBit x i 4)

/-- substitute: output bit 4i + j = bit 3 - j of SBOX[row_i][col_i] (R160). -/
def substitute (c : Config) (x : Subkey) : Half :=
  bitsOf 32 fun p => (c.sboxEntry (sboxRow x (p.val / 4)) (sboxCol x (p.val / 4))).getLsbD (3 - p.val % 4)

/-- permuteP: output bit i = input bit 32 - P_TABLE[i] (R162). -/
def permuteP (c : Config) (x : Half) : Half := bitsOf 32 fun i => x.getLsbD (32 - c.pEntry i)

/-- The round function f (R164). -/
def roundFunction (c : Config) (r : Half) (k : Subkey) : Half := permuteP c (substitute c (expand c r ^^^ k))

/-- One round: L <- R and R <- L ^ f(R, k) (R166). -/
def feistelRound (c : Config) (h : Half × Half) (k : Subkey) : Half × Half := (h.2, h.1 ^^^ roundFunction c h.2 k)

/-- The rounds over a list of subkeys in order, with the output halves written as (R << 32) | L (R166, R176). -/
def feistel (c : Config) (keys : List Subkey) (v : Block64) : Block64 :=
  let t := initialPermutation v
  let h := keys.foldl (feistelRound c) (highHalf t, lowHalf t)
  finalPermutation (joinHalves h.2 h.1)

/-- encode: subkeys 0 to 15 (R166). -/
def encodeBlock (c : Config) (sk : Vector Subkey 16) (v : Block64) : Block64 := feistel c sk.toList v

/-- decode: subkeys 15 down to 0 (R167). -/
def decodeBlock (c : Config) (sk : Vector Subkey 16) (v : Block64) : Block64 := feistel c sk.toList.reverse v

/-- ceil(n / 8): the number of blocks of an n-byte buffer (R171). -/
def blockCount (n : Nat) : Nat := (n + 7) / 8

/-- blocks: consecutive 8-byte blocks, the final one null-padded (R171). -/
def blocksOf (buf : List Byte) : List Block64 :=
  (List.range (blockCount buf.length)).map fun j => pack64 ((buf.drop (8 * j)).take 8)

/-- The multi-block operation: each block by itself, the results in order (R171). -/
def codeBuffer (f : Block64 → Block64) (buf : List Byte) : List Byte := (blocksOf buf).flatMap fun v => unpack64 (f v)

/-! ## Commands -/

/-- SETKEY (R150): once per reset. -/
def execSetkey (rs : Reg) (s : State) : Out :=
  complete s do
    ensure (!s.keyed) .alreadyKeyed
    let k ← s.readB64 rs
    .ok (s.bindKey k (generateSubkeys k))

/-- GETSK (R151). -/
def execGetsk (rd : Reg) (k : Fin 16) (s : State) : Out :=
  complete s do
    s.requireKeyed
    .ok (s.setReg rd (.block (.b48 s.sk[k])))

/-- IP (R154). -/
def execIp (rd rs : Reg) (s : State) : Out :=
  complete s do
    let v ← s.readB64 rs
    .ok (s.setReg rd (.block (.b64 (initialPermutation v))))

/-- FP (R155). -/
def execFp (rd rs : Reg) (s : State) : Out :=
  complete s do
    let v ← s.readB64 rs
    .ok (s.setReg rd (.block (.b64 (finalPermutation v))))

/-- EXPAND (R157). -/
def execExpand (rd rs : Reg) (s : State) : Out :=
  complete s do
    let r ← s.readB32 rs
    .ok (s.setReg rd (.block (.b48 (expand s.cfg r))))

/-- SUBST (R161). -/
def execSubst (rd rs : Reg) (s : State) : Out :=
  complete s do
    let x ← s.readB48 rs
    .ok (s.setReg rd (.block (.b32 (substitute s.cfg x))))

/-- PERMP (R163). -/
def execPermp (rd rs : Reg) (s : State) : Out :=
  complete s do
    let x ← s.readB32 rs
    .ok (s.setReg rd (.block (.b32 (permuteP s.cfg x))))

/-- ROUNDF (R165): the half is read before the subkey. -/
def execRoundf (rd rr rk : Reg) (s : State) : Out :=
  complete s do
    let r ← s.readB32 rr
    let k ← s.readB48 rk
    .ok (s.setReg rd (.block (.b32 (roundFunction s.cfg r k))))

/-- ENC (R169). -/
def execEnc (rd rs : Reg) (s : State) : Out :=
  complete s do
    s.requireKeyed
    let p ← s.readB64 rs
    .ok (s.setReg rd (.block (.b64 (encodeBlock s.cfg s.sk p))))

/-- DEC (R170). -/
def execDec (rd rs : Reg) (s : State) : Out :=
  complete s do
    s.requireKeyed
    let c ← s.readB64 rs
    .ok (s.setReg rd (.block (.b64 (decodeBlock s.cfg s.sk c))))

/-- The common rule of ENCBUF and DECBUF (R173, R174): key state, operands, bounds, then all input before all output. -/
def bufferCommand (f : Block64 → Block64) (ra p : Reg) (s : State) : Check State := do
  s.requireKeyed
  let dst ← s.readS ra
  let (src, n) ← s.readPair p
  s.checkRead src n.toNat
  s.checkWrite dst (8 * blockCount n.toNat)
  .ok (s.storeBytes dst.toNat (codeBuffer f (s.readBytes src.toNat n.toNat)))

/-- ENCBUF (R173). -/
def execEncbuf (ra p : Reg) (s : State) : Out := complete s (bufferCommand (encodeBlock s.cfg s.sk) ra p s)

/-- DECBUF (R174). -/
def execDecbuf (ra p : Reg) (s : State) : Out := complete s (bufferCommand (decodeBlock s.cfg s.sk) ra p s)

end Sys2Proof.Machine
end

