-- ==== Sys2Proof/Machine/Sequencer.lean ====
section
/-! DEFINITION. The sequencer commands: NOP, HALT, LI, LIH, MOV, RDSTAT (R101 to R106). -/

namespace Sys2Proof.Machine

/-- NOP (R102). -/
def execNop (s : State) : Out := complete s (.ok s)

/-- HALT (R101): pc stays at the HALT. -/
def execHalt (s : State) : Out := .next s.halt

/-- LI (R103): the sign-extended immediate (R73). -/
def execLi (rd : Reg) (imm : BitVec 20) (s : State) : Out :=
  complete s (.ok (s.setReg rd (.scalar (imm.signExtend 64))))

/-- LIH (R104): shift left by 20 and insert the immediate, modulo 2^64. -/
def execLih (rd : Reg) (imm : BitVec 20) (s : State) : Out :=
  complete s do
    let v ← s.readS rd
    .ok (s.setReg rd (.scalar (v <<< 20 ||| imm.setWidth 64)))

/-- MOV (R106): tag and value together; only an unwritten source faults. -/
def execMov (rd rs : Reg) (s : State) : Out :=
  complete s (match s.reg rs with
    | .unwritten => .error (.unwritten rs)
    | c => .ok (s.setReg rd c))

/-- RDSTAT (R105): STATUS, where a running program always reads RUNSTATE as RUNNING (R31; log 16). -/
def execRdstat (rd : Reg) (s : State) : Out :=
  complete s (.ok (s.setReg rd (.scalar ((statusWord .running s.keyed).setWidth 64))))

end Sys2Proof.Machine
end

