-- ==== Sys2Proof/Machine/Dispatch.lean ====
section
/-! DEFINITION. One arm per command: each calls the command's own meaning. -/

namespace Sys2Proof.Machine

def exec (i : Instr) (s : State) : Host.Outcome State Fault Refusal :=
  match i with
  | .nop => Sys2Proof.Machine.execNop s
  | .halt => Sys2Proof.Machine.execHalt s
  | .li rd imm => Sys2Proof.Machine.execLi rd imm s
  | .lih rd imm => Sys2Proof.Machine.execLih rd imm s
  | .mov rd rs => Sys2Proof.Machine.execMov rd rs s
  | .rdstat rd => Sys2Proof.Machine.execRdstat rd s
  | .pack64 rd rs => Sys2Proof.Machine.execPack64 rd rs s
  | .unpack64 ra rs => Sys2Proof.Machine.execUnpack64 ra rs s
  | .packz rd p => Sys2Proof.Machine.execPackz rd p s
  | .bitat rd rb ri => Sys2Proof.Machine.execBitat rd rb ri s
  | .xor rd ra rb => Sys2Proof.Machine.execXor rd ra rb s
  | .blk32 rd rs => Sys2Proof.Machine.execBlk32 rd rs s
  | .blk48 rd rs => Sys2Proof.Machine.execBlk48 rd rs s
  | .blk64 rd rs => Sys2Proof.Machine.execBlk64 rd rs s
  | .val rd rs => Sys2Proof.Machine.execVal rd rs s
  | .halflo rd rs => Sys2Proof.Machine.execHalflo rd rs s
  | .halfhi rd rs => Sys2Proof.Machine.execHalfhi rd rs s
  | .join rd rh rl => Sys2Proof.Machine.execJoin rd rh rl s
  | .setkey rs => Sys2Proof.Machine.execSetkey rs s
  | .getsk rd k => Sys2Proof.Machine.execGetsk rd k s
  | .ip rd rs => Sys2Proof.Machine.execIp rd rs s
  | .fp rd rs => Sys2Proof.Machine.execFp rd rs s
  | .expand rd rs => Sys2Proof.Machine.execExpand rd rs s
  | .subst rd rs => Sys2Proof.Machine.execSubst rd rs s
  | .permp rd rs => Sys2Proof.Machine.execPermp rd rs s
  | .roundf rd rr rk => Sys2Proof.Machine.execRoundf rd rr rk s
  | .enc rd rs => Sys2Proof.Machine.execEnc rd rs s
  | .dec rd rs => Sys2Proof.Machine.execDec rd rs s
  | .encbuf ra p => Sys2Proof.Machine.execEncbuf ra p s
  | .decbuf ra p => Sys2Proof.Machine.execDecbuf ra p s
  | .xorrep ra p q => Sys2Proof.Machine.execXorrep ra p q s
  | .caesar ra p rs => Sys2Proof.Machine.execCaesar ra p rs s
  | .plaus rd p => Sys2Proof.Machine.execPlaus rd p s
  | .bfx1 rd p q => Sys2Proof.Machine.execBfx1 rd p q s
  | .bfx2 rd p q => Sys2Proof.Machine.execBfx2 rd p q s
  | .bfxd rd p q t => Sys2Proof.Machine.execBfxd rd p q t s
  | .ckey rd p => Sys2Proof.Machine.execCkey rd p s

end Sys2Proof.Machine
end

