-- ==== Sys2Proof/Machine/Fetch.lean ====
section
/-! DEFINITION. Fetching and decoding the command at pc (R100, R236, R237), and placing a command there. -/

namespace Sys2Proof.Machine

/-- Whether pc lies within CMDMEM (R24, R236). -/
def State.pcInRange (s : State) : Bool := !(s.cfg.cmdDepth ≤ s.pc.toNat)

/-- Fetch and decode (R100): FETCH_BOUNDS past the end of CMDMEM, else ILLEGAL_COMMAND if the word is illegal. -/
def State.fetch (s : State) : Except Raise Instr :=
  if s.pcInRange then
    match decode (s.cmdWord s.pc.toNat) with
    | .ok i => .ok i
    | .error d => .error (.illegal d (s.cmdWord s.pc.toNat))
  else .error (.fetchBounds s.pc)

/-- `s` about to run the word `w`: pc in range, the word at CMDMEM[pc], RUNSTATE RUNNING (log 9). -/
def State.loadCommand (s : State) (w : Command) : State :=
  let pc := if s.pcInRange then s.pc else 0
  { s.storeCmd pc.toNat w with pc := pc, runState := .running }

end Sys2Proof.Machine
end

