-- ==== Sys2Proof/Machine/Step.lean ====
section
/-! DEFINITION. One engine step (R100), and how a word is placed where the next step fetches it. -/

namespace Sys2Proof.Machine

/-- One engine step (R100): fetch, decode, execute. The engine takes no step unless RUNSTATE is RUNNING (log 7). -/
def step (s : State) : Host.Outcome State Fault Refusal :=
  match s.runState with
  | .running =>
    match s.fetch with
    | .ok i => exec i s
    | .error r => .next (s.takeFault r)
  | r => .fault (.engineStopped r)

/-- `s` with the word placed where the next step fetches it, as the host would load it and start the run: the word at
CMDMEM[pc], RUNSTATE RUNNING, and pc 0 if it lay past the end of CMDMEM (R262; log 9). -/
def State.withFetchWord (s : State) (nbits w : Nat) : State :=
  s.loadCommand (BitVec.ofNat 32 (w % 2 ^ nbits))

end Sys2Proof.Machine
end

