-- ==== Sys2Proof/Machine/Assembly.lean ====
section
/-! DEFINITION. The assembler's view of the commands: how a command is written (R90) and what the pseudo-instructions
expand to (R91). -/

namespace Sys2Proof.Machine

/-- A register in assembly: r0 to r15 (R90). -/
def regText (r : Reg) : String := "r" ++ toString r.val

/-- A pair in assembly: rN:rM with M = N + 1 (R90). -/
def pairText (r : Reg) : String := regText r ++ ":" ++ regText (Reg.second r)

/-- A line of assembly: mnemonic, then operands in field order (R90). -/
def asmLine (mnemonic : String) (operands : List String) : String :=
  if operands.isEmpty then mnemonic else mnemonic ++ " " ++ ", ".intercalate operands

/-- A command as a line of assembly (R90). -/
def assembly : Instr → String
  | .nop => asmLine "NOP" []
  | .halt => asmLine "HALT" []
  | .li rd imm => asmLine "LI" [regText rd, toString imm.toInt]
  | .lih rd imm => asmLine "LIH" [regText rd, toString imm.toNat]
  | .mov rd rs => asmLine "MOV" [regText rd, regText rs]
  | .rdstat rd => asmLine "RDSTAT" [regText rd]
  | .pack64 rd rs => asmLine "PACK64" [regText rd, regText rs]
  | .unpack64 ra rs => asmLine "UNPACK64" [regText ra, regText rs]
  | .packz rd p => asmLine "PACKZ" [regText rd, pairText p]
  | .bitat rd rb ri => asmLine "BITAT" [regText rd, regText rb, regText ri]
  | .xor rd ra rb => asmLine "XOR" [regText rd, regText ra, regText rb]
  | .blk32 rd rs => asmLine "BLK32" [regText rd, regText rs]
  | .blk48 rd rs => asmLine "BLK48" [regText rd, regText rs]
  | .blk64 rd rs => asmLine "BLK64" [regText rd, regText rs]
  | .val rd rs => asmLine "VAL" [regText rd, regText rs]
  | .halflo rd rs => asmLine "HALFLO" [regText rd, regText rs]
  | .halfhi rd rs => asmLine "HALFHI" [regText rd, regText rs]
  | .join rd rh rl => asmLine "JOIN" [regText rd, regText rh, regText rl]
  | .setkey rs => asmLine "SETKEY" [regText rs]
  | .getsk rd k => asmLine "GETSK" [regText rd, toString k.val]
  | .ip rd rs => asmLine "IP" [regText rd, regText rs]
  | .fp rd rs => asmLine "FP" [regText rd, regText rs]
  | .expand rd rs => asmLine "EXPAND" [regText rd, regText rs]
  | .subst rd rs => asmLine "SUBST" [regText rd, regText rs]
  | .permp rd rs => asmLine "PERMP" [regText rd, regText rs]
  | .roundf rd rr rk => asmLine "ROUNDF" [regText rd, regText rr, regText rk]
  | .enc rd rs => asmLine "ENC" [regText rd, regText rs]
  | .dec rd rs => asmLine "DEC" [regText rd, regText rs]
  | .encbuf ra p => asmLine "ENCBUF" [regText ra, pairText p]
  | .decbuf ra p => asmLine "DECBUF" [regText ra, pairText p]
  | .xorrep ra p q => asmLine "XORREP" [regText ra, pairText p, pairText q]
  | .caesar ra p rs => asmLine "CAESAR" [regText ra, pairText p, regText rs]
  | .plaus rd p => asmLine "PLAUS" [regText rd, pairText p]
  | .bfx1 rd p q => asmLine "BFX1" [regText rd, pairText p, pairText q]
  | .bfx2 rd p q => asmLine "BFX2" [regText rd, pairText p, pairText q]
  | .bfxd rd p q t => asmLine "BFXD" [regText rd, pairText p, pairText q, pairText t]
  | .ckey rd p => asmLine "CKEY" [regText rd, pairText p]

/-- LI64 (R91): one LI where the constant fits the signed immediate, else LI and three LIH. -/
def li64 (rd : Reg) (v : Scalar) : List Instr :=
  if -(2 ^ 19) ≤ v.toInt ∧ v.toInt < 2 ^ 19 then [.li rd (v.extractLsb' 0 20)]
  else [.li rd ((v.extractLsb' 60 4).setWidth 20), .lih rd (v.extractLsb' 40 20), .lih rd (v.extractLsb' 20 20),
    .lih rd (v.extractLsb' 0 20)]

/-- LB32 (R91); none for a constant the assembler rejects. -/
def lb32? (rd : Reg) (v : Scalar) : Option (List Instr) :=
  if v.toNat < 2 ^ 32 then some (li64 rd v ++ [.blk32 rd rd]) else none

/-- LB48 (R91); none for a constant the assembler rejects. -/
def lb48? (rd : Reg) (v : Scalar) : Option (List Instr) :=
  if v.toNat < 2 ^ 48 then some (li64 rd v ++ [.blk48 rd rd]) else none

/-- LB64 (R91). -/
def lb64 (rd : Reg) (v : Scalar) : List Instr := li64 rd v ++ [.blk64 rd rd]

/-- The commands of a list, executed one after another from a state (no fetch); it stops where one gives no next state. -/
def execAll : List Instr → State → Out
  | [], s => .next s
  | i :: is, s =>
    match exec i s with
    | .next t => execAll is t
    | .fault r => .fault r
    | .refused r => .refused r

end Sys2Proof.Machine
end

