-- ==== Sys2Proof/Machine/Host.lean ====
section
/-! DEFINITION. The host, the machine's other agent: the operations of R245 to R247 and R260, and an event of the whole
machine, which is one engine step or one host operation (log 10). -/

namespace Sys2Proof.Machine

/-- The tags of R21, as the host reads and writes them. -/
inductive Tag where
  /-- unwritten -/
  | u
  /-- scalar -/
  | s
  /-- 32-bit block -/
  | b32
  /-- 48-bit block -/
  | b48
  /-- 64-bit block -/
  | b64
deriving DecidableEq, Repr

/-- The tag of a cell (R21). -/
def Cell.tag : Cell → Tag
  | .unwritten => .u
  | .scalar _ => .s
  | .block (.b32 _) => .b32
  | .block (.b48 _) => .b48
  | .block (.b64 _) => .b64

/-- The value of a cell, zero-extended; 0 for tag U (R22). -/
def Cell.value : Cell → BitVec 64
  | .unwritten => 0
  | .scalar v => v
  | .block b => b.value

/-- How many bits a value under a tag may have (R22). -/
def Tag.width : Tag → Nat
  | .u => 0
  | .s => 64
  | .b32 => 32
  | .b48 => 48
  | .b64 => 64

/-- The cell HOST_WRITE_REG writes; none for tag U or a value that does not fit the tag (R245). -/
def Cell.ofHost? (t : Tag) (v : Nat) : Option Cell :=
  if v < 2 ^ t.width then
    match t with
    | .u => none
    | .s => some (.scalar (BitVec.ofNat 64 v))
    | .b32 => some (.block (.b32 (BitVec.ofNat 32 v)))
    | .b48 => some (.block (.b48 (BitVec.ofNat 48 v)))
    | .b64 => some (.block (.b64 (BitVec.ofNat 64 v)))
  else none

/-- HOST_RESET_POINT (R261): what becomes of the command in progress. -/
inductive ResetPoint where
  /-- it completes with all its writes before the reset -/
  | completeFirst
  /-- it has not started and writes nothing -/
  | beforeStart
deriving DecidableEq, Repr

/-- The host operations of R245. Numbers the host gives are unbounded (log 18). -/
inductive HostOp where
  /-- HOST_READ_STATUS() -/
  | readStatus
  /-- HOST_READ_CSR(no) -/
  | readCsr (no : Nat)
  /-- HOST_WRITE_START_PC(v) -/
  | writeStartPc (v : BitVec 32)
  /-- HOST_READ_REG(n) -/
  | readReg (n : Nat)
  /-- HOST_WRITE_REG(n, tag, v) -/
  | writeReg (n : Nat) (t : Tag) (v : Nat)
  /-- HOST_READ_DMEM(a, n) -/
  | readDmem (a n : Nat)
  /-- HOST_WRITE_DMEM(a, bytes) -/
  | writeDmem (a : Nat) (bytes : List Byte)
  /-- HOST_READ_CMD(i) -/
  | readCmd (i : Nat)
  /-- HOST_WRITE_CMD(i, w) -/
  | writeCmd (i : Nat) (w : Command)
  /-- HOST_START() -/
  | start
  /-- HOST_RESET(); the point is not the host's choice but a free one (R261; log 11) -/
  | reset (point : ResetPoint)
deriving DecidableEq, Repr

/-- What a host operation returns. How it travels over a bus is HOST_BUS_MAP, which is open (log 12). -/
inductive HostReply where
  /-- refused: no effect on any state, no data -/
  | refused
  /-- carried out, nothing to return -/
  | done
  /-- a STATUS word -/
  | status (w : BitVec 32)
  /-- a register of R32, zero-extended -/
  | csr (v : BitVec 64)
  /-- the tag and value of a general register -/
  | cell (t : Tag) (v : BitVec 64)
  /-- bytes of DMEM -/
  | bytes (bs : List Byte)
  /-- a word of CMDMEM -/
  | command (w : Command)
deriving DecidableEq, Repr

/-- Register number `no` of R32, zero-extended; none for a number above 6. -/
def State.csr? (s : State) : Nat → Option (BitVec 64)
  | 0 => some (s.status.setWidth 64)
  | 1 => some (s.startPc.setWidth 64)
  | 2 => some (s.pc.setWidth 64)
  | 3 => some (s.fcause.setWidth 64)
  | 4 => some (s.fdetail.setWidth 64)
  | 5 => some (s.fpc.setWidth 64)
  | 6 => some s.finfo
  | _ => none

/-- START_PC <- v (R245). -/
def State.setStartPc (s : State) (v : BitVec 32) : State := { s with startPc := v }

/-- pc <- START_PC, RUNSTATE <- RUNNING (R246). -/
def State.startRun (s : State) : State := { s with pc := s.startPc, runState := .running }

/-- What the engine leaves if it takes a step now: the next state, or the same state where it takes none. -/
def State.engineStep (s : State) : State :=
  match step s with
  | .next t => t
  | .fault _ => s
  | .refused _ => s

/-- HOST_RESET (R260): while RUNNING, the command in progress completes first or never starts (R261). -/
def State.hostReset (s : State) : ResetPoint → State
  | .completeFirst => s.engineStep.resetAgain
  | .beforeStart => s.resetAgain

/-- An operation allowed in IDLE, HALTED and FAULTED only (R245, R247). -/
def State.whenStopped (s : State) (r : HostReply × State) : HostReply × State :=
  if s.runState = .running then (.refused, s) else r

/-- An operation that is refused unless its arguments are legal (R245). -/
def State.refuseUnless (s : State) (legal : Bool) (r : HostReply × State) : HostReply × State :=
  if legal then r else (.refused, s)

/-- One host operation: the reply, and the state after it (R245, R246). -/
def State.host (s : State) : HostOp → HostReply × State
  | .readStatus => (.status s.status, s)
  | .readCsr no => s.whenStopped (match s.csr? no with
      | some v => (.csr v, s)
      | none => (.refused, s))
  | .writeStartPc v => s.whenStopped (.done, s.setStartPc v)
  | .readReg n => s.whenStopped (s.refuseUnless (n < 16)
      (.cell (s.reg (Fin.ofNat 16 n)).tag (s.reg (Fin.ofNat 16 n)).value, s))
  | .writeReg n t v => s.whenStopped (s.refuseUnless (n < 16) (match Cell.ofHost? t v with
      | some c => (.done, s.setReg (Fin.ofNat 16 n) c)
      | none => (.refused, s)))
  | .readDmem a n => s.whenStopped (s.refuseUnless (s.inBounds a n) (.bytes (s.readBytes a n), s))
  | .writeDmem a bytes => s.whenStopped (s.refuseUnless (s.inBounds a bytes.length) (.done, s.storeBytes a bytes))
  | .readCmd i => s.whenStopped (s.refuseUnless (i < s.cfg.cmdDepth) (.command (s.cmdWord i), s))
  | .writeCmd i w => s.whenStopped (s.refuseUnless (i < s.cfg.cmdDepth) (.done, s.storeCmd i w))
  | .start => match s.runState with
      | .idle => (.done, s.startRun)
      | .halted => (.done, s.startRun)
      | .running => (.refused, s)
      | .faulted => (.refused, s)
  | .reset point => (.done, s.hostReset point)

/-- What happens next in the whole machine: an engine step or a host operation, each between two others (R247). -/
inductive Event where
  /-- the engine steps -/
  | engine
  /-- the host acts -/
  | host (op : HostOp)
deriving DecidableEq, Repr

/-- The state after an event. -/
def State.event (s : State) : Event → State
  | .engine => s.engineStep
  | .host op => (s.host op).2

/-- The state after a sequence of events: every interleaving of the two agents is one. -/
def State.events (s : State) (es : List Event) : State := es.foldl State.event s

end Sys2Proof.Machine
end

