-- ==== Sys2Proof/Safety.lean ====
section
/-! DEFINITION. The terms claims are stated in: what a command may change (frames), what a fault leaves, which faults a
command can raise (R239), and the invariant of a machine that has been reset at least once. -/

namespace Sys2Proof.Machine

/-! ## Frames -/

/-- The state outside the registers, the command index and DMEM is the same. -/
structure SameControl (s t : State) : Prop where
  cfg : t.cfg = s.cfg
  powerUp : t.powerUp = s.powerUp
  keyed : t.keyed = s.keyed
  key : t.key = s.key
  sk : t.sk = s.sk
  runState : t.runState = s.runState
  fcause : t.fcause = s.fcause
  fdetail : t.fdetail = s.fdetail
  fpc : t.fpc = s.fpc
  finfo : t.finfo = s.finfo
  startPc : t.startPc = s.startPc
  cmdMem : t.cmdMem = s.cmdMem

/-- A command completed by writing one register: `rd` holds `c`, every other register, every byte of DMEM and all control
state are unchanged, and pc advanced. -/
structure WritesReg (s t : State) (rd : Reg) (c : Cell) : Prop where
  written : t.reg rd = c
  others : ∀ n, n ≠ rd → t.reg n = s.reg n
  memory : ∀ a, t.byte a = s.byte a
  pc : t.pc = s.pc + 1
  control : SameControl s t

/-- A command completed by storing `bs` from address `addr`: every byte outside the stored region, every register and all
control state are unchanged, and pc advanced. -/
structure Stores (s t : State) (addr : Nat) (bs : List Byte) : Prop where
  stored : ∀ k, k < bs.length → t.byte (addr + k) = bs.getD k 0
  outside : ∀ a, a < addr ∨ addr + bs.length ≤ a → t.byte a = s.byte a
  registers : ∀ n, t.reg n = s.reg n
  pc : t.pc = s.pc + 1
  control : SameControl s t

/-- A command completed by storing `bs` from address `addr` and writing `c` into `rd`; nothing else changed. -/
structure StoresAndWrites (s t : State) (addr : Nat) (bs : List Byte) (rd : Reg) (c : Cell) : Prop where
  stored : ∀ k, k < bs.length → t.byte (addr + k) = bs.getD k 0
  outside : ∀ a, a < addr ∨ addr + bs.length ≤ a → t.byte a = s.byte a
  written : t.reg rd = c
  others : ∀ n, n ≠ rd → t.reg n = s.reg n
  pc : t.pc = s.pc + 1
  control : SameControl s t

/-- Fault entry (R240) from `s` to `t`: the fault registers tell cause, detail, pc and information, RUNSTATE is FAULTED,
and nothing else changed (R231). -/
structure FaultEntered (s t : State) (r : Raise) : Prop where
  fcause : t.fcause = r.cause
  fdetail : t.fdetail = r.detail
  fpc : t.fpc = s.pc
  finfo : t.finfo = r.info
  runState : t.runState = .faulted
  pc : t.pc = s.pc
  registers : ∀ n, t.reg n = s.reg n
  memory : ∀ a, t.byte a = s.byte a
  keyed : t.keyed = s.keyed
  key : t.key = s.key
  sk : t.sk = s.sk
  startPc : t.startPc = s.startPc
  cmdMem : t.cmdMem = s.cmdMem
  cfg : t.cfg = s.cfg
  powerUp : t.powerUp = s.powerUp

/-- Executing `i` in `s` answers a next state, of which `P` holds. -/
def Gives (i : Instr) (s : State) (P : State → Prop) : Prop := ∃ t, exec i s = .next t ∧ P t

/-- Executing `i` in `s` enters the fault `r`. -/
def FaultsWith (i : Instr) (s : State) (r : Raise) : Prop := Gives i s fun t => FaultEntered s t r

/-! ## Which commands do what -/

/-- The commands that can store to DMEM (R50). -/
def storesMemory : Instr → Bool
  | .unpack64 _ _ => true
  | .encbuf _ _ => true
  | .decbuf _ _ => true
  | .xorrep _ _ _ => true
  | .caesar _ _ _ => true
  | .bfx1 _ _ _ => true
  | .bfx2 _ _ _ => true
  | .bfxd _ _ _ _ => true
  | _ => false

/-- The registers a command reads, in order, as the column UR / IA(TAG_MISMATCH) of R239 lists them. -/
def operandRegs : Instr → List Reg
  | .nop => []
  | .halt => []
  | .li _ _ => []
  | .rdstat _ => []
  | .getsk _ _ => []
  | .lih rd _ => [rd]
  | .mov _ rs => [rs]
  | .pack64 _ rs => [rs]
  | .unpack64 ra rs => [ra, rs]
  | .packz _ p => [p, Reg.second p]
  | .bitat _ rb ri => [rb, ri]
  | .xor _ ra rb => [ra, rb]
  | .join _ rh rl => [rh, rl]
  | .roundf _ rr rk => [rr, rk]
  | .blk32 _ rs => [rs]
  | .blk48 _ rs => [rs]
  | .blk64 _ rs => [rs]
  | .val _ rs => [rs]
  | .halflo _ rs => [rs]
  | .halfhi _ rs => [rs]
  | .ip _ rs => [rs]
  | .fp _ rs => [rs]
  | .expand _ rs => [rs]
  | .subst _ rs => [rs]
  | .permp _ rs => [rs]
  | .setkey rs => [rs]
  | .enc _ rs => [rs]
  | .dec _ rs => [rs]
  | .encbuf ra p => [ra, p, Reg.second p]
  | .decbuf ra p => [ra, p, Reg.second p]
  | .xorrep ra p q => [ra, p, Reg.second p, q, Reg.second q]
  | .caesar ra p rs => [ra, p, Reg.second p, rs]
  | .plaus _ p => [p, Reg.second p]
  | .ckey _ p => [p, Reg.second p]
  | .bfx1 _ p q => [p, Reg.second p, q, Reg.second q]
  | .bfx2 _ p q => [p, Reg.second p, q, Reg.second q]
  | .bfxd _ p q t => [p, Reg.second p, q, Reg.second q, t, Reg.second t]

/-- The raise table of R239: whether executing a command (after its fetch and decode) can raise a fault. -/
def mayRaise (i : Instr) : Raise → Bool
  | .unwritten n => n ∈ operandRegs i
  | .tagMismatch n => n ∈ operandRegs i && (match i with | .mov _ _ => false | _ => true)
  | .notKeyed => match i with
    | .getsk _ _ => true
    | .enc _ _ => true
    | .dec _ _ => true
    | .encbuf _ _ => true
    | .decbuf _ _ => true
    | _ => false
  | .alreadyKeyed => match i with | .setkey _ => true | _ => false
  | .length _ => match i with | .packz _ _ => true | _ => false
  | .bitIndex _ => match i with | .bitat _ _ _ => true | _ => false
  | .valueRange _ => match i with
    | .blk32 _ _ => true
    | .blk48 _ _ => true
    | _ => false
  | .emptyKey _ => match i with
    | .xorrep _ _ _ => true
    | .bfxd _ _ _ _ => true
    | _ => false
  | .capacity _ => match i with
    | .bfx1 _ _ _ => true
    | .bfx2 _ _ _ => true
    | .bfxd _ _ _ _ => true
    | _ => false
  | .memRead _ => match i with
    | .pack64 _ _ => true
    | .packz _ _ => true
    | .encbuf _ _ => true
    | .decbuf _ _ => true
    | .xorrep _ _ _ => true
    | .caesar _ _ _ => true
    | .plaus _ _ => true
    | .ckey _ _ => true
    | .bfx1 _ _ _ => true
    | .bfx2 _ _ _ => true
    | .bfxd _ _ _ _ => true
    | _ => false
  | .memWrite _ => storesMemory i
  | .illegal _ _ => false
  | .fetchBounds _ => false

/-! ## The operand fields of an opcode -/

/-- What decode tests of a word with one opcode (R80 to R83). -/
structure OpcodeFields where
  /-- the opcode byte -/
  op : BitVec 8
  /-- the bits of the fields no command of this opcode uses (R82) -/
  unused : Command
  /-- the greatest legal IMM8 where the opcode uses the field (R80, item 3); 255 where IMM8 is part of IMM20 -/
  maxImm8 : Nat
  /-- the low bits of the pair fields (R83) -/
  pairBits : Command
deriving DecidableEq, Repr

/-- The 34 assigned opcodes (R75, R76) with their must-be-zero fields, selector limits and pair fields. -/
def opcodeFields : List OpcodeFields :=
  [⟨0x01, 0xFFFFFF00, 0, 0⟩, ⟨0x02, 0xFFFFFF00, 0, 0⟩, ⟨0x03, 0, 255, 0⟩, ⟨0x04, 0, 255, 0⟩,
    ⟨0x05, 0xFFFF0000, 0, 0⟩, ⟨0x06, 0xFFFFF000, 0, 0⟩,
    ⟨0x10, 0xFFFF0000, 0, 0⟩, ⟨0x11, 0xFFFF0000, 0, 0⟩, ⟨0x12, 0xFFFF0000, 0, 0x00001000⟩,
    ⟨0x13, 0xFFF00000, 0, 0⟩, ⟨0x14, 0xFFF00000, 0, 0⟩, ⟨0x15, 0x00FF0000, 2, 0⟩, ⟨0x16, 0xFFFF0000, 0, 0⟩,
    ⟨0x17, 0x00FF0000, 1, 0⟩, ⟨0x18, 0xFFF00000, 0, 0⟩,
    ⟨0x20, 0xFFFF0F00, 0, 0⟩, ⟨0x21, 0x00FFF000, 15, 0⟩, ⟨0x22, 0xFFFF0000, 0, 0⟩, ⟨0x23, 0xFFFF0000, 0, 0⟩,
    ⟨0x24, 0xFFFF0000, 0, 0⟩, ⟨0x25, 0xFFFF0000, 0, 0⟩, ⟨0x26, 0xFFFF0000, 0, 0⟩, ⟨0x27, 0xFFF00000, 0, 0⟩,
    ⟨0x28, 0xFFFF0000, 0, 0⟩, ⟨0x29, 0xFFFF0000, 0, 0⟩, ⟨0x2A, 0xFFFF0000, 0, 0x00001000⟩,
    ⟨0x2B, 0xFFFF0000, 0, 0x00001000⟩,
    ⟨0x30, 0xFFF00000, 0, 0x00011000⟩, ⟨0x31, 0xFFF00000, 0, 0x00001000⟩, ⟨0x32, 0xFFFF0000, 0, 0x00001000⟩,
    ⟨0x33, 0xFFF00000, 0, 0x00011000⟩, ⟨0x34, 0xFFF00000, 0, 0x00011000⟩, ⟨0x35, 0xFF000000, 0, 0x00111000⟩,
    ⟨0x36, 0xFFFF0000, 0, 0x00001000⟩]

/-- The detail of ILLEGAL_COMMAND that R80 gives a word: the first of its four conditions that applies, if any. -/
def illegalDetail? (w : Command) : Option IllegalDetail :=
  match opcodeFields.find? (fun f => f.op == fieldOp w) with
  | none => some .undefinedOpcode
  | some f =>
    if w &&& f.unused ≠ 0 then some .reservedBits
    else if f.maxImm8 < (fieldImm8 w).toNat then some .immRange
    else if w &&& f.pairBits ≠ 0 then some .oddPair
    else none

/-! ## Dictionaries -/

/-- DMEM holds the dictionary entries `keys` back to back from address `p`, each a length byte and that many key bytes,
none empty, all in bounds (R208). -/
def DictLaid (s : State) : List (List Byte) → Nat → Prop
  | [], _ => True
  | k :: ks, p => (s.byte p).toNat = k.length ∧ k ≠ [] ∧ p + 1 + k.length ≤ s.cfg.dmemSize ∧
      s.readBytes (p + 1) k.length = k ∧ DictLaid s ks (p + 1 + k.length)

/-! ## The invariant -/

/-- The (cause, detail) pairs of R230 that a fault can leave. -/
def faultCodes : List (BitVec 8 × BitVec 8) :=
  [(1, 1), (1, 2), (1, 3), (1, 4), (1, 5), (1, 6), (2, 1), (2, 2), (3, 1), (3, 2), (3, 3), (3, 4), (4, 1), (4, 2),
    (5, 0), (6, 0)]

/-- What holds of the engine from reset on, whatever the engine and the host do. -/
structure State.Inv (s : State) : Prop where
  /-- DMEM keeps its canonical form -/
  dmemWf : Memory.wf (w := 8) s.dmem
  /-- CMDMEM keeps its canonical form -/
  cmdMemWf : Memory.wf s.cmdMem
  /-- DMEM has no byte at or above DMEM_SIZE (R50) -/
  dmemBound : ∀ e ∈ s.dmem, e.1 < s.cfg.dmemSize
  /-- CMDMEM has no word at or above CMD_DEPTH (R51) -/
  cmdMemBound : ∀ e ∈ s.cmdMem, e.1 < s.cfg.cmdDepth
  /-- while Keyed, the subkeys are the schedule of the key (R27, R152) -/
  subkeys : s.keyed = true → s.sk = generateSubkeys s.key
  /-- while FAULTED, the fault registers hold a fault of R230 and FPC equals pc (R240) -/
  faulted : s.runState = .faulted → (s.fcause, s.fdetail) ∈ faultCodes ∧ s.fpc = s.pc
  /-- otherwise the fault registers are clear (R29) -/
  clear : s.runState ≠ .faulted → s.fcause = 0 ∧ s.fdetail = 0 ∧ s.fpc = 0 ∧ s.finfo = 0

/-! ## Runs -/

/-- An event that is not a HOST_RESET. -/
def Event.noReset : Event → Bool
  | .engine => true
  | .host (.reset _) => false
  | .host _ => true

/-- The state after k engine steps with no host operation between them. -/
def State.runEngine (s : State) (k : Nat) : State := s.events (List.replicate k .engine)

end Sys2Proof.Machine
end

