-- ==== Sys2Proof/Certificates/Slice0/Obligations.lean ====
section
/-! DEFINITION. The statements for the provers. Each docstring names the rules of spec/ it rests on; `log n` is a row of
the assumption log. Hypotheses on operands read `s.reg n = .scalar v` (R[n] holds S(v)) or `s.reg n = .block (.b64 v)`
(R[n] holds B64(v)); a pair p is R[p] and R[Reg.second p]. -/

open Sys2Proof Sys2Proof.Machine

/-! ## Encoding -/

/-- R70 to R76: decode of the word of a well-formed command is that command, for every operand. -/
def Obligations.DecodeOfEncode : Prop := ∀ i : Instr, i.wellFormed = true → decode (encode i) = .ok i

/-- R70 to R76, R83: a word that decodes is the word of the command it decodes to, and that command is well formed. -/
def Obligations.EncodeOfDecode : Prop := ∀ (w : Command) (i : Instr), decode w = .ok i → encode i = w ∧ i.wellFormed = true

/-- R76: a word decodes exactly when it fits a row of the opcode map; then it decodes to a command of that row, whose
fields give the word back; no two rows fit one word. -/
def Obligations.OpcodeMapDecides : Prop :=
  opcodeMap.length = 37 ∧
  opcodeMap.Pairwise (fun r q => ∀ w : Command, ¬ (r.fits w = true ∧ q.fits w = true)) ∧
  (∀ w : Command, (∃ r ∈ opcodeMap, r.fits w = true) ↔ ∃ i, decode w = .ok i) ∧
  (∀ (w : Command) (i : Instr), decode w = .ok i → opcodeRow i ∈ opcodeMap ∧ (opcodeRow i).fits w = true ∧ encode i = w)

/-- R80 to R84: decode rejects a word exactly with the first of R80's conditions that applies, and accepts the others. -/
def Obligations.IllegalDetailInOrder : Prop :=
  ∀ w : Command, (∀ d, decode w = .error d ↔ illegalDetail? w = some d) ∧
    ((∃ i, decode w = .ok i) ↔ illegalDetail? w = none)

/-- Words the spec writes out in its command rules decode to the commands they stand for (R103, R121, R134, R151, R192,
R196, R217), and two illegal ones do not (R81, R83). -/
def Obligations.SpecWordsDecode : Prop :=
  decode 0x00100103 = .ok (.li 1 0x100) ∧ decode 0x00001210 = .ok (.pack64 2 1) ∧
  decode 0x00034518 = .ok (.join 5 4 3) ∧ decode 0x0F000621 = .ok (.getsk 6 15) ∧
  decode 0x00042130 = .ok (.xorrep 1 2 4) ∧ decode 0x00042131 = .ok (.caesar 1 2 4) ∧
  decode 0x00642135 = .ok (.bfxd 1 2 4 6) ∧
  decode 0x00000000 = .error .undefinedOpcode ∧ decode 0x00003112 = .error .oddPair

/-! ## The step -/

/-- R100: in a RUNNING engine, a command word at pc that decodes is executed: the step is exec of that command. -/
def Obligations.StepRunsDecodedCommand : Prop :=
  ∀ (s : State) (i : Instr), s.runState = .running → s.pc.toNat < s.cfg.cmdDepth →
    decode (s.cmdWord s.pc.toNat) = .ok i → step s = exec i s

/-- R236, R237: a fetch at or past CMD_DEPTH enters FETCH_BOUNDS; a word that does not decode enters ILLEGAL_COMMAND with
its detail and the word; nothing else is written. -/
def Obligations.FetchAndDecodeFaults : Prop :=
  ∀ s : State, s.runState = .running →
    (s.cfg.cmdDepth ≤ s.pc.toNat → ∃ t, step s = .next t ∧ FaultEntered s t (.fetchBounds s.pc)) ∧
    (∀ d, s.pc.toNat < s.cfg.cmdDepth → decode (s.cmdWord s.pc.toNat) = .error d →
      ∃ t, step s = .next t ∧ FaultEntered s t (.illegal d (s.cmdWord s.pc.toNat)))

/-- R100: a RUNNING engine always has a next state, and no other engine takes a step. That `step` answers
`engineStopped` for those is the model's choice (log 7). -/
def Obligations.EngineStepsExactlyWhileRunning : Prop :=
  ∀ s : State, (s.runState = .running → ∃ t, step s = .next t) ∧
    (s.runState ≠ .running → step s = .fault (.engineStopped s.runState))

/-- R266: every run ends: after at most one step for each command left in CMDMEM and one more, RUNSTATE is not RUNNING. -/
def Obligations.EveryRunEnds : Prop :=
  ∀ s : State, s.runState = .running →
    ∃ k, k ≤ s.cfg.cmdDepth - s.pc.toNat + 1 ∧ (s.runEngine k).runState ≠ .running

/-! ## Invariants and rules of the whole machine -/

/-- Every engine step keeps the invariant (R27, R29, R50, R51, R230, R240). Its clauses on the canonical form of the
memories are the model's own (log 3). -/
def Obligations.StepKeepsInvariant : Prop := ∀ s t : State, s.Inv → step s = .next t → t.Inv

/-- The reset state has the invariant (R36); its clauses on the canonical form are the model's own (log 3). -/
def Obligations.ResetHasInvariant : Prop := State.reset.Inv

/-- Every host operation, carried out or refused, keeps the invariant (R245, R246, R260); its clauses on the canonical
form are the model's own (log 3). -/
def Obligations.HostKeepsInvariant : Prop := ∀ (s : State) (op : HostOp), s.Inv → (s.host op).2.Inv

/-- R260: what reset sets, at power-on and by HOST_RESET, and that HOST_RESET leaves both memories as they were. -/
def Obligations.ResetSetsState : Prop :=
  ∀ s : State, ∀ t ∈ [State.reset, (s.host (.reset .beforeStart)).2, (s.host (.reset .completeFirst)).2],
    (∀ n, t.reg n = .unwritten) ∧ t.pc = 0 ∧ t.startPc = 0 ∧ t.keyed = false ∧ t.fcause = 0 ∧ t.fdetail = 0 ∧
    t.fpc = 0 ∧ t.finfo = 0 ∧ t.runState = .idle ∧
    (∀ a, (s.host (.reset .beforeStart)).2.byte a = s.byte a) ∧
    (∀ i, (s.host (.reset .beforeStart)).2.cmdWord i = s.cmdWord i)

/-- R261: a HOST_RESET that lets the command in progress complete leaves DMEM as that command left it, and CMDMEM as it
was; in an engine that is not RUNNING there is no such command, and the point makes no difference. Which of the two points
a reset takes is a free argument (log 11). -/
def Obligations.ResetAfterCommandKeepsItsMemory : Prop :=
  ∀ s : State,
    (∀ t, step s = .next t →
      (∀ a, (s.host (.reset .completeFirst)).2.byte a = t.byte a) ∧
      (∀ i, (s.host (.reset .completeFirst)).2.cmdWord i = s.cmdWord i)) ∧
    (s.runState ≠ .running → (s.host (.reset .completeFirst)).2 = (s.host (.reset .beforeStart)).2)

/-- R25, R26, R27: once bound, the key and its subkeys stay, through any engine steps and host operations, until a reset. -/
def Obligations.KeyBoundUntilReset : Prop :=
  ∀ (s : State) (es : List Event), s.keyed = true → (∀ e ∈ es, e.noReset = true) →
    (s.events es).keyed = true ∧ (s.events es).key = s.key ∧ (s.events es).sk = s.sk

/-- R25, R26: a command that changes KEYED, KEY or SK is a SETKEY in an Uninitialized engine. -/
def Obligations.OnlySetkeyBindsKey : Prop :=
  ∀ (i : Instr) (s t : State), exec i s = .next t → ¬ (t.keyed = s.keyed ∧ t.key = s.key ∧ t.sk = s.sk) →
    (∃ rs, i = .setkey rs) ∧ s.keyed = false ∧ t.keyed = true

/-- R231: a command that faults has written no register, no byte of DMEM, no key state, and leaves pc at itself; no later
command starts. That `step` answers `engineStopped` for the faulted engine is the model's choice (log 7). -/
def Obligations.FaultsArePrecise : Prop :=
  ∀ (i : Instr) (s t : State), s.runState = .running → exec i s = .next t → t.runState = .faulted →
    (∀ n, t.reg n = s.reg n) ∧ (∀ a, t.byte a = s.byte a) ∧ t.keyed = s.keyed ∧ t.key = s.key ∧ t.sk = s.sk ∧
    t.pc = s.pc ∧ t.fpc = s.pc ∧ step t = .fault (.engineStopped .faulted)

/-- R239: a command that faults has entered one of the faults its row of the raise table allows. -/
def Obligations.RaiseTableHolds : Prop :=
  ∀ (i : Instr) (s t : State), s.runState = .running → exec i s = .next t → t.runState = .faulted →
    ∃ r, mayRaise i r = true ∧ FaultEntered s t r

/-- R240 and the code table of R230: fault entry writes cause, detail, FPC and FINFO, and nothing but them and RUNSTATE. -/
def Obligations.FaultEntryCodes : Prop :=
  (∀ (s : State) (r : Raise), FaultEntered s (s.takeFault r) r ∧ (r.cause, r.detail) ∈ faultCodes) ∧
  (∀ n : Reg, (Raise.tagMismatch n).cause = 1 ∧ (Raise.tagMismatch n).detail = 1 ∧
    (Raise.tagMismatch n).info.toNat = n.val) ∧
  (∀ j, (Raise.emptyKey j).cause = 1 ∧ (Raise.emptyKey j).detail = 2 ∧ (Raise.emptyKey j).info = j) ∧
  (∀ i, (Raise.bitIndex i).cause = 1 ∧ (Raise.bitIndex i).detail = 3 ∧ (Raise.bitIndex i).info = i) ∧
  (∀ n, (Raise.length n).cause = 1 ∧ (Raise.length n).detail = 4 ∧ (Raise.length n).info = n) ∧
  (∀ h, (Raise.capacity h).cause = 1 ∧ (Raise.capacity h).detail = 5 ∧ (Raise.capacity h).info = h) ∧
  (∀ v, (Raise.valueRange v).cause = 1 ∧ (Raise.valueRange v).detail = 6 ∧ (Raise.valueRange v).info = v) ∧
  (Raise.notKeyed.cause = 2 ∧ Raise.notKeyed.detail = 1 ∧ Raise.notKeyed.info = 0) ∧
  (Raise.alreadyKeyed.cause = 2 ∧ Raise.alreadyKeyed.detail = 2 ∧ Raise.alreadyKeyed.info = 0) ∧
  (∀ d w, (Raise.illegal d w).cause = 3 ∧ (Raise.illegal d w).info.toNat = w.toNat ∧
    (Raise.illegal d w).detail = (match d with
      | .undefinedOpcode => 1
      | .reservedBits => 2
      | .immRange => 3
      | .oddPair => 4)) ∧
  (∀ a, (Raise.memRead a).cause = 4 ∧ (Raise.memRead a).detail = 1 ∧ (Raise.memRead a).info = a) ∧
  (∀ a, (Raise.memWrite a).cause = 4 ∧ (Raise.memWrite a).detail = 2 ∧ (Raise.memWrite a).info = a) ∧
  (∀ n : Reg, (Raise.unwritten n).cause = 5 ∧ (Raise.unwritten n).detail = 0 ∧ (Raise.unwritten n).info.toNat = n.val) ∧
  (∀ p, (Raise.fetchBounds p).cause = 6 ∧ (Raise.fetchBounds p).detail = 0 ∧
    (Raise.fetchBounds p).info.toNat = p.toNat)

/-- R24: a command of a RUNNING engine either completes with pc advanced by 1, or is HALT and leaves pc at itself, or
faults and leaves pc at itself. There is no other control flow. -/
def Obligations.PcRule : Prop :=
  ∀ (i : Instr) (s t : State), s.runState = .running → exec i s = .next t →
    (i ≠ .halt ∧ t.runState = .running ∧ t.pc = s.pc + 1) ∨ (i = .halt ∧ t.runState = .halted ∧ t.pc = s.pc) ∨
    (i ≠ .halt ∧ t.runState = .faulted ∧ t.pc = s.pc)

/-- R29, R30, R33, R51: no command writes START_PC, CMDMEM or the platform's parameters, and one that does not fault
leaves the fault registers. -/
def Obligations.CommandsLeaveHostState : Prop :=
  ∀ (i : Instr) (s t : State), exec i s = .next t →
    t.startPc = s.startPc ∧ t.cmdMem = s.cmdMem ∧ t.cfg = s.cfg ∧ t.powerUp = s.powerUp ∧
    (t.runState ≠ .faulted → t.fcause = s.fcause ∧ t.fdetail = s.fdetail ∧ t.fpc = s.fpc ∧ t.finfo = s.finfo)

/-- R50: the commands that do not store (all but UNPACK64, ENCBUF, DECBUF, XORREP, CAESAR and the searches) leave every
byte of DMEM, and no command writes DMEM at or above DMEM_SIZE. -/
def Obligations.OnlyStoringCommandsWriteMemory : Prop :=
  ∀ (i : Instr) (s t : State), exec i s = .next t →
    (storesMemory i = false → ∀ a, t.byte a = s.byte a) ∧ (∀ a, s.cfg.dmemSize ≤ a → t.byte a = s.byte a)

/-- R28, R29, R240, R246: once FAULTED, an engine stays FAULTED with its fault registers and pc, whatever the engine and
the host do, until a reset. -/
def Obligations.FaultHeldUntilReset : Prop :=
  ∀ (s : State) (es : List Event), s.runState = .faulted → (∀ e ∈ es, e.noReset = true) →
    (s.events es).runState = .faulted ∧ (s.events es).fcause = s.fcause ∧ (s.events es).fdetail = s.fdetail ∧
    (s.events es).fpc = s.fpc ∧ (s.events es).finfo = s.finfo ∧ (s.events es).pc = s.pc

/-! ## Operands, memory, byte order -/

/-- R11, R22 and R23: what each operand read answers for each tag, which register is the second of a pair, and what a
register write does; every cell's value fits its tag. -/
def Obligations.RegisterPrimitives : Prop :=
  ∀ (s : State) (n : Reg),
    (s.reg n = .unwritten → s.readS n = .error (.unwritten n) ∧ s.readAnyB n = .error (.unwritten n) ∧
      s.readB32 n = .error (.unwritten n) ∧ s.readB48 n = .error (.unwritten n) ∧
      s.readB64 n = .error (.unwritten n)) ∧
    (∀ v, s.reg n = .scalar v → s.readS n = .ok v ∧ s.readAnyB n = .error (.tagMismatch n) ∧
      s.readB32 n = .error (.tagMismatch n) ∧ s.readB48 n = .error (.tagMismatch n) ∧
      s.readB64 n = .error (.tagMismatch n)) ∧
    (∀ v, s.reg n = .block (.b32 v) → s.readS n = .error (.tagMismatch n) ∧ s.readAnyB n = .ok (.b32 v) ∧
      s.readB32 n = .ok v ∧ s.readB48 n = .error (.tagMismatch n) ∧ s.readB64 n = .error (.tagMismatch n)) ∧
    (∀ v, s.reg n = .block (.b48 v) → s.readS n = .error (.tagMismatch n) ∧ s.readAnyB n = .ok (.b48 v) ∧
      s.readB32 n = .error (.tagMismatch n) ∧ s.readB48 n = .ok v ∧ s.readB64 n = .error (.tagMismatch n)) ∧
    (∀ v, s.reg n = .block (.b64 v) → s.readS n = .error (.tagMismatch n) ∧ s.readAnyB n = .ok (.b64 v) ∧
      s.readB32 n = .error (.tagMismatch n) ∧ s.readB48 n = .error (.tagMismatch n) ∧ s.readB64 n = .ok v) ∧
    (n.val % 2 = 0 → (Reg.second n).val = n.val + 1) ∧
    (∀ r, s.readS n = .error r → s.readPair n = .error r) ∧
    (∀ a r, s.readS n = .ok a → s.readS (Reg.second n) = .error r → s.readPair n = .error r) ∧
    (∀ a b, s.readS n = .ok a → s.readS (Reg.second n) = .ok b → s.readPair n = .ok (a, b)) ∧
    (∀ c, (s.setReg n c).reg n = c ∧ ∀ m, m ≠ n → (s.setReg n c).reg m = s.reg m) ∧
    (s.reg n).value.toNat < 2 ^ (s.reg n).tag.width

/-- R12: MemWrite stores byte k at a + k and no other byte changes; MemRead answers the bytes in ascending order;
inBounds is a + n <= DMEM_SIZE on unbounded integers. -/
def Obligations.MemoryPrimitives : Prop :=
  ∀ (s : State) (a : Nat) (bs : List Byte),
    (∀ k (h : k < bs.length), (s.storeBytes a bs).byte (a + k) = bs[k]) ∧
    (∀ b, b < a ∨ a + bs.length ≤ b → (s.storeBytes a bs).byte b = s.byte b) ∧
    (s.storeBytes a bs).readBytes a bs.length = bs ∧
    (∀ n, (s.readBytes a n).length = n ∧ ∀ k, k < n → (s.readBytes a n)[k]? = some (s.byte (a + k))) ∧
    (∀ n, s.inBounds a n = true ↔ a + n ≤ s.cfg.dmemSize)

/-- R54: 8 bytes pack big-endian into a 64-bit block, and unpack64 is the exact inverse. -/
def Obligations.PackingIsBigEndian : Prop :=
  (∀ (b : List Byte) (i k : Nat), i < 8 → k < 8 →
    (pack64 b).getLsbD ((7 - i) * 8 + k) = (b.getD i 0).getLsbD k) ∧
  (∀ b : List Byte, (pack64 b).toNat = (b.getD 0 0).toNat * 2 ^ 56 + (b.getD 1 0).toNat * 2 ^ 48 +
    (b.getD 2 0).toNat * 2 ^ 40 + (b.getD 3 0).toNat * 2 ^ 32 + (b.getD 4 0).toNat * 2 ^ 24 +
    (b.getD 5 0).toNat * 2 ^ 16 + (b.getD 6 0).toNat * 2 ^ 8 + (b.getD 7 0).toNat) ∧
  (∀ b : List Byte, b.length = 8 → unpack64 (pack64 b) = b) ∧
  (∀ v : Block64, pack64 (unpack64 v) = v ∧ (unpack64 v).length = 8 ∧
    ∀ i, i < 8 → (unpack64 v).getD i 0 = v.extractLsb' ((7 - i) * 8) 8) ∧
  pack64 [0x41, 0x42, 0x43, 0x44, 0x45, 0x46, 0x47, 0x48] = 0x4142434445464748

/-! ## Sequencer -/

/-- R101 to R106: NOP, HALT, LI, LIH, MOV and RDSTAT complete, with their result and nothing else changed. -/
def Obligations.SequencerCommands : Prop :=
  (∀ s, Gives .nop s fun t => (∀ n, t.reg n = s.reg n) ∧ (∀ a, t.byte a = s.byte a) ∧ t.pc = s.pc + 1 ∧
    SameControl s t) ∧
  (∀ s, Gives .halt s fun t => t = { s with runState := .halted }) ∧
  (∀ rd imm s, Gives (.li rd imm) s fun t => WritesReg s t rd (.scalar (BitVec.ofInt 64 imm.toInt))) ∧
  (∀ rd imm s v, s.reg rd = .scalar v → Gives (.lih rd imm) s fun t =>
    WritesReg s t rd (.scalar (BitVec.ofNat 64 (v.toNat * 2 ^ 20 + imm.toNat)))) ∧
  (∀ rd rs s, s.reg rs ≠ .unwritten → Gives (.mov rd rs) s fun t => WritesReg s t rd (s.reg rs)) ∧
  (∀ rd s, Gives (.rdstat rd) s fun t => WritesReg s t rd (.scalar (if s.keyed then 5 else 1)))

/-! ## BitBlock unit -/

/-- R121, R122, R124: PACK64 and PACKZ load bytes as a 64-bit block, PACKZ null-padding on the right; UNPACK64 stores the
8 bytes of a block, most significant first, at the address in ra; nothing else changes. -/
def Obligations.PackAndUnpackCommands : Prop :=
  (∀ rd rs s addr, s.reg rs = .scalar addr → addr.toNat + 8 ≤ s.cfg.dmemSize →
    ∃ v : Block64, Gives (.pack64 rd rs) s (fun t => WritesReg s t rd (.block (.b64 v))) ∧
      ∀ i k, i < 8 → k < 8 → v.getLsbD ((7 - i) * 8 + k) = (s.byte (addr.toNat + i)).getLsbD k) ∧
  (∀ rd p s addr n, s.reg p = .scalar addr → s.reg (Reg.second p) = .scalar n → n.toNat ≤ 8 →
    addr.toNat + n.toNat ≤ s.cfg.dmemSize →
    ∃ v : Block64, Gives (.packz rd p) s (fun t => WritesReg s t rd (.block (.b64 v))) ∧
      ∀ i k, i < 8 → k < 8 → v.getLsbD ((7 - i) * 8 + k) =
        if i < n.toNat then (s.byte (addr.toNat + i)).getLsbD k else false) ∧
  (∀ ra rs s addr v, s.reg ra = .scalar addr → s.reg rs = .block (.b64 v) → addr.toNat + 8 ≤ s.cfg.dmemSize →
    ∃ bs : List Byte, bs.length = 8 ∧ (∀ i, i < 8 → bs.getD i 0 = v.extractLsb' ((7 - i) * 8) 8) ∧
      Gives (.unpack64 ra rs) s fun t => Stores s t addr.toNat bs)

/-- R125: BITAT answers bit i of a block of any width as the scalar 0 or 1, and faults on an index of N or more. -/
def Obligations.BitatCommand : Prop :=
  ∀ rd rb ri s b i, s.reg rb = .block b → s.reg ri = .scalar i →
    (i.toNat < b.width → Gives (.bitat rd rb ri) s fun t =>
      WritesReg s t rd (.scalar (if b.value.getLsbD i.toNat then 1 else 0))) ∧
    (b.width ≤ i.toNat → FaultsWith (.bitat rd rb ri) s (.bitIndex i))

/-- R126: XOR of two blocks of one width; of two widths, a fault that names the second operand. -/
def Obligations.XorCommand : Prop :=
  (∀ rd ra rb s a b, s.reg ra = .block (.b32 a) → s.reg rb = .block (.b32 b) → Gives (.xor rd ra rb) s fun t =>
    WritesReg s t rd (.block (.b32 (a ^^^ b)))) ∧
  (∀ rd ra rb s a b, s.reg ra = .block (.b48 a) → s.reg rb = .block (.b48 b) → Gives (.xor rd ra rb) s fun t =>
    WritesReg s t rd (.block (.b48 (a ^^^ b)))) ∧
  (∀ rd ra rb s a b, s.reg ra = .block (.b64 a) → s.reg rb = .block (.b64 b) → Gives (.xor rd ra rb) s fun t =>
    WritesReg s t rd (.block (.b64 (a ^^^ b)))) ∧
  (∀ rd ra rb s a b, s.reg ra = .block a → s.reg rb = .block b → a.width ≠ b.width →
    FaultsWith (.xor rd ra rb) s (.tagMismatch rb))

/-- R131, R132: BLK32, BLK48 and BLK64 turn a scalar that fits into a block of its value, and VAL turns a block into the
scalar of its value. -/
def Obligations.ConversionCommands : Prop :=
  (∀ rd rs s v, s.reg rs = .scalar v → v.toNat < 2 ^ 32 → Gives (.blk32 rd rs) s fun t =>
    WritesReg s t rd (.block (.b32 (BitVec.ofNat 32 v.toNat)))) ∧
  (∀ rd rs s v, s.reg rs = .scalar v → v.toNat < 2 ^ 48 → Gives (.blk48 rd rs) s fun t =>
    WritesReg s t rd (.block (.b48 (BitVec.ofNat 48 v.toNat)))) ∧
  (∀ rd rs s v, s.reg rs = .scalar v → Gives (.blk64 rd rs) s fun t => WritesReg s t rd (.block (.b64 v))) ∧
  (∀ rd rs s v, s.reg rs = .block (.b32 v) → Gives (.val rd rs) s fun t =>
    WritesReg s t rd (.scalar (BitVec.ofNat 64 v.toNat))) ∧
  (∀ rd rs s v, s.reg rs = .block (.b48 v) → Gives (.val rd rs) s fun t =>
    WritesReg s t rd (.scalar (BitVec.ofNat 64 v.toNat))) ∧
  (∀ rd rs s v, s.reg rs = .block (.b64 v) → Gives (.val rd rs) s fun t => WritesReg s t rd (.scalar v))

/-- R133, R134: HALFLO and HALFHI take the halves of a block, JOIN makes h * 2^32 + l of two, and it inverts them. -/
def Obligations.HalvesAndJoin : Prop :=
  (∀ rd rs s v, s.reg rs = .block (.b64 v) → Gives (.halflo rd rs) s fun t =>
    WritesReg s t rd (.block (.b32 (BitVec.ofNat 32 (v.toNat % 2 ^ 32))))) ∧
  (∀ rd rs s v, s.reg rs = .block (.b64 v) → Gives (.halfhi rd rs) s fun t =>
    WritesReg s t rd (.block (.b32 (BitVec.ofNat 32 (v.toNat / 2 ^ 32))))) ∧
  (∀ rd rh rl s h l, s.reg rh = .block (.b32 h) → s.reg rl = .block (.b32 l) → Gives (.join rd rh rl) s fun t =>
    WritesReg s t rd (.block (.b64 (BitVec.ofNat 64 (h.toNat * 2 ^ 32 + l.toNat))))) ∧
  (∀ v : Block64, joinHalves (highHalf v) (lowHalf v) = v)

/-- R123: a PACK64 from an address, then an UNPACK64 of the result to it, leaves DMEM unchanged; an UNPACK64 to an address,
then a PACK64 from it, gives the block back. -/
def Obligations.PackUnpackLaws : Prop :=
  (∀ b : List Byte, b.length = 8 → unpack64 (pack64 b) = b) ∧
  (∀ rd rs s addr, rd ≠ rs → s.reg rs = .scalar addr → addr.toNat + 8 ≤ s.cfg.dmemSize →
    ∃ t u, exec (.pack64 rd rs) s = .next t ∧ exec (.unpack64 rs rd) t = .next u ∧ ∀ a, u.byte a = s.byte a) ∧
  (∀ ra rs rd s addr v, s.reg ra = .scalar addr → s.reg rs = .block (.b64 v) → addr.toNat + 8 ≤ s.cfg.dmemSize →
    ∃ t u, exec (.unpack64 ra rs) s = .next t ∧ exec (.pack64 rd ra) t = .next u ∧ u.reg rd = .block (.b64 v))

/-- R238, R239: the faults of the sequencer and BitBlock commands, each check in its order. -/
def Obligations.SequencerAndBitBlockFaults : Prop :=
  ∀ s : State,
    (∀ rd imm r, s.readS rd = .error r → FaultsWith (.lih rd imm) s r) ∧
    (∀ rd rs, s.reg rs = .unwritten → FaultsWith (.mov rd rs) s (.unwritten rs)) ∧
    (∀ rd rs r, s.readS rs = .error r → FaultsWith (.pack64 rd rs) s r ∧ FaultsWith (.blk32 rd rs) s r ∧
      FaultsWith (.blk48 rd rs) s r ∧ FaultsWith (.blk64 rd rs) s r) ∧
    (∀ rd rs a, s.readS rs = .ok a → s.cfg.dmemSize < a.toNat + 8 → FaultsWith (.pack64 rd rs) s (.memRead a)) ∧
    (∀ rd rs v, s.readS rs = .ok v → 2 ^ 32 ≤ v.toNat → FaultsWith (.blk32 rd rs) s (.valueRange v)) ∧
    (∀ rd rs v, s.readS rs = .ok v → 2 ^ 48 ≤ v.toNat → FaultsWith (.blk48 rd rs) s (.valueRange v)) ∧
    (∀ ra rs r, s.readS ra = .error r → FaultsWith (.unpack64 ra rs) s r) ∧
    (∀ ra rs a r, s.readS ra = .ok a → s.readB64 rs = .error r → FaultsWith (.unpack64 ra rs) s r) ∧
    (∀ ra rs a v, s.readS ra = .ok a → s.readB64 rs = .ok v → s.cfg.dmemSize < a.toNat + 8 →
      FaultsWith (.unpack64 ra rs) s (.memWrite a)) ∧
    (∀ rd p r, s.readPair p = .error r → FaultsWith (.packz rd p) s r) ∧
    (∀ rd p a n, s.readPair p = .ok (a, n) → 8 < n.toNat → FaultsWith (.packz rd p) s (.length n)) ∧
    (∀ rd p a n, s.readPair p = .ok (a, n) → n.toNat ≤ 8 → s.cfg.dmemSize < a.toNat + n.toNat →
      FaultsWith (.packz rd p) s (.memRead a)) ∧
    (∀ rd ra rb r, s.readAnyB ra = .error r → FaultsWith (.xor rd ra rb) s r) ∧
    (∀ rd ra rb a r, s.readAnyB ra = .ok a → s.readAnyB rb = .error r → FaultsWith (.xor rd ra rb) s r) ∧
    (∀ rd rb ri r, s.readAnyB rb = .error r → FaultsWith (.bitat rd rb ri) s r) ∧
    (∀ rd rb ri b r, s.readAnyB rb = .ok b → s.readS ri = .error r → FaultsWith (.bitat rd rb ri) s r) ∧
    (∀ rd rs r, s.readAnyB rs = .error r → FaultsWith (.val rd rs) s r) ∧
    (∀ rd rs r, s.readB64 rs = .error r → FaultsWith (.halflo rd rs) s r ∧ FaultsWith (.halfhi rd rs) s r) ∧
    (∀ rd rh rl r, s.readB32 rh = .error r → FaultsWith (.join rd rh rl) s r) ∧
    (∀ rd rh rl h r, s.readB32 rh = .ok h → s.readB32 rl = .error r → FaultsWith (.join rd rh rl) s r)

/-! ## Feistel unit -/

/-- R150, R152: SETKEY in an Uninitialized engine binds the key; bit j of subkey i is key bit i + j; nothing else changes. -/
def Obligations.SetkeyBindsSchedule : Prop :=
  ∀ rs s k, s.keyed = false → s.reg rs = .block (.b64 k) →
    Gives (.setkey rs) s fun t => t.keyed = true ∧ t.key = k ∧
      (∀ (i : Fin 16) (j : Nat), j < 48 → (t.sk[i]).getLsbD j = k.getLsbD (i.val + j)) ∧
      (∀ n, t.reg n = s.reg n) ∧ (∀ a, t.byte a = s.byte a) ∧ t.pc = s.pc + 1 ∧ t.runState = s.runState ∧
      t.fcause = s.fcause ∧ t.fdetail = s.fdetail ∧ t.fpc = s.fpc ∧ t.finfo = s.finfo ∧ t.startPc = s.startPc ∧
      t.cmdMem = s.cmdMem ∧ t.cfg = s.cfg ∧ t.powerUp = s.powerUp

/-- R151, R154, R155: GETSK reads subkey k, which in a machine with the invariant is KEY[k+47:k]; IP and FP copy a B64
block in either key state. -/
def Obligations.GetskAndIdentityPermutations : Prop :=
  (∀ rd k s, s.keyed = true → Gives (.getsk rd k) s fun t => WritesReg s t rd (.block (.b48 s.sk[k]))) ∧
  (∀ s : State, s.Inv → s.keyed = true → ∀ (k : Fin 16) (j : Nat), j < 48 →
    (s.sk[k]).getLsbD j = s.key.getLsbD (k.val + j)) ∧
  (∀ rd rs s v, s.reg rs = .block (.b64 v) → Gives (.ip rd rs) s fun t => WritesReg s t rd (.block (.b64 v))) ∧
  (∀ rd rs s v, s.reg rs = .block (.b64 v) → Gives (.fp rd rs) s fun t => WritesReg s t rd (.block (.b64 v)))

/-- R156, R162: EXPAND and PERMP take output bit i from input bit 32 - table entry i, for every table. -/
def Obligations.TableCommands : Prop :=
  (∀ rd rs s r, s.reg rs = .block (.b32 r) → ∃ v : Subkey,
    (∀ i : Fin 48, v.getLsbD i.val = r.getLsbD (32 - s.cfg.eEntry i)) ∧
    Gives (.expand rd rs) s fun t => WritesReg s t rd (.block (.b48 v))) ∧
  (∀ rd rs s x, s.reg rs = .block (.b32 x) → ∃ v : Half,
    (∀ i : Fin 32, v.getLsbD i.val = x.getLsbD (32 - s.cfg.pEntry i)) ∧
    Gives (.permp rd rs) s fun t => WritesReg s t rd (.block (.b32 v)))

/-- R158, R159, R160: SUBST looks up each of the eight 6-bit groups in the one S-box and writes the value most significant
bit first, for every S-box. -/
def Obligations.SubstCommand : Prop :=
  ∀ rd rs s x, s.reg rs = .block (.b48 x) → ∃ v : Half,
    (∀ i j, i < 8 → j < 4 →
      let g := fun k => (x.getLsbD (6 * i + k)).toNat
      v.getLsbD (4 * i + j) =
        (s.cfg.sboxEntry (Fin.ofNat 4 (g 0 * 2 + g 5)) (Fin.ofNat 16 (g 1 * 8 + g 2 * 4 + g 3 * 2 + g 4))).getLsbD
          (3 - j)) ∧
    Gives (.subst rd rs) s fun t => WritesReg s t rd (.block (.b32 v))

/-- R164: ROUNDF computes permuteP(substitute(expand(right) XOR subkey)), in either key state. -/
def Obligations.RoundfCommand : Prop :=
  ∀ rd rr rk s r k, s.reg rr = .block (.b32 r) → s.reg rk = .block (.b48 k) → Gives (.roundf rd rr rk) s fun t =>
    WritesReg s t rd (.block (.b32 (permuteP s.cfg (substitute s.cfg (expand s.cfg r ^^^ k)))))

/-- R166, R167: ENC and DEC run 16 rounds with the subkeys forward and backward, and write the right half high. -/
def Obligations.EncDecRounds : Prop :=
  ∀ rd rs s v, s.keyed = true → s.reg rs = .block (.b64 v) →
    (∃ L R : Nat → Half, L 0 = v.extractLsb' 32 32 ∧ R 0 = v.extractLsb' 0 32 ∧
      (∀ r : Fin 16, L (r.val + 1) = R r.val ∧
        R (r.val + 1) = L r.val ^^^ roundFunction s.cfg (R r.val) s.sk[r]) ∧
      Gives (.enc rd rs) s fun t =>
        WritesReg s t rd (.block (.b64 (BitVec.ofNat 64 ((R 16).toNat * 2 ^ 32 + (L 16).toNat))))) ∧
    (∃ L R : Nat → Half, L 0 = v.extractLsb' 32 32 ∧ R 0 = v.extractLsb' 0 32 ∧
      (∀ r : Fin 16, L (r.val + 1) = R r.val ∧
        R (r.val + 1) = L r.val ^^^ roundFunction s.cfg (R r.val) s.sk[15 - r]) ∧
      Gives (.dec rd rs) s fun t =>
        WritesReg s t rd (.block (.b64 (BitVec.ofNat 64 ((R 16).toNat * 2 ^ 32 + (L 16).toNat)))))

/-- R168: for every table, key and block, DEC of ENC of a block is the block, and ENC of DEC too. -/
def Obligations.DecodeInvertsEncode : Prop :=
  (∀ (c : Config) (sk : Vector Subkey 16) (p : Block64),
    decodeBlock c sk (encodeBlock c sk p) = p ∧ encodeBlock c sk (decodeBlock c sk p) = p) ∧
  (∀ rd rs rx s p, s.keyed = true → s.reg rs = .block (.b64 p) →
    (∃ t u, exec (.enc rd rs) s = .next t ∧ exec (.dec rx rd) t = .next u ∧ u.reg rx = .block (.b64 p)) ∧
    (∃ t u, exec (.dec rd rs) s = .next t ∧ exec (.enc rx rd) t = .next u ∧ u.reg rx = .block (.b64 p)))

/-- R171, R173, R174: ENCBUF and DECBUF code a buffer block by block, the final block null-padded, into 8 * ceil(n / 8)
bytes at the address in ra; nothing else changes. -/
def Obligations.BufferCommands : Prop :=
  ∀ ra p s dst src n, s.keyed = true → s.reg ra = .scalar dst → s.reg p = .scalar src →
    s.reg (Reg.second p) = .scalar n → src.toNat + n.toNat ≤ s.cfg.dmemSize →
    dst.toNat + 8 * ((n.toNat + 7) / 8) ≤ s.cfg.dmemSize →
    let block := fun j => pack64 ((List.range 8).map fun k =>
      if 8 * j + k < n.toNat then s.byte (src.toNat + (8 * j + k)) else 0)
    (∃ bs : List Byte, bs.length = 8 * ((n.toNat + 7) / 8) ∧
      (∀ j, j < (n.toNat + 7) / 8 → (bs.drop (8 * j)).take 8 = unpack64 (encodeBlock s.cfg s.sk (block j))) ∧
      Gives (.encbuf ra p) s fun t => Stores s t dst.toNat bs) ∧
    (∃ bs : List Byte, bs.length = 8 * ((n.toNat + 7) / 8) ∧
      (∀ j, j < (n.toNat + 7) / 8 → (bs.drop (8 * j)).take 8 = unpack64 (decodeBlock s.cfg s.sk (block j))) ∧
      Gives (.decbuf ra p) s fun t => Stores s t dst.toNat bs)

/-- R174: an ENCBUF, then a DECBUF of its output, gives the buffer back followed by its null padding. -/
def Obligations.DecbufInvertsEncbuf : Prop :=
  ∀ ra p rx q s dst src n out m, s.keyed = true → s.reg ra = .scalar dst → s.reg p = .scalar src →
    s.reg (Reg.second p) = .scalar n → s.reg rx = .scalar out → s.reg q = .scalar dst →
    s.reg (Reg.second q) = .scalar m → m.toNat = 8 * ((n.toNat + 7) / 8) →
    src.toNat + n.toNat ≤ s.cfg.dmemSize → dst.toNat + m.toNat ≤ s.cfg.dmemSize →
    out.toNat + m.toNat ≤ s.cfg.dmemSize →
    ∃ t u, exec (.encbuf ra p) s = .next t ∧ exec (.decbuf rx q) t = .next u ∧
      ∀ k, k < m.toNat → u.byte (out.toNat + k) = if k < n.toNat then s.byte (src.toNat + k) else 0

/-- R153: key bit 63 reaches no subkey and every other key bit reaches one; a rotation would give the same schedule; with
equal subkeys, as for the keys of all zeros, of bit 63 alone and of all ones, encode and decode agree. -/
def Obligations.KeyScheduleConsequences : Prop :=
  (∀ (k : Block64) (i : Nat), i < 16 → (k.rotateRight i).extractLsb' 0 48 = subkey k i) ∧
  (∀ k : Block64, generateSubkeys (k ^^^ 0x8000000000000000) = generateSubkeys k) ∧
  (∀ (k : Block64) (b : Nat), b < 63 → generateSubkeys (k ^^^ BitVec.twoPow 64 b) ≠ generateSubkeys k) ∧
  (∀ (c : Config) (sk : Vector Subkey 16) (v : Block64), (∀ i j : Fin 16, sk[i] = sk[j]) →
    encodeBlock c sk v = decodeBlock c sk v) ∧
  (∀ i : Fin 16, (generateSubkeys 0)[i] = 0 ∧ (generateSubkeys 0x8000000000000000)[i] = 0 ∧
    (generateSubkeys 0xFFFFFFFFFFFFFFFF)[i] = 0xFFFFFFFFFFFF)

/-- R175, R238, R239: the faults of the Feistel commands, the key state checked before any operand. -/
def Obligations.FeistelFaults : Prop :=
  ∀ s : State,
    (s.keyed = true → ∀ rs, FaultsWith (.setkey rs) s .alreadyKeyed) ∧
    (∀ rs r, s.keyed = false → s.readB64 rs = .error r → FaultsWith (.setkey rs) s r) ∧
    (s.keyed = false → ∀ rd rs ra p, ∀ k : Fin 16, FaultsWith (.getsk rd k) s .notKeyed ∧
      FaultsWith (.enc rd rs) s .notKeyed ∧ FaultsWith (.dec rd rs) s .notKeyed ∧
      FaultsWith (.encbuf ra p) s .notKeyed ∧ FaultsWith (.decbuf ra p) s .notKeyed) ∧
    (∀ rd rs r, s.readB64 rs = .error r → FaultsWith (.ip rd rs) s r ∧ FaultsWith (.fp rd rs) s r) ∧
    (∀ rd rs r, s.readB32 rs = .error r → FaultsWith (.expand rd rs) s r ∧ FaultsWith (.permp rd rs) s r) ∧
    (∀ rd rs r, s.readB48 rs = .error r → FaultsWith (.subst rd rs) s r) ∧
    (∀ rd rr rk r, s.readB32 rr = .error r → FaultsWith (.roundf rd rr rk) s r) ∧
    (∀ rd rr rk h r, s.readB32 rr = .ok h → s.readB48 rk = .error r → FaultsWith (.roundf rd rr rk) s r) ∧
    (∀ rd rs r, s.keyed = true → s.readB64 rs = .error r → FaultsWith (.enc rd rs) s r ∧
      FaultsWith (.dec rd rs) s r) ∧
    (∀ ra p r, s.keyed = true → s.readS ra = .error r → FaultsWith (.encbuf ra p) s r ∧
      FaultsWith (.decbuf ra p) s r) ∧
    (∀ ra p dst r, s.keyed = true → s.readS ra = .ok dst → s.readPair p = .error r →
      FaultsWith (.encbuf ra p) s r ∧ FaultsWith (.decbuf ra p) s r) ∧
    (∀ ra p dst src n, s.keyed = true → s.readS ra = .ok dst → s.readPair p = .ok (src, n) →
      s.cfg.dmemSize < src.toNat + n.toNat →
      FaultsWith (.encbuf ra p) s (.memRead src) ∧ FaultsWith (.decbuf ra p) s (.memRead src)) ∧
    (∀ ra p dst src n, s.keyed = true → s.readS ra = .ok dst → s.readPair p = .ok (src, n) →
      src.toNat + n.toNat ≤ s.cfg.dmemSize → s.cfg.dmemSize < dst.toNat + 8 * ((n.toNat + 7) / 8) →
      FaultsWith (.encbuf ra p) s (.memWrite dst) ∧ FaultsWith (.decbuf ra p) s (.memWrite dst))

/-! ## Classical primitives and cryptanalysis -/

/-- R191, R192: XORREP stores data[i] XOR key[i mod len(key)], both read before anything is written; an empty key faults;
nothing else changes. -/
def Obligations.XorrepCommand : Prop :=
  ∀ ra p q s dst src n ka kl, s.reg ra = .scalar dst → s.reg p = .scalar src → s.reg (Reg.second p) = .scalar n →
    s.reg q = .scalar ka → s.reg (Reg.second q) = .scalar kl →
    (kl = 0 → FaultsWith (.xorrep ra p q) s (.emptyKey 0)) ∧
    (kl ≠ 0 → src.toNat + n.toNat ≤ s.cfg.dmemSize → ka.toNat + kl.toNat ≤ s.cfg.dmemSize →
      dst.toNat + n.toNat ≤ s.cfg.dmemSize →
      ∃ bs : List Byte, bs.length = n.toNat ∧
        (∀ i, i < n.toNat → bs.getD i 0 = s.byte (src.toNat + i) ^^^ s.byte (ka.toNat + i % kl.toNat)) ∧
        Gives (.xorrep ra p q) s fun t => Stores s t dst.toNat bs)

/-- R193: repeating-key XOR is its own inverse: two XORREP commands in place, with a key outside the data, restore every
byte of DMEM. -/
def Obligations.XorrepTwiceRestores : Prop :=
  (∀ d k : List Byte, k ≠ [] → xorRepeat (xorRepeat d k) k = d) ∧
  (∀ ra p q s a n ka kl, s.reg ra = .scalar a → s.reg p = .scalar a → s.reg (Reg.second p) = .scalar n →
    s.reg q = .scalar ka → s.reg (Reg.second q) = .scalar kl → kl ≠ 0 → a.toNat + n.toNat ≤ s.cfg.dmemSize →
    ka.toNat + kl.toNat ≤ s.cfg.dmemSize → ka.toNat + kl.toNat ≤ a.toNat ∨ a.toNat + n.toNat ≤ ka.toNat →
    ∃ t u, exec (.xorrep ra p q) s = .next t ∧ exec (.xorrep ra p q) t = .next u ∧ ∀ b, u.byte b = s.byte b)

/-- R194, R195, R196: CAESAR moves letters within their alphabet of 26 and digits within 10 by the signed shift mod 26,
and stores the text at the address in ra; nothing else changes. -/
def Obligations.CaesarCommand : Prop :=
  ∀ ra p rs s dst src n shift, s.reg ra = .scalar dst → s.reg p = .scalar src → s.reg (Reg.second p) = .scalar n →
    s.reg rs = .scalar shift → src.toNat + n.toNat ≤ s.cfg.dmemSize → dst.toNat + n.toNat ≤ s.cfg.dmemSize →
    ∃ bs : List Byte, bs.length = n.toNat ∧
      (∀ i, i < n.toNat →
        let c := (s.byte (src.toNat + i)).toNat
        let k := (shift.toInt % 26).toNat
        (bs.getD i 0).toNat =
          if 0x61 ≤ c ∧ c ≤ 0x7A then (c - 0x61 + k) % 26 + 0x61
          else if 0x41 ≤ c ∧ c ≤ 0x5A then (c - 0x41 + k) % 26 + 0x41
          else if 0x30 ≤ c ∧ c ≤ 0x39 then (c - 0x30 + k) % 10 + 0x30
          else c) ∧
      Gives (.caesar ra p rs) s fun t => Stores s t dst.toNat bs

/-- R197: a character outside [a-zA-Z0-9] passes through; decoding with 26 - (s mod 26) restores every letter; a digit d
comes back as (d + 6) mod 10 unless s mod 26 is 0. -/
def Obligations.CaesarLaws : Prop :=
  ∀ (c : Byte) (shift back : Scalar), back.toInt = 26 - shift.toInt % 26 →
    let letter := (0x61 ≤ c.toNat ∧ c.toNat ≤ 0x7A) ∨ (0x41 ≤ c.toNat ∧ c.toNat ≤ 0x5A)
    let digit := 0x30 ≤ c.toNat ∧ c.toNat ≤ 0x39
    (¬ letter → ¬ digit → caesarShift [c] shift = [c]) ∧
    (letter → caesarShift (caesarShift [c] shift) back = [c]) ∧
    (digit → shift.toInt % 26 ≠ 0 →
      caesarShift (caesarShift [c] shift) back = [BitVec.ofNat 8 ((c.toNat - 0x30 + 6) % 10 + 0x30)]) ∧
    (shift.toInt % 26 = 0 → caesarShift [c] shift = [c])

/-- R200, R203: PLAUS answers 1 exactly when every byte is in 0x20..0x7E or is 0x0A, and 0 otherwise. -/
def Obligations.PlausCommand : Prop :=
  ∀ rd p s a n, s.reg p = .scalar a → s.reg (Reg.second p) = .scalar n → a.toNat + n.toNat ≤ s.cfg.dmemSize →
    ∃ v : Scalar, (v = 0 ∨ v = 1) ∧
      (v = 1 ↔ ∀ i, i < n.toNat → (0x20 ≤ (s.byte (a.toNat + i)).toNat ∧ (s.byte (a.toNat + i)).toNat ≤ 0x7E) ∨
        s.byte (a.toNat + i) = 0x0A) ∧
      Gives (.plaus rd p) s fun t => WritesReg s t rd (.scalar v)

/-- R206, R207, R211, R213: BFX1 and BFX2 try every key in ascending order, write the record of every plausible candidate
in that order, and answer the number of hits. -/
def Obligations.BruteForceCommands : Prop :=
  ∀ rd p q s ca n oa cap, s.reg p = .scalar ca → s.reg (Reg.second p) = .scalar n → s.reg q = .scalar oa →
    s.reg (Reg.second q) = .scalar cap → ca.toNat + n.toNat ≤ s.cfg.dmemSize →
    let plausible := fun x : Byte => (0x20 ≤ x.toNat && x.toNat ≤ 0x7E) || x == 0x0A
    let cand := fun b1 b2 : Nat => (List.range n.toNat).map fun i =>
      s.byte (ca.toNat + i) ^^^ BitVec.ofNat 8 (if i % 2 = 0 then b1 else b2)
    let hits1 := (List.range 256).filter fun k => (cand k k).all plausible
    let pairs := (List.range 256).flatMap fun b1 => (List.range 256).map fun b2 => (b1, b2)
    let hits2 := pairs.filter fun k => (cand k.1 k.2).all plausible
    (hits1.length ≤ cap.toNat → oa.toNat + hits1.length * (1 + n.toNat) ≤ s.cfg.dmemSize →
      Gives (.bfx1 rd p q) s fun t => StoresAndWrites s t oa.toNat
        (hits1.flatMap fun k => BitVec.ofNat 8 k :: cand k k) rd (.scalar (BitVec.ofNat 64 hits1.length))) ∧
    (hits2.length ≤ cap.toNat → oa.toNat + hits2.length * (2 + n.toNat) ≤ s.cfg.dmemSize →
      Gives (.bfx2 rd p q) s fun t => StoresAndWrites s t oa.toNat
        (hits2.flatMap fun k => BitVec.ofNat 8 k.1 :: BitVec.ofNat 8 k.2 :: cand k.1 k.2) rd
        (.scalar (BitVec.ofNat 64 hits2.length)))

/-- R208, R211, R213, R217: BFXD over a dictionary laid out in DMEM tries its keys in order, writes the records of the
plausible candidates, each named by its 4-byte big-endian index, and answers the number of hits. -/
def Obligations.DictionaryCommand : Prop :=
  ∀ rd p q d s ca n oa cap da cnt keys, s.reg p = .scalar ca → s.reg (Reg.second p) = .scalar n →
    s.reg q = .scalar oa → s.reg (Reg.second q) = .scalar cap → s.reg d = .scalar da →
    s.reg (Reg.second d) = .scalar cnt → ca.toNat + n.toNat ≤ s.cfg.dmemSize →
    keys.length = cnt.toNat → DictLaid s keys da.toNat →
    let cand := fun k : List Byte => (List.range n.toNat).map fun i =>
      s.byte (ca.toNat + i) ^^^ k.getD (i % k.length) 0
    let hits := keys.zipIdx.filter fun e => isPlausible (cand e.1)
    hits.length ≤ cap.toNat → oa.toNat + hits.length * (4 + n.toNat) ≤ s.cfg.dmemSize →
      Gives (.bfxd rd p q d) s fun t => StoresAndWrites s t oa.toNat
        (hits.flatMap fun e => [BitVec.ofNat 8 (e.2 / 2 ^ 24), BitVec.ofNat 8 (e.2 / 2 ^ 16),
          BitVec.ofNat 8 (e.2 / 2 ^ 8), BitVec.ofNat 8 e.2] ++ cand e.1) rd (.scalar (BitVec.ofNat 64 hits.length))

/-- R218: a search over a cipher that a key of its sequence made from a plausible plain text reports that key with that
text, for the three key sequences; and where capacity and output region suffice, BFX1, BFX2 and BFXD complete, and one of
the records they count in rd is that key with that text. -/
def Obligations.SearchesAreComplete : Prop :=
  (∀ (plain : List Byte) (k : Byte), isPlausible plain = true →
    (k :: plain) ∈ searchRecords (xorRepeat plain [k]) oneByteTrials) ∧
  (∀ (plain : List Byte) (k l : Byte), isPlausible plain = true →
    (k :: l :: plain) ∈ searchRecords (xorRepeat plain [k, l]) twoByteTrials) ∧
  (∀ (plain : List Byte) (keys : List (List Byte)) (e : Nat) (k : List Byte), isPlausible plain = true →
    keys[e]? = some k → k ≠ [] →
    (unpack32 (BitVec.ofNat 32 e) ++ plain) ∈ searchRecords (xorRepeat plain k) (dictTrials keys)) ∧
  ∀ rd p q s ca n oa cap (plain : List Byte), s.reg p = .scalar ca → s.reg (Reg.second p) = .scalar n →
    s.reg q = .scalar oa → s.reg (Reg.second q) = .scalar cap → ca.toNat + n.toNat ≤ s.cfg.dmemSize →
    isPlausible plain = true →
    let cipher := s.readBytes ca.toNat n.toNat
    let reports := fun (size : Nat) (record : List Byte) (t : State) =>
      ∃ h : Scalar, t.reg rd = .scalar h ∧ ∃ j, j < h.toNat ∧ t.readBytes (oa.toNat + j * size) size = record
    (∀ k : Byte, cipher = xorRepeat plain [k] → (searchRecords cipher oneByteTrials).length ≤ cap.toNat →
      oa.toNat + (searchRecords cipher oneByteTrials).length * (1 + n.toNat) ≤ s.cfg.dmemSize →
      Gives (.bfx1 rd p q) s (reports (1 + n.toNat) (k :: plain))) ∧
    (∀ k l : Byte, cipher = xorRepeat plain [k, l] → (searchRecords cipher twoByteTrials).length ≤ cap.toNat →
      oa.toNat + (searchRecords cipher twoByteTrials).length * (2 + n.toNat) ≤ s.cfg.dmemSize →
      Gives (.bfx2 rd p q) s (reports (2 + n.toNat) (k :: l :: plain))) ∧
    (∀ d da cnt keys e k, s.reg d = .scalar da → s.reg (Reg.second d) = .scalar cnt → keys.length = cnt.toNat →
      DictLaid s keys da.toNat → keys[e]? = some k → cipher = xorRepeat plain k →
      (searchRecords cipher (dictTrials keys)).length ≤ cap.toNat →
      oa.toNat + (searchRecords cipher (dictTrials keys)).length * (4 + n.toNat) ≤ s.cfg.dmemSize →
      Gives (.bfxd rd p q d) s (reports (4 + n.toNat) ([BitVec.ofNat 8 (e / 2 ^ 24), BitVec.ofNat 8 (e / 2 ^ 16),
        BitVec.ofNat 8 (e / 2 ^ 8), BitVec.ofNat 8 e] ++ plain)))

/-- R220, R221: CKEY takes the most frequent letter of the text, either case, the lowest index on a tie, for the letter e,
and answers the shift (index - 4 + 26) mod 26. -/
def Obligations.CkeyCommand : Prop :=
  ∀ rd p s a n, s.reg p = .scalar a → s.reg (Reg.second p) = .scalar n → a.toNat + n.toNat ≤ s.cfg.dmemSize →
    let count := fun i => (s.readBytes a.toNat n.toNat).countP fun c => c.toNat == 0x61 + i || c.toNat == 0x41 + i
    ∃ m, m < 26 ∧ (∀ i, i < 26 → count i ≤ count m) ∧ (∀ i, i < m → count i < count m) ∧
      Gives (.ckey rd p) s fun t => WritesReg s t rd (.scalar (BitVec.ofNat 64 ((m + 26 - 4) % 26)))

/-- R238, R239: the faults of the classical and search commands, each check in its order. -/
def Obligations.ClassicalAndSearchFaults : Prop :=
  ∀ s : State,
    (∀ ra p q rs r, s.readS ra = .error r → FaultsWith (.xorrep ra p q) s r ∧ FaultsWith (.caesar ra p rs) s r) ∧
    (∀ ra p q rs a r, s.readS ra = .ok a → s.readPair p = .error r →
      FaultsWith (.xorrep ra p q) s r ∧ FaultsWith (.caesar ra p rs) s r) ∧
    (∀ ra p q a x r, s.readS ra = .ok a → s.readPair p = .ok x → s.readPair q = .error r →
      FaultsWith (.xorrep ra p q) s r) ∧
    (∀ ra p q a src n ka kl, s.readS ra = .ok a → s.readPair p = .ok (src, n) → s.readPair q = .ok (ka, kl) →
      if kl = 0 then FaultsWith (.xorrep ra p q) s (.emptyKey 0)
      else if s.cfg.dmemSize < src.toNat + n.toNat then FaultsWith (.xorrep ra p q) s (.memRead src)
      else if s.cfg.dmemSize < ka.toNat + kl.toNat then FaultsWith (.xorrep ra p q) s (.memRead ka)
      else s.cfg.dmemSize < a.toNat + n.toNat → FaultsWith (.xorrep ra p q) s (.memWrite a)) ∧
    (∀ ra p rs a x r, s.readS ra = .ok a → s.readPair p = .ok x → s.readS rs = .error r →
      FaultsWith (.caesar ra p rs) s r) ∧
    (∀ ra p rs a src n v, s.readS ra = .ok a → s.readPair p = .ok (src, n) → s.readS rs = .ok v →
      if s.cfg.dmemSize < src.toNat + n.toNat then FaultsWith (.caesar ra p rs) s (.memRead src)
      else s.cfg.dmemSize < a.toNat + n.toNat → FaultsWith (.caesar ra p rs) s (.memWrite a)) ∧
    (∀ rd p q d r, s.readPair p = .error r → FaultsWith (.plaus rd p) s r ∧ FaultsWith (.ckey rd p) s r ∧
      FaultsWith (.bfx1 rd p q) s r ∧ FaultsWith (.bfx2 rd p q) s r ∧ FaultsWith (.bfxd rd p q d) s r) ∧
    (∀ rd p a n, s.readPair p = .ok (a, n) → s.cfg.dmemSize < a.toNat + n.toNat →
      FaultsWith (.plaus rd p) s (.memRead a) ∧ FaultsWith (.ckey rd p) s (.memRead a)) ∧
    (∀ rd p q d x r, s.readPair p = .ok x → s.readPair q = .error r → FaultsWith (.bfx1 rd p q) s r ∧
      FaultsWith (.bfx2 rd p q) s r ∧ FaultsWith (.bfxd rd p q d) s r) ∧
    (∀ rd p q ca n oa cap, s.readPair p = .ok (ca, n) → s.readPair q = .ok (oa, cap) →
      let h1 := (searchRecords (s.readBytes ca.toNat n.toNat) oneByteTrials).length
      let h2 := (searchRecords (s.readBytes ca.toNat n.toNat) twoByteTrials).length
      if s.cfg.dmemSize < ca.toNat + n.toNat then
        FaultsWith (.bfx1 rd p q) s (.memRead ca) ∧ FaultsWith (.bfx2 rd p q) s (.memRead ca)
      else
        (if cap.toNat < h1 then FaultsWith (.bfx1 rd p q) s (.capacity (BitVec.ofNat 64 h1))
          else s.cfg.dmemSize < oa.toNat + h1 * (1 + n.toNat) → FaultsWith (.bfx1 rd p q) s (.memWrite oa)) ∧
        (if cap.toNat < h2 then FaultsWith (.bfx2 rd p q) s (.capacity (BitVec.ofNat 64 h2))
          else s.cfg.dmemSize < oa.toNat + h2 * (2 + n.toNat) → FaultsWith (.bfx2 rd p q) s (.memWrite oa))) ∧
    (∀ rd p q d x y r, s.readPair p = .ok x → s.readPair q = .ok y → s.readPair d = .error r →
      FaultsWith (.bfxd rd p q d) s r) ∧
    (∀ rd p q d ca n oa cap da cnt, s.readPair p = .ok (ca, n) → s.readPair q = .ok (oa, cap) →
      s.readPair d = .ok (da, cnt) →
      if s.cfg.dmemSize < ca.toNat + n.toNat then FaultsWith (.bfxd rd p q d) s (.memRead ca)
      else match s.parseDict cnt.toNat 0 da.toNat with
        | .error r => FaultsWith (.bfxd rd p q d) s r
        | .ok keys =>
          let h := (searchRecords (s.readBytes ca.toNat n.toNat) (dictTrials keys)).length
          if cap.toNat < h then FaultsWith (.bfxd rd p q d) s (.capacity (BitVec.ofNat 64 h))
          else s.cfg.dmemSize < oa.toNat + h * (4 + n.toNat) → FaultsWith (.bfxd rd p q d) s (.memWrite oa))

/-- R208: the parse faults at the first entry that is wrong: after j good entries, an entry out of bounds is MEMORY_BOUNDS
at its address, an empty one EMPTY_KEY with its index, and key bytes out of bounds MEMORY_BOUNDS at theirs. -/
def Obligations.DictionaryFaults : Prop :=
  ∀ (s : State) (keys : List (List Byte)) (da cnt : Nat), keys.length < cnt → DictLaid s keys da →
    let p := da + (keys.map fun k => 1 + k.length).sum
    let len := (s.byte p).toNat
    if s.cfg.dmemSize < p + 1 then s.parseDict cnt 0 da = .error (.memRead (BitVec.ofNat 64 p))
    else if len = 0 then s.parseDict cnt 0 da = .error (.emptyKey (BitVec.ofNat 64 keys.length))
    else s.cfg.dmemSize < p + 1 + len → s.parseDict cnt 0 da = .error (.memRead (BitVec.ofNat 64 (p + 1)))

/-! ## Host and platform -/

/-- R28, R31, R246, R247: STATUS is the code of RUNSTATE, with KEYED in bit 2; HOST_START runs from START_PC in IDLE and
HALTED and is refused in RUNNING and FAULTED; while RUNNING every operation but a STATUS read and a reset is refused, and a
refused operation changes nothing. -/
def Obligations.HostStartAndRefusals : Prop :=
  ∀ s : State,
    (s.runState = .idle ∨ s.runState = .halted →
      s.host .start = (.done, { s with pc := s.startPc, runState := .running })) ∧
    (s.runState = .running ∨ s.runState = .faulted → s.host .start = (.refused, s)) ∧
    s.host .readStatus = (.status s.status, s) ∧
    s.status.toNat = (match s.runState with
      | .idle => 0
      | .running => 1
      | .halted => 2
      | .faulted => 3) + (if s.keyed then 4 else 0) ∧
    (s.runState = .running → ∀ op, op ≠ .readStatus → (∀ point, op ≠ .reset point) → s.host op = (.refused, s)) ∧
    (∀ op, (s.host op).1 = .refused → (s.host op).2 = s)

/-- R32, R245: what the host reads and writes in an engine that is not RUNNING, every register of R32 among it, and the
arguments that are refused. The numbers the host gives are unbounded (log 18). -/
def Obligations.HostAccesses : Prop :=
  ∀ s : State, s.runState ≠ .running →
    (∀ v, s.host (.writeStartPc v) = (.done, { s with startPc := v })) ∧
    (∀ no, 6 < no → s.host (.readCsr no) = (.refused, s)) ∧
    (s.host (.readCsr 0) = (.csr (s.status.setWidth 64), s) ∧ s.host (.readCsr 1) = (.csr (s.startPc.setWidth 64), s) ∧
      s.host (.readCsr 2) = (.csr (s.pc.setWidth 64), s) ∧ s.host (.readCsr 3) = (.csr (s.fcause.setWidth 64), s) ∧
      s.host (.readCsr 4) = (.csr (s.fdetail.setWidth 64), s) ∧ s.host (.readCsr 5) = (.csr (s.fpc.setWidth 64), s) ∧
      s.host (.readCsr 6) = (.csr s.finfo, s)) ∧
    (∀ n : Reg, s.host (.readReg n.val) = (.cell (s.reg n).tag (s.reg n).value, s)) ∧
    (∀ n, 16 ≤ n → s.host (.readReg n) = (.refused, s)) ∧
    (∀ n t v, 16 ≤ n ∨ t = .u ∨ 2 ^ t.width ≤ v → s.host (.writeReg n t v) = (.refused, s)) ∧
    (∀ (n : Reg) t v, t ≠ .u → v < 2 ^ t.width →
      ∃ c, c.tag = t ∧ c.value.toNat = v ∧ s.host (.writeReg n.val t v) = (.done, s.setReg n c) ∧
        (s.setReg n c).reg n = c ∧ ∀ m, m ≠ n → (s.setReg n c).reg m = s.reg m) ∧
    (∀ a n, s.host (.readDmem a n) =
      if a + n ≤ s.cfg.dmemSize then (.bytes (s.readBytes a n), s) else (.refused, s)) ∧
    (∀ a bs, s.host (.writeDmem a bs) =
      if a + bs.length ≤ s.cfg.dmemSize then (.done, s.storeBytes a bs) else (.refused, s)) ∧
    (∀ i, s.host (.readCmd i) = if i < s.cfg.cmdDepth then (.command (s.cmdWord i), s) else (.refused, s)) ∧
    (∀ i w, i < s.cfg.cmdDepth → s.host (.writeCmd i w) = (.done, s.storeCmd i w) ∧
      (s.storeCmd i w).cmdWord i = w ∧ ∀ j, j ≠ i → (s.storeCmd i w).cmdWord j = s.cmdWord j) ∧
    (∀ i w, s.cfg.cmdDepth ≤ i → s.host (.writeCmd i w) = (.refused, s))

/-- R9: raw parameters have a configuration exactly when they are well formed, and then it holds those values. -/
def Obligations.OnlyWellFormedParametersHaveRuns : Prop :=
  ∀ p : Parameters,
    (p.configure?.isSome = true ↔
      p.eTable.length = 48 ∧ (∀ e ∈ p.eTable, 1 ≤ e ∧ e ≤ 32) ∧ p.pTable.length = 32 ∧
      (∀ e ∈ p.pTable, 1 ≤ e ∧ e ≤ 32) ∧ p.sbox.length = 4 ∧
      (∀ row ∈ p.sbox, row.length = 16 ∧ ∀ v ∈ row, v ≤ 15) ∧
      (16 ≤ p.dmemSize ∧ p.dmemSize ≤ 2 ^ 32) ∧ 1 ≤ p.cmdDepth ∧ p.cmdDepth ≤ 2 ^ 32 - 1) ∧
    (∀ c, p.configure? = some c →
      c.dmemSize = p.dmemSize ∧ c.cmdDepth = p.cmdDepth ∧ (∀ i : Fin 48, c.eEntry i = p.eTable.getD i.val 0) ∧
      (∀ i : Fin 32, c.pEntry i = p.pTable.getD i.val 0) ∧
      ∀ (r : Fin 4) (k : Fin 16), (c.sboxEntry r k).toNat = (p.sbox.getD r.val []).getD k.val 0)

/-- R91: LI64 loads any 64-bit constant, writing rd only; LB32, LB48 and LB64 load a block constant, and the first two are
rejected exactly for a constant that does not fit. -/
def Obligations.PseudoInstructionsLoadConstants : Prop :=
  ∀ (s : State) (rd : Reg) (v : Scalar),
    (∃ t, execAll (li64 rd v) s = .next t ∧ t.reg rd = .scalar v ∧ (∀ n, n ≠ rd → t.reg n = s.reg n) ∧
      ∀ a, t.byte a = s.byte a) ∧
    (∀ is, lb32? rd v = some is → v.toNat < 2 ^ 32 ∧
      ∃ t, execAll is s = .next t ∧ t.reg rd = .block (.b32 (BitVec.ofNat 32 v.toNat))) ∧
    (∀ is, lb48? rd v = some is → v.toNat < 2 ^ 48 ∧
      ∃ t, execAll is s = .next t ∧ t.reg rd = .block (.b48 (BitVec.ofNat 48 v.toNat))) ∧
    (lb32? rd v = none ↔ 2 ^ 32 ≤ v.toNat) ∧ (lb48? rd v = none ↔ 2 ^ 48 ≤ v.toNat) ∧
    ∃ t, execAll (lb64 rd v) s = .next t ∧ t.reg rd = .block (.b64 v)
end

