-- ==== Sys2Proof/Laws/State.lean ====
section
/-! SUPPORT. One lemma per field per update of the state, each true by rfl, so that no proof unfolds a record update. -/

namespace Sys2Proof.Machine

variable (s : State)

/-! ## setReg -/

@[simp] theorem State.setReg_cfg (n : Reg) (c : Cell) : (s.setReg n c).cfg = s.cfg := rfl
@[simp] theorem State.setReg_powerUp (n : Reg) (c : Cell) : (s.setReg n c).powerUp = s.powerUp := rfl
@[simp] theorem State.setReg_pc (n : Reg) (c : Cell) : (s.setReg n c).pc = s.pc := rfl
@[simp] theorem State.setReg_keyed (n : Reg) (c : Cell) : (s.setReg n c).keyed = s.keyed := rfl
@[simp] theorem State.setReg_key (n : Reg) (c : Cell) : (s.setReg n c).key = s.key := rfl
@[simp] theorem State.setReg_sk (n : Reg) (c : Cell) : (s.setReg n c).sk = s.sk := rfl
@[simp] theorem State.setReg_runState (n : Reg) (c : Cell) : (s.setReg n c).runState = s.runState := rfl
@[simp] theorem State.setReg_fcause (n : Reg) (c : Cell) : (s.setReg n c).fcause = s.fcause := rfl
@[simp] theorem State.setReg_fdetail (n : Reg) (c : Cell) : (s.setReg n c).fdetail = s.fdetail := rfl
@[simp] theorem State.setReg_fpc (n : Reg) (c : Cell) : (s.setReg n c).fpc = s.fpc := rfl
@[simp] theorem State.setReg_finfo (n : Reg) (c : Cell) : (s.setReg n c).finfo = s.finfo := rfl
@[simp] theorem State.setReg_startPc (n : Reg) (c : Cell) : (s.setReg n c).startPc = s.startPc := rfl
@[simp] theorem State.setReg_dmem (n : Reg) (c : Cell) : (s.setReg n c).dmem = s.dmem := rfl
@[simp] theorem State.setReg_cmdMem (n : Reg) (c : Cell) : (s.setReg n c).cmdMem = s.cmdMem := rfl

/-! ## advance -/

@[simp] theorem State.advance_cfg : (s.advance).cfg = s.cfg := rfl
@[simp] theorem State.advance_powerUp : (s.advance).powerUp = s.powerUp := rfl
@[simp] theorem State.advance_regs : (s.advance).regs = s.regs := rfl
@[simp] theorem State.advance_pc : (s.advance).pc = s.pc + 1 := rfl
@[simp] theorem State.advance_keyed : (s.advance).keyed = s.keyed := rfl
@[simp] theorem State.advance_key : (s.advance).key = s.key := rfl
@[simp] theorem State.advance_sk : (s.advance).sk = s.sk := rfl
@[simp] theorem State.advance_runState : (s.advance).runState = s.runState := rfl
@[simp] theorem State.advance_fcause : (s.advance).fcause = s.fcause := rfl
@[simp] theorem State.advance_fdetail : (s.advance).fdetail = s.fdetail := rfl
@[simp] theorem State.advance_fpc : (s.advance).fpc = s.fpc := rfl
@[simp] theorem State.advance_finfo : (s.advance).finfo = s.finfo := rfl
@[simp] theorem State.advance_startPc : (s.advance).startPc = s.startPc := rfl
@[simp] theorem State.advance_dmem : (s.advance).dmem = s.dmem := rfl
@[simp] theorem State.advance_cmdMem : (s.advance).cmdMem = s.cmdMem := rfl

/-! ## storeBytes -/

@[simp] theorem State.storeBytes_cfg (a : Nat) (bs : List Byte) : (s.storeBytes a bs).cfg = s.cfg := rfl
@[simp] theorem State.storeBytes_powerUp (a : Nat) (bs : List Byte) : (s.storeBytes a bs).powerUp = s.powerUp := rfl
@[simp] theorem State.storeBytes_regs (a : Nat) (bs : List Byte) : (s.storeBytes a bs).regs = s.regs := rfl
@[simp] theorem State.storeBytes_pc (a : Nat) (bs : List Byte) : (s.storeBytes a bs).pc = s.pc := rfl
@[simp] theorem State.storeBytes_keyed (a : Nat) (bs : List Byte) : (s.storeBytes a bs).keyed = s.keyed := rfl
@[simp] theorem State.storeBytes_key (a : Nat) (bs : List Byte) : (s.storeBytes a bs).key = s.key := rfl
@[simp] theorem State.storeBytes_sk (a : Nat) (bs : List Byte) : (s.storeBytes a bs).sk = s.sk := rfl
@[simp] theorem State.storeBytes_runState (a : Nat) (bs : List Byte) : (s.storeBytes a bs).runState = s.runState := rfl
@[simp] theorem State.storeBytes_fcause (a : Nat) (bs : List Byte) : (s.storeBytes a bs).fcause = s.fcause := rfl
@[simp] theorem State.storeBytes_fdetail (a : Nat) (bs : List Byte) : (s.storeBytes a bs).fdetail = s.fdetail := rfl
@[simp] theorem State.storeBytes_fpc (a : Nat) (bs : List Byte) : (s.storeBytes a bs).fpc = s.fpc := rfl
@[simp] theorem State.storeBytes_finfo (a : Nat) (bs : List Byte) : (s.storeBytes a bs).finfo = s.finfo := rfl
@[simp] theorem State.storeBytes_startPc (a : Nat) (bs : List Byte) : (s.storeBytes a bs).startPc = s.startPc := rfl
@[simp] theorem State.storeBytes_dmem (a : Nat) (bs : List Byte) : (s.storeBytes a bs).dmem = Memory.putAll s.dmem a bs := rfl
@[simp] theorem State.storeBytes_cmdMem (a : Nat) (bs : List Byte) : (s.storeBytes a bs).cmdMem = s.cmdMem := rfl

/-! ## storeCmd -/

@[simp] theorem State.storeCmd_cfg (i : Nat) (w : Command) : (s.storeCmd i w).cfg = s.cfg := rfl
@[simp] theorem State.storeCmd_powerUp (i : Nat) (w : Command) : (s.storeCmd i w).powerUp = s.powerUp := rfl
@[simp] theorem State.storeCmd_regs (i : Nat) (w : Command) : (s.storeCmd i w).regs = s.regs := rfl
@[simp] theorem State.storeCmd_pc (i : Nat) (w : Command) : (s.storeCmd i w).pc = s.pc := rfl
@[simp] theorem State.storeCmd_keyed (i : Nat) (w : Command) : (s.storeCmd i w).keyed = s.keyed := rfl
@[simp] theorem State.storeCmd_key (i : Nat) (w : Command) : (s.storeCmd i w).key = s.key := rfl
@[simp] theorem State.storeCmd_sk (i : Nat) (w : Command) : (s.storeCmd i w).sk = s.sk := rfl
@[simp] theorem State.storeCmd_runState (i : Nat) (w : Command) : (s.storeCmd i w).runState = s.runState := rfl
@[simp] theorem State.storeCmd_fcause (i : Nat) (w : Command) : (s.storeCmd i w).fcause = s.fcause := rfl
@[simp] theorem State.storeCmd_fdetail (i : Nat) (w : Command) : (s.storeCmd i w).fdetail = s.fdetail := rfl
@[simp] theorem State.storeCmd_fpc (i : Nat) (w : Command) : (s.storeCmd i w).fpc = s.fpc := rfl
@[simp] theorem State.storeCmd_finfo (i : Nat) (w : Command) : (s.storeCmd i w).finfo = s.finfo := rfl
@[simp] theorem State.storeCmd_startPc (i : Nat) (w : Command) : (s.storeCmd i w).startPc = s.startPc := rfl
@[simp] theorem State.storeCmd_dmem (i : Nat) (w : Command) : (s.storeCmd i w).dmem = s.dmem := rfl
@[simp] theorem State.storeCmd_cmdMem (i : Nat) (w : Command) : (s.storeCmd i w).cmdMem = Memory.put s.cmdMem i w := rfl

/-! ## bindKey -/

@[simp] theorem State.bindKey_cfg (k : Block64) (v : Vector Subkey 16) : (s.bindKey k v).cfg = s.cfg := rfl
@[simp] theorem State.bindKey_powerUp (k : Block64) (v : Vector Subkey 16) : (s.bindKey k v).powerUp = s.powerUp := rfl
@[simp] theorem State.bindKey_regs (k : Block64) (v : Vector Subkey 16) : (s.bindKey k v).regs = s.regs := rfl
@[simp] theorem State.bindKey_pc (k : Block64) (v : Vector Subkey 16) : (s.bindKey k v).pc = s.pc := rfl
@[simp] theorem State.bindKey_keyed (k : Block64) (v : Vector Subkey 16) : (s.bindKey k v).keyed = true := rfl
@[simp] theorem State.bindKey_key (k : Block64) (v : Vector Subkey 16) : (s.bindKey k v).key = k := rfl
@[simp] theorem State.bindKey_sk (k : Block64) (v : Vector Subkey 16) : (s.bindKey k v).sk = v := rfl
@[simp] theorem State.bindKey_runState (k : Block64) (v : Vector Subkey 16) : (s.bindKey k v).runState = s.runState := rfl
@[simp] theorem State.bindKey_fcause (k : Block64) (v : Vector Subkey 16) : (s.bindKey k v).fcause = s.fcause := rfl
@[simp] theorem State.bindKey_fdetail (k : Block64) (v : Vector Subkey 16) : (s.bindKey k v).fdetail = s.fdetail := rfl
@[simp] theorem State.bindKey_fpc (k : Block64) (v : Vector Subkey 16) : (s.bindKey k v).fpc = s.fpc := rfl
@[simp] theorem State.bindKey_finfo (k : Block64) (v : Vector Subkey 16) : (s.bindKey k v).finfo = s.finfo := rfl
@[simp] theorem State.bindKey_startPc (k : Block64) (v : Vector Subkey 16) : (s.bindKey k v).startPc = s.startPc := rfl
@[simp] theorem State.bindKey_dmem (k : Block64) (v : Vector Subkey 16) : (s.bindKey k v).dmem = s.dmem := rfl
@[simp] theorem State.bindKey_cmdMem (k : Block64) (v : Vector Subkey 16) : (s.bindKey k v).cmdMem = s.cmdMem := rfl

/-! ## halt -/

@[simp] theorem State.halt_cfg : (s.halt).cfg = s.cfg := rfl
@[simp] theorem State.halt_powerUp : (s.halt).powerUp = s.powerUp := rfl
@[simp] theorem State.halt_regs : (s.halt).regs = s.regs := rfl
@[simp] theorem State.halt_pc : (s.halt).pc = s.pc := rfl
@[simp] theorem State.halt_keyed : (s.halt).keyed = s.keyed := rfl
@[simp] theorem State.halt_key : (s.halt).key = s.key := rfl
@[simp] theorem State.halt_sk : (s.halt).sk = s.sk := rfl
@[simp] theorem State.halt_runState : (s.halt).runState = .halted := rfl
@[simp] theorem State.halt_fcause : (s.halt).fcause = s.fcause := rfl
@[simp] theorem State.halt_fdetail : (s.halt).fdetail = s.fdetail := rfl
@[simp] theorem State.halt_fpc : (s.halt).fpc = s.fpc := rfl
@[simp] theorem State.halt_finfo : (s.halt).finfo = s.finfo := rfl
@[simp] theorem State.halt_startPc : (s.halt).startPc = s.startPc := rfl
@[simp] theorem State.halt_dmem : (s.halt).dmem = s.dmem := rfl
@[simp] theorem State.halt_cmdMem : (s.halt).cmdMem = s.cmdMem := rfl

/-! ## takeFault -/

@[simp] theorem State.takeFault_cfg (r : Raise) : (s.takeFault r).cfg = s.cfg := rfl
@[simp] theorem State.takeFault_powerUp (r : Raise) : (s.takeFault r).powerUp = s.powerUp := rfl
@[simp] theorem State.takeFault_regs (r : Raise) : (s.takeFault r).regs = s.regs := rfl
@[simp] theorem State.takeFault_pc (r : Raise) : (s.takeFault r).pc = s.pc := rfl
@[simp] theorem State.takeFault_keyed (r : Raise) : (s.takeFault r).keyed = s.keyed := rfl
@[simp] theorem State.takeFault_key (r : Raise) : (s.takeFault r).key = s.key := rfl
@[simp] theorem State.takeFault_sk (r : Raise) : (s.takeFault r).sk = s.sk := rfl
@[simp] theorem State.takeFault_runState (r : Raise) : (s.takeFault r).runState = .faulted := rfl
@[simp] theorem State.takeFault_fcause (r : Raise) : (s.takeFault r).fcause = r.cause := rfl
@[simp] theorem State.takeFault_fdetail (r : Raise) : (s.takeFault r).fdetail = r.detail := rfl
@[simp] theorem State.takeFault_fpc (r : Raise) : (s.takeFault r).fpc = s.pc := rfl
@[simp] theorem State.takeFault_finfo (r : Raise) : (s.takeFault r).finfo = r.info := rfl
@[simp] theorem State.takeFault_startPc (r : Raise) : (s.takeFault r).startPc = s.startPc := rfl
@[simp] theorem State.takeFault_dmem (r : Raise) : (s.takeFault r).dmem = s.dmem := rfl
@[simp] theorem State.takeFault_cmdMem (r : Raise) : (s.takeFault r).cmdMem = s.cmdMem := rfl

/-! ## setStartPc -/

@[simp] theorem State.setStartPc_cfg (v : BitVec 32) : (s.setStartPc v).cfg = s.cfg := rfl
@[simp] theorem State.setStartPc_powerUp (v : BitVec 32) : (s.setStartPc v).powerUp = s.powerUp := rfl
@[simp] theorem State.setStartPc_regs (v : BitVec 32) : (s.setStartPc v).regs = s.regs := rfl
@[simp] theorem State.setStartPc_pc (v : BitVec 32) : (s.setStartPc v).pc = s.pc := rfl
@[simp] theorem State.setStartPc_keyed (v : BitVec 32) : (s.setStartPc v).keyed = s.keyed := rfl
@[simp] theorem State.setStartPc_key (v : BitVec 32) : (s.setStartPc v).key = s.key := rfl
@[simp] theorem State.setStartPc_sk (v : BitVec 32) : (s.setStartPc v).sk = s.sk := rfl
@[simp] theorem State.setStartPc_runState (v : BitVec 32) : (s.setStartPc v).runState = s.runState := rfl
@[simp] theorem State.setStartPc_fcause (v : BitVec 32) : (s.setStartPc v).fcause = s.fcause := rfl
@[simp] theorem State.setStartPc_fdetail (v : BitVec 32) : (s.setStartPc v).fdetail = s.fdetail := rfl
@[simp] theorem State.setStartPc_fpc (v : BitVec 32) : (s.setStartPc v).fpc = s.fpc := rfl
@[simp] theorem State.setStartPc_finfo (v : BitVec 32) : (s.setStartPc v).finfo = s.finfo := rfl
@[simp] theorem State.setStartPc_startPc (v : BitVec 32) : (s.setStartPc v).startPc = v := rfl
@[simp] theorem State.setStartPc_dmem (v : BitVec 32) : (s.setStartPc v).dmem = s.dmem := rfl
@[simp] theorem State.setStartPc_cmdMem (v : BitVec 32) : (s.setStartPc v).cmdMem = s.cmdMem := rfl

/-! ## startRun -/

@[simp] theorem State.startRun_cfg : (s.startRun).cfg = s.cfg := rfl
@[simp] theorem State.startRun_powerUp : (s.startRun).powerUp = s.powerUp := rfl
@[simp] theorem State.startRun_regs : (s.startRun).regs = s.regs := rfl
@[simp] theorem State.startRun_pc : (s.startRun).pc = s.startPc := rfl
@[simp] theorem State.startRun_keyed : (s.startRun).keyed = s.keyed := rfl
@[simp] theorem State.startRun_key : (s.startRun).key = s.key := rfl
@[simp] theorem State.startRun_sk : (s.startRun).sk = s.sk := rfl
@[simp] theorem State.startRun_runState : (s.startRun).runState = .running := rfl
@[simp] theorem State.startRun_fcause : (s.startRun).fcause = s.fcause := rfl
@[simp] theorem State.startRun_fdetail : (s.startRun).fdetail = s.fdetail := rfl
@[simp] theorem State.startRun_fpc : (s.startRun).fpc = s.fpc := rfl
@[simp] theorem State.startRun_finfo : (s.startRun).finfo = s.finfo := rfl
@[simp] theorem State.startRun_startPc : (s.startRun).startPc = s.startPc := rfl
@[simp] theorem State.startRun_dmem : (s.startRun).dmem = s.dmem := rfl
@[simp] theorem State.startRun_cmdMem : (s.startRun).cmdMem = s.cmdMem := rfl

/-! ## resetAgain -/

@[simp] theorem State.resetAgain_cfg : (s.resetAgain).cfg = s.cfg := rfl
@[simp] theorem State.resetAgain_powerUp : (s.resetAgain).powerUp = s.powerUp := rfl
@[simp] theorem State.resetAgain_regs : (s.resetAgain).regs = Vector.replicate 16 .unwritten := rfl
@[simp] theorem State.resetAgain_pc : (s.resetAgain).pc = 0 := rfl
@[simp] theorem State.resetAgain_keyed : (s.resetAgain).keyed = false := rfl
@[simp] theorem State.resetAgain_key : (s.resetAgain).key = 0 := rfl
@[simp] theorem State.resetAgain_sk : (s.resetAgain).sk = Vector.replicate 16 0 := rfl
@[simp] theorem State.resetAgain_runState : (s.resetAgain).runState = .idle := rfl
@[simp] theorem State.resetAgain_fcause : (s.resetAgain).fcause = 0 := rfl
@[simp] theorem State.resetAgain_fdetail : (s.resetAgain).fdetail = 0 := rfl
@[simp] theorem State.resetAgain_fpc : (s.resetAgain).fpc = 0 := rfl
@[simp] theorem State.resetAgain_finfo : (s.resetAgain).finfo = 0 := rfl
@[simp] theorem State.resetAgain_startPc : (s.resetAgain).startPc = 0 := rfl
@[simp] theorem State.resetAgain_dmem : (s.resetAgain).dmem = s.dmem := rfl
@[simp] theorem State.resetAgain_cmdMem : (s.resetAgain).cmdMem = s.cmdMem := rfl

/-! ## Reading a register or a memory after an update -/

@[simp] theorem State.setReg_reg_same (n : Reg) (c : Cell) : (s.setReg n c).reg n = c := by
  simp [State.setReg, State.reg]

theorem State.setReg_reg_other (m n : Reg) (c : Cell) (h : m ≠ n) : (s.setReg n c).reg m = s.reg m := by
  have hv : n.val ≠ m.val := fun e => h (Fin.ext e.symm)
  simp [State.setReg, State.reg, hv]

@[simp] theorem State.advance_reg (m : Reg) : (s.advance).reg m = s.reg m := rfl
@[simp] theorem State.storeBytes_reg (a : Nat) (bs : List Byte) (m : Reg) : (s.storeBytes a bs).reg m = s.reg m := rfl
@[simp] theorem State.storeCmd_reg (i : Nat) (w : Command) (m : Reg) : (s.storeCmd i w).reg m = s.reg m := rfl
@[simp] theorem State.bindKey_reg (k : Block64) (v : Vector Subkey 16) (m : Reg) : (s.bindKey k v).reg m = s.reg m := rfl
@[simp] theorem State.halt_reg (m : Reg) : (s.halt).reg m = s.reg m := rfl
@[simp] theorem State.takeFault_reg (r : Raise) (m : Reg) : (s.takeFault r).reg m = s.reg m := rfl
@[simp] theorem State.setStartPc_reg (v : BitVec 32) (m : Reg) : (s.setStartPc v).reg m = s.reg m := rfl
@[simp] theorem State.startRun_reg (m : Reg) : (s.startRun).reg m = s.reg m := rfl

@[simp] theorem State.resetAgain_reg (m : Reg) : s.resetAgain.reg m = .unwritten := by
  simp [State.reg]

@[simp] theorem State.setReg_byte (n : Reg) (c : Cell) (m : Nat) : (s.setReg n c).byte m = s.byte m := rfl
@[simp] theorem State.advance_byte (m : Nat) : (s.advance).byte m = s.byte m := rfl
@[simp] theorem State.storeCmd_byte (i : Nat) (w : Command) (m : Nat) : (s.storeCmd i w).byte m = s.byte m := rfl
@[simp] theorem State.bindKey_byte (k : Block64) (v : Vector Subkey 16) (m : Nat) : (s.bindKey k v).byte m = s.byte m := rfl
@[simp] theorem State.halt_byte (m : Nat) : (s.halt).byte m = s.byte m := rfl
@[simp] theorem State.takeFault_byte (r : Raise) (m : Nat) : (s.takeFault r).byte m = s.byte m := rfl
@[simp] theorem State.setStartPc_byte (v : BitVec 32) (m : Nat) : (s.setStartPc v).byte m = s.byte m := rfl
@[simp] theorem State.startRun_byte (m : Nat) : (s.startRun).byte m = s.byte m := rfl
@[simp] theorem State.resetAgain_byte (m : Nat) : (s.resetAgain).byte m = s.byte m := rfl

@[simp] theorem State.setReg_cmdWord (n : Reg) (c : Cell) (m : Nat) : (s.setReg n c).cmdWord m = s.cmdWord m := rfl
@[simp] theorem State.advance_cmdWord (m : Nat) : (s.advance).cmdWord m = s.cmdWord m := rfl
@[simp] theorem State.storeBytes_cmdWord (a : Nat) (bs : List Byte) (m : Nat) : (s.storeBytes a bs).cmdWord m = s.cmdWord m := rfl
@[simp] theorem State.bindKey_cmdWord (k : Block64) (v : Vector Subkey 16) (m : Nat) : (s.bindKey k v).cmdWord m = s.cmdWord m := rfl
@[simp] theorem State.halt_cmdWord (m : Nat) : (s.halt).cmdWord m = s.cmdWord m := rfl
@[simp] theorem State.takeFault_cmdWord (r : Raise) (m : Nat) : (s.takeFault r).cmdWord m = s.cmdWord m := rfl
@[simp] theorem State.setStartPc_cmdWord (v : BitVec 32) (m : Nat) : (s.setStartPc v).cmdWord m = s.cmdWord m := rfl
@[simp] theorem State.startRun_cmdWord (m : Nat) : (s.startRun).cmdWord m = s.cmdWord m := rfl
@[simp] theorem State.resetAgain_cmdWord (m : Nat) : (s.resetAgain).cmdWord m = s.cmdWord m := rfl

end Sys2Proof.Machine
end

