-- ==== Sys2Proof/Laws/Memory.lean ====
section
/-! SUPPORT. The laws of the memory operations: read after write, every other address unchanged, and the canonical form
kept. -/

namespace Sys2Proof.Machine

variable {w : Nat}

theorem Memory.look_put_same (m : Memory w) (a : Nat) (v : BitVec w) : Memory.look (Memory.put m a v) a = some v := by
  induction m with
  | nil => simp [Memory.put, Memory.look]
  | cons e m ih =>
    obtain ⟨b, x⟩ := e
    simp only [Memory.put]
    split
    · simp [Memory.look]
    · split
      · simp [Memory.look]
      · rename_i h1 h2
        simp [Memory.look, ih, Ne.symm h2]

theorem Memory.look_put_other (m : Memory w) (a b : Nat) (v : BitVec w) (h : b ≠ a) :
    Memory.look (Memory.put m a v) b = Memory.look m b := by
  induction m with
  | nil => simp [Memory.put, Memory.look, Ne.symm h]
  | cons e m ih =>
    obtain ⟨c, x⟩ := e
    simp only [Memory.put]
    split
    · simp [Memory.look, Ne.symm h]
    · split
      · subst_vars
        simp [Memory.look, Ne.symm h]
      · simp [Memory.look, ih]

/-- Every address a write lists was listed before or is the address written. -/
theorem Memory.mem_put {m : Memory w} {a : Nat} {v : BitVec w} {e : Nat × BitVec w} (h : e ∈ Memory.put m a v) :
    e ∈ m ∨ e = (a, v) := by
  induction m with
  | nil => simpa [Memory.put] using h
  | cons d m ih =>
    obtain ⟨b, x⟩ := d
    simp only [Memory.put] at h
    split at h
    · simp only [List.mem_cons] at h ⊢
      tauto
    · split at h
      · simp only [List.mem_cons] at h ⊢
        tauto
      · simp only [List.mem_cons] at h ⊢
        rcases h with h | h
        · exact .inl (.inl h)
        · rcases ih h with h | h
          · exact .inl (.inr h)
          · exact .inr h

theorem Memory.wf_cons {b : Nat} {x : BitVec w} {m : Memory w} :
    Memory.wf ((b, x) :: m) ↔ (∀ e ∈ m, b < e.1) ∧ Memory.wf m := by
  simp [Memory.wf, List.pairwise_cons]

/-- A write keeps the canonical form. -/
theorem Memory.wf_put {m : Memory w} (h : Memory.wf m) (a : Nat) (v : BitVec w) : Memory.wf (Memory.put m a v) := by
  induction m with
  | nil => simp [Memory.put, Memory.wf]
  | cons e m ih =>
    obtain ⟨b, x⟩ := e
    obtain ⟨hb, hm⟩ := Memory.wf_cons.1 h
    simp only [Memory.put]
    split
    · rename_i hab
      refine Memory.wf_cons.2 ⟨fun e he => ?_, h⟩
      rcases List.mem_cons.1 he with rfl | he
      · exact hab
      · exact Nat.lt_trans hab (hb e he)
    · split
      · subst_vars
        exact Memory.wf_cons.2 ⟨hb, hm⟩
      · rename_i h1 h2
        refine Memory.wf_cons.2 ⟨fun e he => ?_, ih hm⟩
        rcases Memory.mem_put he with he | rfl
        · exact hb e he
        · show b < a
          omega

/-- Writing a sequence keeps the canonical form. -/
theorem Memory.wf_putAll {m : Memory w} (h : Memory.wf m) (a : Nat) (vs : List (BitVec w)) :
    Memory.wf (Memory.putAll m a vs) := by
  induction vs generalizing m a with
  | nil => exact h
  | cons v vs ih => exact ih (Memory.wf_put h a v) (a + 1)

/-- Every address listed after writing a sequence was listed before or lies in the region written. -/
theorem Memory.mem_putAll {m : Memory w} {a : Nat} {vs : List (BitVec w)} {e : Nat × BitVec w}
    (h : e ∈ Memory.putAll m a vs) : e ∈ m ∨ (a ≤ e.1 ∧ e.1 < a + vs.length) := by
  induction vs generalizing m a with
  | nil => exact .inl h
  | cons v vs ih =>
    rcases ih h with h | h
    · rcases Memory.mem_put h with h | rfl
      · exact .inl h
      · exact .inr ⟨Nat.le_refl a, by simp⟩
    · simp only [List.length_cons]
      exact .inr ⟨by omega, by omega⟩

theorem Memory.look_putAll_outside (m : Memory w) (a b : Nat) (vs : List (BitVec w))
    (h : b < a ∨ a + vs.length ≤ b) : Memory.look (Memory.putAll m a vs) b = Memory.look m b := by
  induction vs generalizing m a with
  | nil => rfl
  | cons v vs ih =>
    simp only [List.length_cons] at h
    simp only [Memory.putAll]
    rw [ih _ _ (by omega), Memory.look_put_other _ _ _ _ (by omega)]

theorem Memory.look_putAll_inside (m : Memory w) (a k : Nat) (vs : List (BitVec w)) (h : k < vs.length) :
    Memory.look (Memory.putAll m a vs) (a + k) = some vs[k] := by
  induction vs generalizing m a k with
  | nil => simp at h
  | cons v vs ih =>
    simp only [Memory.putAll]
    cases k with
    | zero =>
      rw [Memory.look_putAll_outside _ _ _ _ (.inl (by omega)), Nat.add_zero, Memory.look_put_same]
      rfl
    | succ k =>
      have := ih (m.put a v) (a + 1) k (by simpa using h)
      rw [show a + (k + 1) = a + 1 + k by omega, this]
      rfl

/-! ## The same for a state's DMEM and CMDMEM -/

variable (s : State)

theorem State.storeBytes_byte_inside (a k : Nat) (bs : List Byte) (h : k < bs.length) :
    (s.storeBytes a bs).byte (a + k) = bs[k] := by
  have := Memory.look_putAll_inside s.dmem a k bs h
  simp [State.byte, this]

theorem State.storeBytes_byte_outside (a b : Nat) (bs : List Byte) (h : b < a ∨ a + bs.length ≤ b) :
    (s.storeBytes a bs).byte b = s.byte b := by
  have := Memory.look_putAll_outside s.dmem a b bs h
  simp [State.byte, this]

theorem State.storeCmd_cmdWord_same (i : Nat) (c : Command) : (s.storeCmd i c).cmdWord i = c := by
  simp [State.cmdWord, Memory.look_put_same]

theorem State.storeCmd_cmdWord_other (i j : Nat) (c : Command) (h : j ≠ i) :
    (s.storeCmd i c).cmdWord j = s.cmdWord j := by
  simp [State.cmdWord, Memory.look_put_other _ _ _ _ h]

@[simp] theorem State.readBytes_length (a n : Nat) : (s.readBytes a n).length = n := by
  simp [State.readBytes]

@[simp] theorem State.readBytes_getElem (a n k : Nat) (h : k < (s.readBytes a n).length) :
    (s.readBytes a n)[k] = s.byte (a + k) := by
  simp [State.readBytes]

theorem State.readBytes_getD (a n k : Nat) (d : Byte) (h : k < n) : (s.readBytes a n).getD k d = s.byte (a + k) := by
  simp [List.getD, h]

end Sys2Proof.Machine
end

