-- ==== Sys2Proof/Laws/Bits.lean ====
section
/-! SUPPORT. The laws of the bit operations: a word built bit by bit, the big-endian packing, and the block functions. -/

namespace Sys2Proof.Machine

theorem getLsbD_bitsOf (w : Nat) (f : Fin w → Bool) (i : Nat) :
    (bitsOf w f).getLsbD i = if h : i < w then f ⟨i, h⟩ else false := by
  induction w with
  | zero => simp [bitsOf]
  | succ w ih =>
    simp only [bitsOf, BitVec.getLsbD_cons, ih]
    by_cases h : i = w
    · subst h
      simp [Fin.last]
    · by_cases h2 : i < w
      · simp [h, h2, Nat.lt_succ_of_lt h2]
      · have : ¬ i < w + 1 := by omega
        simp [h, h2, this]

@[simp] theorem unpack64_length (v : Block64) : (unpack64 v).length = 8 := rfl

@[simp] theorem unpack32_length (v : BitVec 32) : (unpack32 v).length = 4 := rfl

/-- Byte i of unpack64 (R54). -/
theorem unpack64_getD (v : Block64) (i : Nat) (h : i < 8) : (unpack64 v).getD i 0 = v.extractLsb' (8 * (7 - i)) 8 := by
  interval_cases i <;> rfl

/-- Bit k of byte i goes to block bit (7-i)*8 + k (R54). -/
theorem getLsbD_pack64 (b : List Byte) (i k : Nat) (hi : i < 8) (hk : k < 8) :
    (pack64 b).getLsbD (8 * (7 - i) + k) = (b.getD i 0).getLsbD k := by
  show (b.getD 0 0 ++ b.getD 1 0 ++ b.getD 2 0 ++ b.getD 3 0 ++ b.getD 4 0 ++ b.getD 5 0 ++ b.getD 6 0
    ++ b.getD 7 0).getLsbD _ = _
  simp only [BitVec.getLsbD_append]
  interval_cases i <;> split_ifs <;> first | omega | (congr 1; omega)

/-- Bit i of two joined halves (R134). -/
theorem getLsbD_joinHalves (h l : Half) (i : Nat) :
    (joinHalves h l).getLsbD i = if i < 32 then l.getLsbD i else h.getLsbD (i - 32) := by
  exact BitVec.getLsbD_append

theorem getLsbD_highHalf (v : Block64) (i : Nat) (h : i < 32) : (highHalf v).getLsbD i = v.getLsbD (32 + i) := by
  simp [highHalf, h]

theorem getLsbD_lowHalf (v : Block64) (i : Nat) (h : i < 32) : (lowHalf v).getLsbD i = v.getLsbD i := by
  simp [lowHalf, h]

@[simp] theorem highHalf_joinHalves (h l : Half) : highHalf (joinHalves h l) = h := by
  apply BitVec.eq_of_getLsbD_eq
  intro i hi
  rw [getLsbD_highHalf _ _ hi, getLsbD_joinHalves]
  simp

@[simp] theorem lowHalf_joinHalves (h l : Half) : lowHalf (joinHalves h l) = l := by
  apply BitVec.eq_of_getLsbD_eq
  intro i hi
  rw [getLsbD_lowHalf _ _ hi, getLsbD_joinHalves]
  simp [hi]

@[simp] theorem joinHalves_halves (v : Block64) : joinHalves (highHalf v) (lowHalf v) = v := by
  apply BitVec.eq_of_getLsbD_eq
  intro i hi
  rw [getLsbD_joinHalves]
  split
  · rename_i h
    rw [getLsbD_lowHalf _ _ h]
  · rename_i h
    rw [getLsbD_highHalf _ _ (by omega), show 32 + (i - 32) = i by omega]

end Sys2Proof.Machine
end

