-- ==== Sys2Proof/Laws/Checks.lean ====
section
/-! SUPPORT. What the shared operations can do: one lemma per operand read, per check and per end of a command. -/

namespace Sys2Proof.Machine

/-! ## Sequencing checks -/

theorem Check.bind_eq_ok {α β : Type} {c : Check α} {f : α → Check β} {b : β} :
    (c >>= f) = .ok b ↔ ∃ a, c = .ok a ∧ f a = .ok b := by
  cases c with
  | ok a => simp [bind, Except.bind]
  | error r => simp [bind, Except.bind]

theorem Check.bind_eq_error {α β : Type} {c : Check α} {f : α → Check β} {r : Raise} :
    (c >>= f) = .error r ↔ c = .error r ∨ ∃ a, c = .ok a ∧ f a = .error r := by
  cases c with
  | ok a => simp [bind, Except.bind]
  | error r => simp [bind, Except.bind]

@[simp] theorem Check.ok_bind {α β : Type} (a : α) (f : α → Check β) : ((.ok a : Check α) >>= f) = f a := rfl

@[simp] theorem Check.error_bind {α β : Type} (r : Raise) (f : α → Check β) :
    ((.error r : Check α) >>= f) = .error r := rfl

theorem ensure_eq_ok {holds : Bool} {r : Raise} {u : Unit} : ensure holds r = .ok u ↔ holds = true := by
  cases holds <;> simp [ensure]

theorem ensure_eq_error {holds : Bool} {r q : Raise} : ensure holds r = .error q ↔ holds = false ∧ q = r := by
  cases holds <;> simp [ensure, eq_comm]

/-! ## Operands (R11) -/

variable {s : State} {n : Reg} {r : Raise}

theorem State.readS_eq_ok {v : Scalar} : s.readS n = .ok v ↔ s.reg n = .scalar v := by
  unfold State.readS
  cases s.reg n <;> simp

theorem State.readS_eq_error :
    s.readS n = .error r ↔ (s.reg n = .unwritten ∧ r = .unwritten n) ∨ ∃ b, s.reg n = .block b ∧ r = .tagMismatch n := by
  unfold State.readS
  cases s.reg n <;> simp [eq_comm]

theorem State.readAnyB_eq_ok {b : Block} : s.readAnyB n = .ok b ↔ s.reg n = .block b := by
  unfold State.readAnyB
  cases s.reg n <;> simp

theorem State.readAnyB_eq_error :
    s.readAnyB n = .error r ↔
      (s.reg n = .unwritten ∧ r = .unwritten n) ∨ ∃ v, s.reg n = .scalar v ∧ r = .tagMismatch n := by
  unfold State.readAnyB
  cases s.reg n <;> simp [eq_comm]

theorem State.readB32_eq_ok {v : Half} : s.readB32 n = .ok v ↔ s.reg n = .block (.b32 v) := by
  unfold State.readB32
  split <;> simp_all

theorem State.readB32_eq_error :
    s.readB32 n = .error r ↔
      (s.reg n = .unwritten ∧ r = .unwritten n) ∨
        (s.reg n ≠ .unwritten ∧ (∀ v, s.reg n ≠ .block (.b32 v)) ∧ r = .tagMismatch n) := by
  unfold State.readB32
  split <;> simp_all <;> exact eq_comm

theorem State.readB48_eq_ok {v : Subkey} : s.readB48 n = .ok v ↔ s.reg n = .block (.b48 v) := by
  unfold State.readB48
  split <;> simp_all

theorem State.readB48_eq_error :
    s.readB48 n = .error r ↔
      (s.reg n = .unwritten ∧ r = .unwritten n) ∨
        (s.reg n ≠ .unwritten ∧ (∀ v, s.reg n ≠ .block (.b48 v)) ∧ r = .tagMismatch n) := by
  unfold State.readB48
  split <;> simp_all <;> exact eq_comm

theorem State.readB64_eq_ok {v : Block64} : s.readB64 n = .ok v ↔ s.reg n = .block (.b64 v) := by
  unfold State.readB64
  split <;> simp_all

theorem State.readB64_eq_error :
    s.readB64 n = .error r ↔
      (s.reg n = .unwritten ∧ r = .unwritten n) ∨
        (s.reg n ≠ .unwritten ∧ (∀ v, s.reg n ≠ .block (.b64 v)) ∧ r = .tagMismatch n) := by
  unfold State.readB64
  split <;> simp_all <;> exact eq_comm

theorem State.readPair_eq_ok {a b : Scalar} :
    s.readPair n = .ok (a, b) ↔ s.reg n = .scalar a ∧ s.reg (Reg.second n) = .scalar b := by
  simp only [State.readPair, Check.bind_eq_ok, State.readS_eq_ok, Except.ok.injEq, Prod.mk.injEq]
  constructor
  · rintro ⟨x, hx, y, hy, rfl, rfl⟩
    exact ⟨hx, hy⟩
  · rintro ⟨hx, hy⟩
    exact ⟨a, hx, b, hy, rfl, rfl⟩

theorem State.readPair_eq_error :
    s.readPair n = .error r ↔
      s.readS n = .error r ∨ ∃ a, s.readS n = .ok a ∧ s.readS (Reg.second n) = .error r := by
  simp [State.readPair, Check.bind_eq_error]

/-- Every operand read that fails names its register (R11). -/
theorem State.readS_error_reg (h : s.readS n = .error r) : r = .unwritten n ∨ r = .tagMismatch n := by
  rcases State.readS_eq_error.1 h with ⟨-, h⟩ | ⟨-, -, h⟩
  · exact .inl h
  · exact .inr h

theorem State.readAnyB_error_reg (h : s.readAnyB n = .error r) : r = .unwritten n ∨ r = .tagMismatch n := by
  rcases State.readAnyB_eq_error.1 h with ⟨-, h⟩ | ⟨-, -, h⟩
  · exact .inl h
  · exact .inr h

theorem State.readB32_error_reg (h : s.readB32 n = .error r) : r = .unwritten n ∨ r = .tagMismatch n := by
  rcases State.readB32_eq_error.1 h with ⟨-, h⟩ | ⟨-, -, h⟩
  · exact .inl h
  · exact .inr h

theorem State.readB48_error_reg (h : s.readB48 n = .error r) : r = .unwritten n ∨ r = .tagMismatch n := by
  rcases State.readB48_eq_error.1 h with ⟨-, h⟩ | ⟨-, -, h⟩
  · exact .inl h
  · exact .inr h

theorem State.readB64_error_reg (h : s.readB64 n = .error r) : r = .unwritten n ∨ r = .tagMismatch n := by
  rcases State.readB64_eq_error.1 h with ⟨-, h⟩ | ⟨-, -, h⟩
  · exact .inl h
  · exact .inr h

theorem State.readPair_error_reg (h : s.readPair n = .error r) :
    (r = .unwritten n ∨ r = .tagMismatch n) ∨ (r = .unwritten (Reg.second n) ∨ r = .tagMismatch (Reg.second n)) := by
  rcases State.readPair_eq_error.1 h with h | ⟨-, -, h⟩
  · exact .inl (State.readS_error_reg h)
  · exact .inr (State.readS_error_reg h)

/-! ## Checks (R13, R58) -/

theorem State.requireKeyed_eq_ok {u : Unit} : s.requireKeyed = .ok u ↔ s.keyed = true := ensure_eq_ok

theorem State.requireKeyed_eq_error : s.requireKeyed = .error r ↔ s.keyed = false ∧ r = .notKeyed := by
  simp [State.requireKeyed, ensure_eq_error]

theorem State.inBounds_eq_true {a m : Nat} : s.inBounds a m = true ↔ a + m ≤ s.cfg.dmemSize := by
  simp [State.inBounds]

theorem State.checkRead_eq_ok {addr : Scalar} {m : Nat} {u : Unit} :
    s.checkRead addr m = .ok u ↔ addr.toNat + m ≤ s.cfg.dmemSize := by
  simp [State.checkRead, ensure_eq_ok, State.inBounds]

theorem State.checkRead_eq_error {addr : Scalar} {m : Nat} :
    s.checkRead addr m = .error r ↔ s.cfg.dmemSize < addr.toNat + m ∧ r = .memRead addr := by
  simp [State.checkRead, ensure_eq_error, State.inBounds]

theorem State.checkWrite_eq_ok {addr : Scalar} {m : Nat} {u : Unit} :
    s.checkWrite addr m = .ok u ↔ addr.toNat + m ≤ s.cfg.dmemSize := by
  simp [State.checkWrite, ensure_eq_ok, State.inBounds]

theorem State.checkWrite_eq_error {addr : Scalar} {m : Nat} :
    s.checkWrite addr m = .error r ↔ s.cfg.dmemSize < addr.toNat + m ∧ r = .memWrite addr := by
  simp [State.checkWrite, ensure_eq_error, State.inBounds]

theorem State.requireKeyed_keyed (h : s.keyed = true) : s.requireKeyed = .ok () := State.requireKeyed_eq_ok.2 h

theorem State.requireKeyed_unkeyed (h : s.keyed = false) : s.requireKeyed = .error .notKeyed :=
  State.requireKeyed_eq_error.2 ⟨h, rfl⟩

theorem State.checkRead_inside {addr : Scalar} {m : Nat} (h : addr.toNat + m ≤ s.cfg.dmemSize) :
    s.checkRead addr m = .ok () := State.checkRead_eq_ok.2 h

theorem State.checkRead_outside {addr : Scalar} {m : Nat} (h : s.cfg.dmemSize < addr.toNat + m) :
    s.checkRead addr m = .error (.memRead addr) := State.checkRead_eq_error.2 ⟨h, rfl⟩

theorem State.checkWrite_inside {addr : Scalar} {m : Nat} (h : addr.toNat + m ≤ s.cfg.dmemSize) :
    s.checkWrite addr m = .ok () := State.checkWrite_eq_ok.2 h

theorem State.checkWrite_outside {addr : Scalar} {m : Nat} (h : s.cfg.dmemSize < addr.toNat + m) :
    s.checkWrite addr m = .error (.memWrite addr) := State.checkWrite_eq_error.2 ⟨h, rfl⟩

/-! ## The end of a command (R100, R231) -/

/-- A command always answers a next state: its writes with pc advanced, or the fault entered from the state before. -/
theorem complete_eq_next {c : Check State} {t : State} :
    complete s c = .next t ↔ (∃ u, c = .ok u ∧ t = u.advance) ∨ ∃ r, c = .error r ∧ t = s.takeFault r := by
  cases c <;> simp [complete, eq_comm]

@[simp] theorem complete_ok (s u : State) : complete s (.ok u) = .next u.advance := rfl

@[simp] theorem complete_error (s : State) (r : Raise) : complete s (.error r) = .next (s.takeFault r) := rfl

end Sys2Proof.Machine
end

