-- ==== Sys2Proof/Laws/Commands.lean ====
section
/-! SUPPORT. What the operations shared by several commands can do, and the one inversion lemma of exec: what a command
that answers a next state has done. -/

namespace Sys2Proof.Machine

/-! ## Byte sequences -/

@[simp] theorem xorRepeat_length (d k : List Byte) : (xorRepeat d k).length = d.length := by simp [xorRepeat]

theorem xorRepeat_getElem (d k : List Byte) (i : Nat) (h : i < (xorRepeat d k).length) :
    (xorRepeat d k)[i] = d[i]'(by simpa using h) ^^^ k.getD (i % k.length) 0 := by
  simp [xorRepeat]

@[simp] theorem caesarShift_length (t : List Byte) (v : Scalar) : (caesarShift t v).length = t.length := by
  simp [caesarShift]

@[simp] theorem blocksOf_length (buf : List Byte) : (blocksOf buf).length = blockCount buf.length := by
  simp [blocksOf]

@[simp] theorem codeBuffer_length (f : Block64 → Block64) (buf : List Byte) :
    (codeBuffer f buf).length = 8 * blockCount buf.length := by
  have h : ∀ l : List Block64, (l.flatMap fun v => unpack64 (f v)).length = 8 * l.length := by
    intro l
    induction l with
    | nil => rfl
    | cons v l ih =>
      simp only [List.flatMap_cons, List.length_append, unpack64_length, ih, List.length_cons]
      omega
  rw [codeBuffer, h, blocksOf_length]

/-- Every record of a search has one size (R211). -/
theorem searchRecords_length_mem {c : List Byte} {trials : List Trial} {size : Nat}
    (h : ∀ t ∈ trials, t.name.length + c.length = size) : ∀ r ∈ searchRecords c trials, r.length = size := by
  intro r hr
  obtain ⟨t, ht, htr⟩ := List.mem_filterMap.1 hr
  unfold hitRecord? at htr
  split at htr
  · cases htr
    simpa using h t ht
  · cases htr

/-! ## Shared operations -/

variable {s u : State}

/-- What ENCBUF and DECBUF do when they complete (R173, R174). -/
theorem bufferCommand_eq_ok {f : Block64 → Block64} {ra p : Reg} :
    bufferCommand f ra p s = .ok u ↔
      s.keyed = true ∧ ∃ dst src n, s.readS ra = .ok dst ∧ s.readPair p = .ok (src, n) ∧
        src.toNat + n.toNat ≤ s.cfg.dmemSize ∧ dst.toNat + 8 * blockCount n.toNat ≤ s.cfg.dmemSize ∧
        u = s.storeBytes dst.toNat (codeBuffer f (s.readBytes src.toNat n.toNat)) := by
  simp only [bufferCommand, Check.bind_eq_ok, State.requireKeyed_eq_ok, State.checkRead_eq_ok, State.checkWrite_eq_ok]
  constructor
  · rintro ⟨_, hk, dst, hd, ⟨src, n⟩, hp, _, hr, _, hw, h⟩
    cases h
    exact ⟨hk, dst, src, n, hd, hp, hr, hw, rfl⟩
  · rintro ⟨hk, dst, src, n, hd, hp, hr, hw, rfl⟩
    exact ⟨(), hk, dst, hd, (src, n), hp, (), hr, (), hw, rfl⟩

/-- What the end of a search does when it completes (R213). -/
theorem searchOutput_eq_ok {rd : Reg} {oa cap : Scalar} {size : Nat} {records : List (List Byte)} :
    searchOutput s rd oa cap size records = .ok u ↔
      records.length ≤ cap.toNat ∧ oa.toNat + records.length * size ≤ s.cfg.dmemSize ∧
        u = (s.storeBytes oa.toNat records.flatten).setReg rd (.scalar (BitVec.ofNat 64 records.length)) := by
  simp only [searchOutput, Check.bind_eq_ok, ensure_eq_ok, State.checkWrite_eq_ok, decide_eq_true_eq]
  constructor
  · rintro ⟨_, hc, _, hw, h⟩
    cases h
    exact ⟨hc, hw, rfl⟩
  · rintro ⟨hc, hw, rfl⟩
    exact ⟨(), hc, (), hw, rfl⟩

theorem searchOutput_eq_error {rd : Reg} {oa cap : Scalar} {size : Nat} {records : List (List Byte)} {r : Raise} :
    searchOutput s rd oa cap size records = .error r ↔
      (cap.toNat < records.length ∧ r = .capacity (BitVec.ofNat 64 records.length)) ∨
        (records.length ≤ cap.toNat ∧ s.cfg.dmemSize < oa.toNat + records.length * size ∧ r = .memWrite oa) := by
  simp [searchOutput, Check.bind_eq_error, ensure_eq_error, ensure_eq_ok, State.checkWrite_eq_error]

/-- What BFX1 and BFX2 do when they complete (R213). -/
theorem keySearch_eq_ok {trials : List Trial} {nameLen : Nat} {rd p q : Reg} :
    keySearch trials nameLen rd p q s = .ok u ↔
      ∃ ca n oa cap, s.readPair p = .ok (ca, n) ∧ s.readPair q = .ok (oa, cap) ∧
        ca.toNat + n.toNat ≤ s.cfg.dmemSize ∧
        searchOutput s rd oa cap (nameLen + n.toNat) (searchRecords (s.readBytes ca.toNat n.toNat) trials) = .ok u := by
  simp only [keySearch, Check.bind_eq_ok, State.checkRead_eq_ok]
  constructor
  · rintro ⟨⟨ca, n⟩, hp, ⟨oa, cap⟩, hq, _, hr, h⟩
    exact ⟨ca, n, oa, cap, hp, hq, hr, h⟩
  · rintro ⟨ca, n, oa, cap, hp, hq, hr, h⟩
    exact ⟨(ca, n), hp, (oa, cap), hq, (), hr, h⟩

/-- The parse of a dictionary succeeds exactly on entries laid out as R208 says, and answers them. -/
theorem parseDict_eq_ok {cnt j p : Nat} {keys : List (List Byte)} :
    State.parseDict s cnt j p = .ok keys ↔ keys.length = cnt ∧ DictLaid s keys p := by
  induction cnt generalizing j p keys with
  | zero =>
    cases keys with
    | nil => simp [State.parseDict, DictLaid]
    | cons k ks => simp [State.parseDict]
  | succ cnt ih =>
    cases keys with
    | nil =>
      simp only [State.parseDict, List.length_nil, false_and, iff_false, (Nat.succ_ne_zero cnt).symm]
      intro h
      split at h
      · split at h
        · cases h
        · split at h
          · split at h <;> cases h
          · cases h
      · cases h
    | cons k ks =>
      simp only [State.parseDict, DictLaid, State.inBounds_eq_true, List.length_cons, Nat.succ.injEq]
      constructor
      · intro h
        split at h
        · split at h
          · cases h
          · split at h
            · split at h
              · rename_i hb hl hb2 _ _ hk
                cases h
                obtain ⟨h1, h2⟩ := ih.1 hk
                have hne : s.readBytes (p + 1) (s.byte p).toNat ≠ [] := by
                  intro he
                  have := congrArg List.length he
                  simp only [State.readBytes_length, List.length_nil] at this
                  exact hl this
                simp only [State.readBytes_length]
                exact ⟨by omega, trivial, hne, hb2, trivial, h2⟩
              · cases h
            · cases h
        · cases h
      · rintro ⟨hlen, hb, hne, hsize, hbytes, hrest⟩
        have hpos : k.length ≠ 0 := by simpa using hne
        rw [if_pos (by omega), hb, if_neg hpos, if_pos hsize, ih.2 ⟨by omega, hrest⟩, hbytes]

/-! ## What a command does -/

/-- The writes of a command that completes by advancing pc. -/
inductive Writes (i : Instr) (s : State) : State → Prop where
  /-- nothing -/
  | nothing : Writes i s s
  /-- one register -/
  | register (n : Reg) (c : Cell) : Writes i s (s.setReg n c)
  /-- a region of DMEM, in bounds -/
  | memory (a : Nat) (bs : List Byte) : storesMemory i = true → a + bs.length ≤ s.cfg.dmemSize →
      Writes i s (s.storeBytes a bs)
  /-- a region of DMEM, in bounds, and one register -/
  | both (a : Nat) (bs : List Byte) (n : Reg) (c : Cell) : storesMemory i = true → a + bs.length ≤ s.cfg.dmemSize →
      Writes i s ((s.storeBytes a bs).setReg n c)
  /-- the key, by SETKEY only and only while Uninitialized -/
  | key (rs : Reg) (k : Block64) : i = .setkey rs → s.keyed = false → Writes i s (s.bindKey k (generateSubkeys k))

/-- A command that completes with `c` of its checks has written what `Writes` allows. -/
theorem writes_of_complete {i : Instr} {s t : State} {c : Check State} (h : complete s c = .next t)
    (hw : ∀ u, c = .ok u → Writes i s u) : (∃ u, Writes i s u ∧ t = u.advance) ∨ ∃ r, t = s.takeFault r := by
  rcases complete_eq_next.1 h with ⟨u, hc, rfl⟩ | ⟨r, -, rfl⟩
  · exact .inl ⟨u, hw u hc, rfl⟩
  · exact .inr ⟨r, rfl⟩

theorem writes_of_searchOutput {i : Instr} {s u : State} {rd : Reg} {oa cap : Scalar} {size : Nat}
    {records : List (List Byte)} (h : searchOutput s rd oa cap size records = .ok u) (hi : storesMemory i = true)
    (hsize : ∀ r ∈ records, r.length = size) : Writes i s u := by
  obtain ⟨-, hb, rfl⟩ := searchOutput_eq_ok.1 h
  refine .both _ _ _ _ hi ?_
  have : records.flatten.length = records.length * size := by
    clear hb h
    induction records with
    | nil => simp
    | cons r rs ih =>
      have h1 := hsize r (by simp)
      have h2 := ih fun q hq => hsize q (by simp [hq])
      simp only [List.flatten_cons, List.length_append, h1, h2, List.length_cons]
      ring
  omega

theorem oneByteTrials_name {t : Trial} (h : t ∈ oneByteTrials) : t.name.length = 1 := by
  simp only [oneByteTrials, List.mem_map] at h
  obtain ⟨k, -, rfl⟩ := h
  rfl

theorem twoByteTrials_name {t : Trial} (h : t ∈ twoByteTrials) : t.name.length = 2 := by
  simp only [twoByteTrials, List.mem_flatMap, List.mem_map] at h
  obtain ⟨a, -, b, -, rfl⟩ := h
  rfl

theorem dictTrials_name {keys : List (List Byte)} {t : Trial} (h : t ∈ dictTrials keys) : t.name.length = 4 := by
  simp only [dictTrials, List.mem_mapIdx] at h
  obtain ⟨j, -, rfl⟩ := h
  rfl

theorem writes_of_keySearch {i : Instr} {s u : State} {trials : List Trial} {nameLen : Nat} {rd p q : Reg}
    (h : keySearch trials nameLen rd p q s = .ok u) (hi : storesMemory i = true)
    (hn : ∀ t ∈ trials, t.name.length = nameLen) : Writes i s u := by
  obtain ⟨ca, n, oa, cap, -, -, -, h⟩ := keySearch_eq_ok.1 h
  refine writes_of_searchOutput h hi (searchRecords_length_mem fun t ht => ?_)
  rw [hn t ht, State.readBytes_length]

/-- The inversion lemma of exec: a command that answers a next state either is HALT, or has completed with writes that
`Writes` allows and pc advanced, or has entered a fault from the state before. -/
theorem exec_eq_next {i : Instr} {s t : State} (h : exec i s = .next t) :
    (i = .halt ∧ t = s.halt) ∨ (∃ u, Writes i s u ∧ t = u.advance) ∨ ∃ r, t = s.takeFault r := by
  cases i with
  | halt =>
    cases h
    exact .inl ⟨rfl, rfl⟩
  | nop =>
    refine .inr (writes_of_complete (show complete s (.ok _) = _ from h) fun u hu => ?_)
    cases hu
    exact .nothing
  | li rd imm =>
    refine .inr (writes_of_complete (show complete s (.ok _) = _ from h) fun u hu => ?_)
    cases hu
    exact .register _ _
  | rdstat rd =>
    refine .inr (writes_of_complete (show complete s (.ok _) = _ from h) fun u hu => ?_)
    cases hu
    exact .register _ _
  | mov rd rs =>
    refine .inr (writes_of_complete h fun u hu => ?_)
    split at hu
    · cases hu
    · cases hu
      exact .register _ _
  | lih rd imm =>
    refine .inr (writes_of_complete h fun u hu => ?_)
    obtain ⟨v, -, hu⟩ := Check.bind_eq_ok.1 hu
    cases hu
    exact .register _ _
  | pack64 rd rs =>
    refine .inr (writes_of_complete h fun u hu => ?_)
    simp only [Check.bind_eq_ok] at hu
    obtain ⟨_, -, _, -, hu⟩ := hu
    cases hu
    exact .register _ _
  | unpack64 ra rs =>
    refine .inr (writes_of_complete h fun u hu => ?_)
    simp only [Check.bind_eq_ok, State.checkWrite_eq_ok] at hu
    obtain ⟨_, -, v, -, _, hb, hu⟩ := hu
    cases hu
    exact .memory _ _ rfl (by simpa using hb)
  | packz rd p =>
    refine .inr (writes_of_complete h fun u hu => ?_)
    simp only [Check.bind_eq_ok] at hu
    obtain ⟨⟨_, _⟩, -, _, -, _, -, hu⟩ := hu
    cases hu
    exact .register _ _
  | bitat rd rb ri =>
    refine .inr (writes_of_complete h fun u hu => ?_)
    simp only [Check.bind_eq_ok] at hu
    obtain ⟨_, -, _, -, _, -, hu⟩ := hu
    cases hu
    exact .register _ _
  | xor rd ra rb =>
    refine .inr (writes_of_complete h fun u hu => ?_)
    simp only [Check.bind_eq_ok] at hu
    obtain ⟨_, -, _, -, hu⟩ := hu
    split at hu
    · cases hu
      exact .register _ _
    · cases hu
  | join rd rh rl =>
    refine .inr (writes_of_complete h fun u hu => ?_)
    simp only [Check.bind_eq_ok] at hu
    obtain ⟨_, -, _, -, hu⟩ := hu
    cases hu
    exact .register _ _
  | roundf rd rr rk =>
    refine .inr (writes_of_complete h fun u hu => ?_)
    simp only [Check.bind_eq_ok] at hu
    obtain ⟨_, -, _, -, hu⟩ := hu
    cases hu
    exact .register _ _
  | blk32 rd rs =>
    refine .inr (writes_of_complete h fun u hu => ?_)
    simp only [Check.bind_eq_ok] at hu
    obtain ⟨_, -, _, -, hu⟩ := hu
    cases hu
    exact .register _ _
  | blk48 rd rs =>
    refine .inr (writes_of_complete h fun u hu => ?_)
    simp only [Check.bind_eq_ok] at hu
    obtain ⟨_, -, _, -, hu⟩ := hu
    cases hu
    exact .register _ _
  | blk64 rd rs | val rd rs | halflo rd rs | halfhi rd rs | ip rd rs | fp rd rs | expand rd rs | subst rd rs
  | permp rd rs =>
    refine .inr (writes_of_complete h fun u hu => ?_)
    obtain ⟨_, -, hu⟩ := Check.bind_eq_ok.1 hu
    cases hu
    exact .register _ _
  | getsk rd k =>
    refine .inr (writes_of_complete h fun u hu => ?_)
    obtain ⟨_, -, hu⟩ := Check.bind_eq_ok.1 hu
    cases hu
    exact .register _ _
  | setkey rs =>
    refine .inr (writes_of_complete h fun u hu => ?_)
    simp only [Check.bind_eq_ok, ensure_eq_ok] at hu
    obtain ⟨_, hk, _, -, hu⟩ := hu
    cases hu
    exact .key _ _ rfl (by simpa using hk)
  | enc rd rs | dec rd rs =>
    refine .inr (writes_of_complete h fun u hu => ?_)
    simp only [Check.bind_eq_ok] at hu
    obtain ⟨_, -, _, -, hu⟩ := hu
    cases hu
    exact .register _ _
  | encbuf ra p | decbuf ra p =>
    refine .inr (writes_of_complete h fun u hu => ?_)
    obtain ⟨-, dst, src, n, -, -, -, hb, rfl⟩ := bufferCommand_eq_ok.1 hu
    exact .memory _ _ rfl (by simpa using hb)
  | xorrep ra p q =>
    refine .inr (writes_of_complete h fun u hu => ?_)
    simp only [Check.bind_eq_ok, State.checkWrite_eq_ok] at hu
    obtain ⟨_, -, ⟨_, _⟩, -, ⟨_, _⟩, -, _, -, _, -, _, -, _, hb, hu⟩ := hu
    cases hu
    exact .memory _ _ rfl (by simpa using hb)
  | caesar ra p rs =>
    refine .inr (writes_of_complete h fun u hu => ?_)
    simp only [Check.bind_eq_ok, State.checkWrite_eq_ok] at hu
    obtain ⟨_, -, ⟨_, _⟩, -, _, -, _, -, _, hb, hu⟩ := hu
    cases hu
    exact .memory _ _ rfl (by simpa using hb)
  | plaus rd p | ckey rd p =>
    refine .inr (writes_of_complete h fun u hu => ?_)
    simp only [Check.bind_eq_ok] at hu
    obtain ⟨⟨_, _⟩, -, _, -, hu⟩ := hu
    cases hu
    exact .register _ _
  | bfx1 rd p q =>
    exact .inr (writes_of_complete h fun u hu => writes_of_keySearch hu rfl fun t ht => oneByteTrials_name ht)
  | bfx2 rd p q =>
    exact .inr (writes_of_complete h fun u hu => writes_of_keySearch hu rfl fun t ht => twoByteTrials_name ht)
  | bfxd rd p q t =>
    refine .inr (writes_of_complete h fun u hu => ?_)
    simp only [Check.bind_eq_ok] at hu
    obtain ⟨⟨_, _⟩, -, ⟨_, _⟩, -, ⟨_, _⟩, -, _, -, keys, -, hu⟩ := hu
    refine writes_of_searchOutput hu rfl (searchRecords_length_mem fun t ht => ?_)
    rw [dictTrials_name ht, State.readBytes_length]

/-- The inversion lemma of step: only a RUNNING engine answers a next state, which is exec of the command fetched, or the
fault of a fetch that failed. -/
theorem step_eq_next {s t : State} (h : step s = .next t) :
    s.runState = .running ∧
      ((∃ i, s.fetch = .ok i ∧ exec i s = .next t) ∨ ∃ r, s.fetch = .error r ∧ t = s.takeFault r) := by
  unfold step at h
  split at h
  · rename_i hr
    refine ⟨hr, ?_⟩
    split at h
    · rename_i i hi
      exact .inl ⟨i, hi, h⟩
    · rename_i r hr
      cases h
      exact .inr ⟨r, hr, rfl⟩
  · cases h

/-! ## Frames -/

/-- A register write with pc advanced, in the terms of Safety. -/
theorem writesReg_advance (s : State) (rd : Reg) (c : Cell) : WritesReg s (s.setReg rd c).advance rd c where
  written := by simp
  others n h := by simp [State.setReg_reg_other _ _ _ _ h]
  memory a := rfl
  pc := rfl
  control := ⟨rfl, rfl, rfl, rfl, rfl, rfl, rfl, rfl, rfl, rfl, rfl, rfl⟩

/-- A store with pc advanced, in the terms of Safety. -/
theorem stores_advance (s : State) (a : Nat) (bs : List Byte) : Stores s (s.storeBytes a bs).advance a bs where
  stored k h := by
    simp only [State.advance_byte, State.storeBytes_byte_inside _ _ _ _ h, List.getD_eq_getElem?_getD,
      List.getElem?_eq_getElem h, Option.getD_some]
  outside b h := State.storeBytes_byte_outside _ _ _ _ h
  registers n := rfl
  pc := rfl
  control := ⟨rfl, rfl, rfl, rfl, rfl, rfl, rfl, rfl, rfl, rfl, rfl, rfl⟩

/-- A store and a register write with pc advanced, in the terms of Safety. -/
theorem storesAndWrites_advance (s : State) (a : Nat) (bs : List Byte) (rd : Reg) (c : Cell) :
    StoresAndWrites s ((s.storeBytes a bs).setReg rd c).advance a bs rd c where
  stored := (stores_advance s a bs).stored
  outside := (stores_advance s a bs).outside
  written := by simp
  others n h := by simp [State.setReg_reg_other _ _ _ _ h]
  pc := rfl
  control := ⟨rfl, rfl, rfl, rfl, rfl, rfl, rfl, rfl, rfl, rfl, rfl, rfl⟩

end Sys2Proof.Machine
end

