-- ==== Sys2Proof/Laws/Encoding.lean ====
section
/-! SUPPORT. The laws of the encoder's words: every field of a word built from fields reads back, a word is built from its
own fields, and a register survives its 4-bit field. -/

namespace Sys2Proof

@[simp] theorem regOf_regField (r : Reg) : regOf (regField r) = r := by
  apply Fin.ext
  have := r.isLt
  simp [regOf, regField]

@[simp] theorem regField_regOf (b : BitVec 4) : regField (regOf b) = b := by
  simp [regOf, regField]

theorem getLsbD_wordR (op : BitVec 8) (a b c d : BitVec 4) (imm8 : BitVec 8) (i : Nat) :
    (wordR op a b c d imm8).getLsbD i =
      if i < 8 then op.getLsbD i else if i - 8 < 4 then a.getLsbD (i - 8)
      else if i - 8 - 4 < 4 then b.getLsbD (i - 8 - 4) else if i - 8 - 4 - 4 < 4 then c.getLsbD (i - 8 - 4 - 4)
      else if i - 8 - 4 - 4 - 4 < 4 then d.getLsbD (i - 8 - 4 - 4 - 4) else imm8.getLsbD (i - 8 - 4 - 4 - 4 - 4) := by
  show (imm8 ++ d ++ c ++ b ++ a ++ op).getLsbD i = _
  simp only [BitVec.getLsbD_append]

theorem getLsbD_wordI (op : BitVec 8) (a : BitVec 4) (imm20 : BitVec 20) (i : Nat) :
    (wordI op a imm20).getLsbD i =
      if i < 8 then op.getLsbD i else if i - 8 < 4 then a.getLsbD (i - 8) else imm20.getLsbD (i - 8 - 4) := by
  show (imm20 ++ a ++ op).getLsbD i = _
  simp only [BitVec.getLsbD_append]

section
variable (op : BitVec 8) (a b c d : BitVec 4) (imm8 : BitVec 8) (imm20 : BitVec 20)

@[simp] theorem fieldOp_wordR : fieldOp (wordR op a b c d imm8) = op := by
  apply BitVec.eq_of_getLsbD_eq
  intro i hi
  simp only [fieldOp, BitVec.getLsbD_extractLsb', getLsbD_wordR]
  split_ifs <;> first | omega | (simp [hi])

@[simp] theorem fieldA_wordR : fieldA (wordR op a b c d imm8) = a := by
  apply BitVec.eq_of_getLsbD_eq
  intro i hi
  simp only [fieldA, BitVec.getLsbD_extractLsb', getLsbD_wordR]
  split_ifs <;> first | omega | (simp [hi])

@[simp] theorem fieldB_wordR : fieldB (wordR op a b c d imm8) = b := by
  apply BitVec.eq_of_getLsbD_eq
  intro i hi
  simp only [fieldB, BitVec.getLsbD_extractLsb', getLsbD_wordR]
  split_ifs <;> first | omega | (simp [hi, show 12 + i - 8 - 4 = i by omega])

@[simp] theorem fieldC_wordR : fieldC (wordR op a b c d imm8) = c := by
  apply BitVec.eq_of_getLsbD_eq
  intro i hi
  simp only [fieldC, BitVec.getLsbD_extractLsb', getLsbD_wordR]
  split_ifs <;> first | omega | (simp [hi, show 16 + i - 8 - 4 - 4 = i by omega])

@[simp] theorem fieldD_wordR : fieldD (wordR op a b c d imm8) = d := by
  apply BitVec.eq_of_getLsbD_eq
  intro i hi
  simp only [fieldD, BitVec.getLsbD_extractLsb', getLsbD_wordR]
  split_ifs <;> first | omega | (simp [hi, show 20 + i - 8 - 4 - 4 - 4 = i by omega])

@[simp] theorem fieldImm8_wordR : fieldImm8 (wordR op a b c d imm8) = imm8 := by
  apply BitVec.eq_of_getLsbD_eq
  intro i hi
  simp only [fieldImm8, BitVec.getLsbD_extractLsb', getLsbD_wordR]
  split_ifs <;> first | omega | (simp [hi, show 24 + i - 8 - 4 - 4 - 4 - 4 = i by omega])

@[simp] theorem fieldOp_wordI : fieldOp (wordI op a imm20) = op := by
  apply BitVec.eq_of_getLsbD_eq
  intro i hi
  simp only [fieldOp, BitVec.getLsbD_extractLsb', getLsbD_wordI]
  split_ifs <;> first | omega | (simp [hi])

@[simp] theorem fieldA_wordI : fieldA (wordI op a imm20) = a := by
  apply BitVec.eq_of_getLsbD_eq
  intro i hi
  simp only [fieldA, BitVec.getLsbD_extractLsb', getLsbD_wordI]
  split_ifs <;> first | omega | (simp [hi])

@[simp] theorem fieldImm20_wordI : fieldImm20 (wordI op a imm20) = imm20 := by
  apply BitVec.eq_of_getLsbD_eq
  intro i hi
  simp only [fieldImm20, BitVec.getLsbD_extractLsb', getLsbD_wordI]
  split_ifs <;> first | omega | (simp [hi, show 12 + i - 8 - 4 = i by omega])

end

/-- A word is the format-R word of its fields. -/
theorem wordR_fields (w : Command) :
    wordR (fieldOp w) (fieldA w) (fieldB w) (fieldC w) (fieldD w) (fieldImm8 w) = w := by
  apply BitVec.eq_of_getLsbD_eq
  intro i hi
  simp only [getLsbD_wordR, fieldOp, fieldA, fieldB, fieldC, fieldD, fieldImm8, BitVec.getLsbD_extractLsb']
  split_ifs <;> first
    | (rw [decide_eq_true (by omega), Bool.true_and]; congr 1; omega)

/-- A word is the format-I word of its fields. -/
theorem wordI_fields (w : Command) : wordI (fieldOp w) (fieldA w) (fieldImm20 w) = w := by
  apply BitVec.eq_of_getLsbD_eq
  intro i hi
  simp only [getLsbD_wordI, fieldOp, fieldA, fieldImm20, BitVec.getLsbD_extractLsb']
  split_ifs <;> first
    | (rw [decide_eq_true (by omega), Bool.true_and]; congr 1; omega)

/-- Masking a format-R word masks its fields. -/
theorem wordR_and (op : BitVec 8) (a b c d : BitVec 4) (imm8 : BitVec 8) (mop : BitVec 8) (ma mb mc md : BitVec 4)
    (mi : BitVec 8) :
    wordR op a b c d imm8 &&& wordR mop ma mb mc md mi
      = wordR (op &&& mop) (a &&& ma) (b &&& mb) (c &&& mc) (d &&& md) (imm8 &&& mi) := by
  apply BitVec.eq_of_getLsbD_eq
  intro i hi
  simp only [BitVec.getLsbD_and, getLsbD_wordR]
  split_ifs <;> rfl

/-- Masking a format-I word masks its fields. -/
theorem wordI_and (op : BitVec 8) (a : BitVec 4) (imm20 : BitVec 20) (mop : BitVec 8) (ma : BitVec 4) (mi : BitVec 20) :
    wordI op a imm20 &&& wordI mop ma mi = wordI (op &&& mop) (a &&& ma) (imm20 &&& mi) := by
  apply BitVec.eq_of_getLsbD_eq
  intro i hi
  simp only [BitVec.getLsbD_and, getLsbD_wordI]
  split_ifs <;> rfl

end Sys2Proof
end

