-- ==== Sys2Proof/Laws/PerInstr.lean ====
section
/-! SUPPORT. Statements about every instruction as syntax, one lemma per constructor. The family OpcodeRow says that the
word of a well-formed instruction lies in its own row of the opcode map (R76). -/

namespace Sys2Proof.Laws

/-- The word of a well-formed instruction fits the row of R76 the instruction belongs to. -/
def OpcodeRow.Statement (i : Instr) : Prop := i.wellFormed = true → (opcodeRow i).fits (encode i) = true

/-- A field masked by nothing. -/
theorem and_none {w : Nat} (b : BitVec w) : b &&& 0 = 0 := BitVec.and_zero

/-- The low bit of the field of an even register is 0 (R83). -/
theorem regField_and_one : ∀ r : Reg, Reg.even r = true → regField r &&& 1 = 0 := by decide

theorem OpcodeRow.nop : OpcodeRow.Statement .nop := by
  intro _
  simp only [OpcodeRow.fits, opcodeRow, encode, beq_iff_eq]
  rw [show (0xFFFFFFFF : Command) = wordR 0xFF 0xF 0xF 0xF 0xF 0xFF by decide, wordR_and]
  decide

theorem OpcodeRow.halt : OpcodeRow.Statement .halt := by
  intro _
  simp only [OpcodeRow.fits, opcodeRow, encode, beq_iff_eq]
  rw [show (0xFFFFFFFF : Command) = wordR 0xFF 0xF 0xF 0xF 0xF 0xFF by decide, wordR_and]
  decide

theorem OpcodeRow.li (rd : Reg) (imm : BitVec 20) : OpcodeRow.Statement (.li rd imm) := by
  intro _
  simp only [OpcodeRow.fits, opcodeRow, encode, beq_iff_eq]
  rw [show (0x000000FF : Command) = wordI 0xFF 0 0 by decide, wordI_and]
  simp only [and_none]
  decide

theorem OpcodeRow.lih (rd : Reg) (imm : BitVec 20) : OpcodeRow.Statement (.lih rd imm) := by
  intro _
  simp only [OpcodeRow.fits, opcodeRow, encode, beq_iff_eq]
  rw [show (0x000000FF : Command) = wordI 0xFF 0 0 by decide, wordI_and]
  simp only [and_none]
  decide

theorem OpcodeRow.mov (rd rs : Reg) : OpcodeRow.Statement (.mov rd rs) := by
  intro _
  simp only [OpcodeRow.fits, opcodeRow, encode, beq_iff_eq]
  rw [show (0xFFFF00FF : Command) = wordR 0xFF 0 0 0xF 0xF 0xFF by decide, wordR_and]
  simp only [and_none]
  decide

theorem OpcodeRow.rdstat (rd : Reg) : OpcodeRow.Statement (.rdstat rd) := by
  intro _
  simp only [OpcodeRow.fits, opcodeRow, encode, beq_iff_eq]
  rw [show (0xFFFFF0FF : Command) = wordR 0xFF 0 0xF 0xF 0xF 0xFF by decide, wordR_and]
  simp only [and_none]
  decide

theorem OpcodeRow.pack64 (rd rs : Reg) : OpcodeRow.Statement (.pack64 rd rs) := by
  intro _
  simp only [OpcodeRow.fits, opcodeRow, encode, beq_iff_eq]
  rw [show (0xFFFF00FF : Command) = wordR 0xFF 0 0 0xF 0xF 0xFF by decide, wordR_and]
  simp only [and_none]
  decide

theorem OpcodeRow.unpack64 (ra rs : Reg) : OpcodeRow.Statement (.unpack64 ra rs) := by
  intro _
  simp only [OpcodeRow.fits, opcodeRow, encode, beq_iff_eq]
  rw [show (0xFFFF00FF : Command) = wordR 0xFF 0 0 0xF 0xF 0xFF by decide, wordR_and]
  simp only [and_none]
  decide

theorem OpcodeRow.packz (rd p : Reg) : OpcodeRow.Statement (.packz rd p) := by
  intro h
  simp only [Instr.wellFormed] at h
  simp only [OpcodeRow.fits, opcodeRow, encode, beq_iff_eq]
  rw [show (0xFFFF10FF : Command) = wordR 0xFF 0 0x1 0xF 0xF 0xFF by decide, wordR_and, regField_and_one p h]
  simp only [and_none]
  decide

theorem OpcodeRow.bitat (rd rb ri : Reg) : OpcodeRow.Statement (.bitat rd rb ri) := by
  intro _
  simp only [OpcodeRow.fits, opcodeRow, encode, beq_iff_eq]
  rw [show (0xFFF000FF : Command) = wordR 0xFF 0 0 0 0xF 0xFF by decide, wordR_and]
  simp only [and_none]
  decide

theorem OpcodeRow.xor (rd ra rb : Reg) : OpcodeRow.Statement (.xor rd ra rb) := by
  intro _
  simp only [OpcodeRow.fits, opcodeRow, encode, beq_iff_eq]
  rw [show (0xFFF000FF : Command) = wordR 0xFF 0 0 0 0xF 0xFF by decide, wordR_and]
  simp only [and_none]
  decide

theorem OpcodeRow.blk32 (rd rs : Reg) : OpcodeRow.Statement (.blk32 rd rs) := by
  intro _
  simp only [OpcodeRow.fits, opcodeRow, encode, beq_iff_eq]
  rw [show (0xFFFF00FF : Command) = wordR 0xFF 0 0 0xF 0xF 0xFF by decide, wordR_and]
  simp only [and_none]
  decide

theorem OpcodeRow.blk48 (rd rs : Reg) : OpcodeRow.Statement (.blk48 rd rs) := by
  intro _
  simp only [OpcodeRow.fits, opcodeRow, encode, beq_iff_eq]
  rw [show (0xFFFF00FF : Command) = wordR 0xFF 0 0 0xF 0xF 0xFF by decide, wordR_and]
  simp only [and_none]
  decide

theorem OpcodeRow.blk64 (rd rs : Reg) : OpcodeRow.Statement (.blk64 rd rs) := by
  intro _
  simp only [OpcodeRow.fits, opcodeRow, encode, beq_iff_eq]
  rw [show (0xFFFF00FF : Command) = wordR 0xFF 0 0 0xF 0xF 0xFF by decide, wordR_and]
  simp only [and_none]
  decide

theorem OpcodeRow.val (rd rs : Reg) : OpcodeRow.Statement (.val rd rs) := by
  intro _
  simp only [OpcodeRow.fits, opcodeRow, encode, beq_iff_eq]
  rw [show (0xFFFF00FF : Command) = wordR 0xFF 0 0 0xF 0xF 0xFF by decide, wordR_and]
  simp only [and_none]
  decide

theorem OpcodeRow.halflo (rd rs : Reg) : OpcodeRow.Statement (.halflo rd rs) := by
  intro _
  simp only [OpcodeRow.fits, opcodeRow, encode, beq_iff_eq]
  rw [show (0xFFFF00FF : Command) = wordR 0xFF 0 0 0xF 0xF 0xFF by decide, wordR_and]
  simp only [and_none]
  decide

theorem OpcodeRow.halfhi (rd rs : Reg) : OpcodeRow.Statement (.halfhi rd rs) := by
  intro _
  simp only [OpcodeRow.fits, opcodeRow, encode, beq_iff_eq]
  rw [show (0xFFFF00FF : Command) = wordR 0xFF 0 0 0xF 0xF 0xFF by decide, wordR_and]
  simp only [and_none]
  decide

theorem OpcodeRow.join (rd rh rl : Reg) : OpcodeRow.Statement (.join rd rh rl) := by
  intro _
  simp only [OpcodeRow.fits, opcodeRow, encode, beq_iff_eq]
  rw [show (0xFFF000FF : Command) = wordR 0xFF 0 0 0 0xF 0xFF by decide, wordR_and]
  simp only [and_none]
  decide

theorem OpcodeRow.setkey (rs : Reg) : OpcodeRow.Statement (.setkey rs) := by
  intro _
  simp only [OpcodeRow.fits, opcodeRow, encode, beq_iff_eq]
  rw [show (0xFFFF0FFF : Command) = wordR 0xFF 0xF 0 0xF 0xF 0xFF by decide, wordR_and]
  simp only [and_none]
  decide

theorem OpcodeRow.getsk (rd : Reg) (k : Fin 16) : OpcodeRow.Statement (.getsk rd k) := by
  intro _
  simp only [OpcodeRow.fits, opcodeRow, encode, beq_iff_eq]
  rw [show (0xF0FFF0FF : Command) = wordR 0xFF 0 0xF 0xF 0xF 0xF0 by decide, wordR_and]
  have hk : ∀ j : Fin 16, BitVec.ofNat 8 j.val &&& 0xF0 = 0 := by decide
  rw [hk]
  simp only [and_none]
  decide

theorem OpcodeRow.ip (rd rs : Reg) : OpcodeRow.Statement (.ip rd rs) := by
  intro _
  simp only [OpcodeRow.fits, opcodeRow, encode, beq_iff_eq]
  rw [show (0xFFFF00FF : Command) = wordR 0xFF 0 0 0xF 0xF 0xFF by decide, wordR_and]
  simp only [and_none]
  decide

theorem OpcodeRow.fp (rd rs : Reg) : OpcodeRow.Statement (.fp rd rs) := by
  intro _
  simp only [OpcodeRow.fits, opcodeRow, encode, beq_iff_eq]
  rw [show (0xFFFF00FF : Command) = wordR 0xFF 0 0 0xF 0xF 0xFF by decide, wordR_and]
  simp only [and_none]
  decide

theorem OpcodeRow.expand (rd rs : Reg) : OpcodeRow.Statement (.expand rd rs) := by
  intro _
  simp only [OpcodeRow.fits, opcodeRow, encode, beq_iff_eq]
  rw [show (0xFFFF00FF : Command) = wordR 0xFF 0 0 0xF 0xF 0xFF by decide, wordR_and]
  simp only [and_none]
  decide

theorem OpcodeRow.subst (rd rs : Reg) : OpcodeRow.Statement (.subst rd rs) := by
  intro _
  simp only [OpcodeRow.fits, opcodeRow, encode, beq_iff_eq]
  rw [show (0xFFFF00FF : Command) = wordR 0xFF 0 0 0xF 0xF 0xFF by decide, wordR_and]
  simp only [and_none]
  decide

theorem OpcodeRow.permp (rd rs : Reg) : OpcodeRow.Statement (.permp rd rs) := by
  intro _
  simp only [OpcodeRow.fits, opcodeRow, encode, beq_iff_eq]
  rw [show (0xFFFF00FF : Command) = wordR 0xFF 0 0 0xF 0xF 0xFF by decide, wordR_and]
  simp only [and_none]
  decide

theorem OpcodeRow.roundf (rd rr rk : Reg) : OpcodeRow.Statement (.roundf rd rr rk) := by
  intro _
  simp only [OpcodeRow.fits, opcodeRow, encode, beq_iff_eq]
  rw [show (0xFFF000FF : Command) = wordR 0xFF 0 0 0 0xF 0xFF by decide, wordR_and]
  simp only [and_none]
  decide

theorem OpcodeRow.enc (rd rs : Reg) : OpcodeRow.Statement (.enc rd rs) := by
  intro _
  simp only [OpcodeRow.fits, opcodeRow, encode, beq_iff_eq]
  rw [show (0xFFFF00FF : Command) = wordR 0xFF 0 0 0xF 0xF 0xFF by decide, wordR_and]
  simp only [and_none]
  decide

theorem OpcodeRow.dec (rd rs : Reg) : OpcodeRow.Statement (.dec rd rs) := by
  intro _
  simp only [OpcodeRow.fits, opcodeRow, encode, beq_iff_eq]
  rw [show (0xFFFF00FF : Command) = wordR 0xFF 0 0 0xF 0xF 0xFF by decide, wordR_and]
  simp only [and_none]
  decide

theorem OpcodeRow.encbuf (ra p : Reg) : OpcodeRow.Statement (.encbuf ra p) := by
  intro h
  simp only [Instr.wellFormed] at h
  simp only [OpcodeRow.fits, opcodeRow, encode, beq_iff_eq]
  rw [show (0xFFFF10FF : Command) = wordR 0xFF 0 0x1 0xF 0xF 0xFF by decide, wordR_and, regField_and_one p h]
  simp only [and_none]
  decide

theorem OpcodeRow.decbuf (ra p : Reg) : OpcodeRow.Statement (.decbuf ra p) := by
  intro h
  simp only [Instr.wellFormed] at h
  simp only [OpcodeRow.fits, opcodeRow, encode, beq_iff_eq]
  rw [show (0xFFFF10FF : Command) = wordR 0xFF 0 0x1 0xF 0xF 0xFF by decide, wordR_and, regField_and_one p h]
  simp only [and_none]
  decide

theorem OpcodeRow.xorrep (ra p q : Reg) : OpcodeRow.Statement (.xorrep ra p q) := by
  intro h
  simp only [Instr.wellFormed, Bool.and_eq_true] at h
  simp only [OpcodeRow.fits, opcodeRow, encode, beq_iff_eq]
  rw [show (0xFFF110FF : Command) = wordR 0xFF 0 0x1 0x1 0xF 0xFF by decide, wordR_and, regField_and_one p h.1, regField_and_one q h.2]
  simp only [and_none]
  decide

theorem OpcodeRow.caesar (ra p rs : Reg) : OpcodeRow.Statement (.caesar ra p rs) := by
  intro h
  simp only [Instr.wellFormed] at h
  simp only [OpcodeRow.fits, opcodeRow, encode, beq_iff_eq]
  rw [show (0xFFF010FF : Command) = wordR 0xFF 0 0x1 0 0xF 0xFF by decide, wordR_and, regField_and_one p h]
  simp only [and_none]
  decide

theorem OpcodeRow.plaus (rd p : Reg) : OpcodeRow.Statement (.plaus rd p) := by
  intro h
  simp only [Instr.wellFormed] at h
  simp only [OpcodeRow.fits, opcodeRow, encode, beq_iff_eq]
  rw [show (0xFFFF10FF : Command) = wordR 0xFF 0 0x1 0xF 0xF 0xFF by decide, wordR_and, regField_and_one p h]
  simp only [and_none]
  decide

theorem OpcodeRow.bfx1 (rd p q : Reg) : OpcodeRow.Statement (.bfx1 rd p q) := by
  intro h
  simp only [Instr.wellFormed, Bool.and_eq_true] at h
  simp only [OpcodeRow.fits, opcodeRow, encode, beq_iff_eq]
  rw [show (0xFFF110FF : Command) = wordR 0xFF 0 0x1 0x1 0xF 0xFF by decide, wordR_and, regField_and_one p h.1, regField_and_one q h.2]
  simp only [and_none]
  decide

theorem OpcodeRow.bfx2 (rd p q : Reg) : OpcodeRow.Statement (.bfx2 rd p q) := by
  intro h
  simp only [Instr.wellFormed, Bool.and_eq_true] at h
  simp only [OpcodeRow.fits, opcodeRow, encode, beq_iff_eq]
  rw [show (0xFFF110FF : Command) = wordR 0xFF 0 0x1 0x1 0xF 0xFF by decide, wordR_and, regField_and_one p h.1, regField_and_one q h.2]
  simp only [and_none]
  decide

theorem OpcodeRow.bfxd (rd p q t : Reg) : OpcodeRow.Statement (.bfxd rd p q t) := by
  intro h
  simp only [Instr.wellFormed, Bool.and_eq_true] at h
  simp only [OpcodeRow.fits, opcodeRow, encode, beq_iff_eq]
  rw [show (0xFF1110FF : Command) = wordR 0xFF 0 0x1 0x1 0x1 0xFF by decide, wordR_and, regField_and_one p h.1.1, regField_and_one q h.1.2, regField_and_one t h.2]
  simp only [and_none]
  decide

theorem OpcodeRow.ckey (rd p : Reg) : OpcodeRow.Statement (.ckey rd p) := by
  intro h
  simp only [Instr.wellFormed] at h
  simp only [OpcodeRow.fits, opcodeRow, encode, beq_iff_eq]
  rw [show (0xFFFF10FF : Command) = wordR 0xFF 0 0x1 0xF 0xF 0xFF by decide, wordR_and, regField_and_one p h]
  simp only [and_none]
  decide

end Sys2Proof.Laws
end

