-- ==== Sys2Proof/Tests/Slice0.lean ====
section
/-! SUPPORT. The model's own tests: the checks of WellFormed refuse ill-formed terms, words written out from the
encoding tables decode to their commands, one step of each command gives what a vector of spec/95_test_vectors.md says,
and a witness meets the hypotheses of each obligation. The vector or rule each test is taken from stands in its docstring.
The tests are elaborated one after another, which keeps the memory of the compile small. -/

namespace Sys2Proof.Tests

open Sys2Proof Sys2Proof.Machine

set_option Elab.async false

/-! ## Two platforms and a state (95_test_vectors.md section 0) -/

/-- TC0, with DMEM_SIZE 4096 and CMD_DEPTH 64. -/
def tc0Parameters : Parameters where
  eTable := (List.range 48).map fun i => 32 - i % 32
  pTable := (List.range 32).map fun i => 32 - i
  sbox := List.replicate 4 (List.range 16)
  dmemSize := 4096
  cmdDepth := 64

/-- TC1, with DMEM_SIZE 4096 and CMD_DEPTH 64. -/
def tc1Parameters : Parameters where
  eTable := [32, 1, 2, 3, 4, 5, 4, 5, 6, 7, 8, 9, 8, 9, 10, 11, 12, 13, 12, 13, 14, 15, 16, 17,
    16, 17, 18, 19, 20, 21, 20, 21, 22, 23, 24, 25, 24, 25, 26, 27, 28, 29, 28, 29, 30, 31, 32, 1]
  pTable := [16, 7, 20, 21, 29, 12, 28, 17, 1, 15, 23, 26, 5, 18, 31, 10,
    2, 8, 24, 14, 32, 27, 3, 9, 19, 13, 30, 6, 22, 11, 4, 25]
  sbox := [[14, 4, 13, 1, 2, 15, 11, 8, 3, 10, 6, 12, 5, 9, 0, 7],
    [0, 15, 7, 4, 14, 2, 13, 1, 10, 6, 12, 11, 9, 5, 3, 8],
    [4, 1, 14, 8, 13, 6, 2, 11, 15, 12, 9, 7, 3, 10, 5, 0],
    [15, 12, 8, 2, 4, 9, 1, 7, 5, 11, 3, 14, 10, 0, 6, 13]]
  dmemSize := 4096
  cmdDepth := 64

/-- The configuration of parameters that are well formed. -/
def platformOf (p : Parameters) : Config := p.configure?.getD default

/-- A RUNNING engine on a platform, with registers and bytes written, from the reset state otherwise. -/
def stateOn (p : Parameters) (regs : List (Reg × Cell)) (mem : List (Nat × List Byte)) : State :=
  let s : State := { State.reset with cfg := platformOf p, runState := .running }
  let s := regs.foldl (fun s r => s.setReg r.1 r.2) s
  mem.foldl (fun s m => s.storeBytes m.1 m.2) s

/-- The same on TC1. -/
def stateWith (regs : List (Reg × Cell)) (mem : List (Nat × List Byte)) : State := stateOn tc1Parameters regs mem

/-- The state with a key bound. -/
def keyedWith (k : Block64) (s : State) : State := s.bindKey k (generateSubkeys k)

/-- What a command answers, seen through a view of the next state. -/
def afterExec {α : Type} (i : Instr) (s : State) (view : State → α) : Option α :=
  match exec i s with
  | .next t => some (view t)
  | _ => none

/-- The fault a state has entered: FCAUSE, FDETAIL, FPC, FINFO and the code of RUNSTATE, which is 3 for FAULTED. -/
def faultView (s : State) : List Nat :=
  [s.fcause.toNat, s.fdetail.toNat, s.fpc.toNat, s.finfo.toNat, s.runState.code.toNat]

/-- The fault a command enters. -/
def faultOf (i : Instr) (s : State) : Option (List Nat) := afterExec i s faultView

/-- The bytes of an ASCII text. -/
def ascii (t : String) : List Byte := t.toList.map fun c => BitVec.ofNat 8 c.toNat

/-- The key "ABCDEFGH". -/
def keyABC : Block64 := 0x4142434445464748

/-- The block "TESTDATA". -/
def testdata : Block64 := 0x5445535444415441

/-! ## WellFormed refuses what it should -/

/-- R83: each pair field of each command, at an odd register. -/
theorem test_wellFormed_refuses_odd_pairs :
    [Instr.packz 0 1, .encbuf 0 15, .decbuf 0 3, .xorrep 0 1 2, .xorrep 0 2 1, .caesar 0 5 2, .plaus 0 7, .bfx1 0 9 2,
      .bfx1 0 2 9, .bfx2 0 11 2, .bfx2 0 2 11, .bfxd 0 1 2 4, .bfxd 0 2 1 4, .bfxd 0 2 4 1, .ckey 0 13].all
        (fun i => !i.wellFormed) = true := by decide

/-- R83: CAESAR's shift register may be odd, and even pairs are accepted. -/
theorem test_wellFormed_accepts_even_pairs :
    [Instr.packz 1 14, .caesar 0 4 5, .xorrep 1 2 4, .bfxd 1 2 4 6].all (fun i => i.wellFormed) = true := by decide

/-- R9: E_TABLE of 47 entries, with an entry 0, with an entry 33. -/
theorem test_eTableOk_refuses :
    ({ tc0Parameters with eTable := List.replicate 47 1 }).eTableOk = false ∧
    ({ tc0Parameters with eTable := 0 :: List.replicate 47 1 }).eTableOk = false ∧
    ({ tc0Parameters with eTable := 33 :: List.replicate 47 1 }).eTableOk = false := by decide

/-- R9: P_TABLE of 33 entries, with an entry 0, with an entry 33. -/
theorem test_pTableOk_refuses :
    ({ tc0Parameters with pTable := List.replicate 33 1 }).pTableOk = false ∧
    ({ tc0Parameters with pTable := 0 :: List.replicate 31 1 }).pTableOk = false ∧
    ({ tc0Parameters with pTable := 33 :: List.replicate 31 1 }).pTableOk = false := by decide

/-- R9: SBOX of 3 rows, with a row of 15 entries, with an entry 16. -/
theorem test_sboxOk_refuses :
    ({ tc0Parameters with sbox := List.replicate 3 (List.range 16) }).sboxOk = false ∧
    ({ tc0Parameters with sbox := List.replicate 4 (List.range 15) }).sboxOk = false ∧
    ({ tc0Parameters with sbox := List.replicate 4 (16 :: List.range 15) }).sboxOk = false := by decide

/-- R7: DMEM_SIZE of 15 and of 2^32 + 1, CMD_DEPTH of 0 and of 2^32. -/
theorem test_sizes_refused :
    ({ tc0Parameters with dmemSize := 15 }).dmemSizeOk = false ∧
    ({ tc0Parameters with dmemSize := 2 ^ 32 + 1 }).dmemSizeOk = false ∧
    ({ tc0Parameters with cmdDepth := 0 }).cmdDepthOk = false ∧
    ({ tc0Parameters with cmdDepth := 2 ^ 32 }).cmdDepthOk = false := by decide

/-- R9: each refused check refuses the configuration; TC0 and TC1 are accepted. -/
theorem test_configure :
    (Parameters.configure? { tc0Parameters with eTable := [] }).isNone = true ∧
    (Parameters.configure? { tc0Parameters with pTable := [] }).isNone = true ∧
    (Parameters.configure? { tc0Parameters with sbox := [] }).isNone = true ∧
    (Parameters.configure? { tc0Parameters with dmemSize := 0 }).isNone = true ∧
    (Parameters.configure? { tc0Parameters with cmdDepth := 0 }).isNone = true ∧
    tc0Parameters.configure?.isSome = true ∧ tc1Parameters.configure?.isSome = true := by decide +kernel

/-! ## Decode -/

/-- The words of V-D6, V-D9, V-Q1, V-Q5, V-Q12, V-Q9, one for each
command of the family. -/
theorem test_decode_sequencer :
    decode 0x00000001 = .ok (.nop) ∧
    decode 0x00000002 = .ok (.halt) ∧
    decode 0x80000203 = .ok (.li 2 0x80000) ∧
    decode 0x14243104 = .ok (.lih 1 0x14243) ∧
    decode 0x00004505 = .ok (.mov 5 4) ∧
    decode 0x00000506 = .ok (.rdstat 5) := by decide

/-- The words of V-B1, V-B3, V-B4, V-B7, V-B10, V-B13, V-B12, V-B14, V-B15, V-B18, V-B17, V-B19, one for each
command of the family. -/
theorem test_decode_bitBlock :
    decode 0x00001210 = .ok (.pack64 2 1) ∧
    decode 0x00002111 = .ok (.unpack64 1 2) ∧
    decode 0x00004312 = .ok (.packz 3 4) ∧
    decode 0x00072613 = .ok (.bitat 6 2 7) ∧
    decode 0x00021314 = .ok (.xor 3 1 2) ∧
    decode 0x00002115 = .ok (.blk32 1 2) ∧
    decode 0x01001415 = .ok (.blk48 4 1) ∧
    decode 0x02001615 = .ok (.blk64 6 1) ∧
    decode 0x00004516 = .ok (.val 5 4) ∧
    decode 0x00002317 = .ok (.halflo 3 2) ∧
    decode 0x01002417 = .ok (.halfhi 4 2) ∧
    decode 0x00034518 = .ok (.join 5 4 3) := by decide

/-- The words of R150, V-D19, V-F4, R155, R157, R161, R163, R165, R169, R170, R173, R174, one for each
command of the family. -/
theorem test_decode_feistel :
    decode 0x00003020 = .ok (.setkey 3) ∧
    decode 0x0F000621 = .ok (.getsk 6 15) ∧
    decode 0x00002322 = .ok (.ip 3 2) ∧
    decode 0x00002323 = .ok (.fp 3 2) ∧
    decode 0x00004524 = .ok (.expand 5 4) ∧
    decode 0x00005625 = .ok (.subst 6 5) ∧
    decode 0x00006726 = .ok (.permp 7 6) ∧
    decode 0x00084927 = .ok (.roundf 9 4 8) ∧
    decode 0x00002328 = .ok (.enc 3 2) ∧
    decode 0x00003429 = .ok (.dec 4 3) ∧
    decode 0x0000212A = .ok (.encbuf 1 2) ∧
    decode 0x0000212B = .ok (.decbuf 1 2) := by decide

/-- The words of R192, V-D27, R203, R215, P5c, R217, R221, one for each
command of the family. -/
theorem test_decode_analysis :
    decode 0x00042130 = .ok (.xorrep 1 2 4) ∧
    decode 0x00052131 = .ok (.caesar 1 2 5) ∧
    decode 0x00002132 = .ok (.plaus 1 2) ∧
    decode 0x00042133 = .ok (.bfx1 1 2 4) ∧
    decode 0x00042134 = .ok (.bfx2 1 2 4) ∧
    decode 0x00642135 = .ok (.bfxd 1 2 4 6) ∧
    decode 0x00002136 = .ok (.ckey 1 2) := by decide

/-- R71, R76 bit by bit: XORREP r1, r2:r3, r4:r5 is IMM8 = 0, D = 0, C = 4, B = 2, A = 1, OP = 0x30; LI r2, -524288 is
IMM20 = 0x80000, A = 2, OP = 3; GETSK r6, 15 is IMM8 = 15, A = 6, OP = 0x21; BFXD names pairs 2, 4 and 6. -/
theorem test_decode_bit_by_bit :
    decode 0b00000000_0000_0100_0010_0001_00110000#32 = .ok (.xorrep 1 2 4) ∧
    decode 0b10000000000000000000_0010_00000011#32 = .ok (.li 2 0x80000) ∧
    decode 0b00001111_0000_0000_0000_0110_00100001#32 = .ok (.getsk 6 15) ∧
    decode 0b00000001_0000_0000_0001_0100_00010101#32 = .ok (.blk48 4 1) ∧
    decode 0b00000000_0110_0100_0010_0001_00110101#32 = .ok (.bfxd 1 2 4 6) := by decide

/-- V-D1 to V-D5, V-D7, V-D8, V-D12, V-D13, V-D15, V-D16, V-D18, V-D20 to V-D25, V-D28, V-D29. -/
theorem test_decode_illegal :
    [0x00000000, 0xFFFFFFFF, 0x00000007, 0x0000002C, 0xFF000037].all
      (fun w => decode w == .error .undefinedOpcode) = true ∧
    [0x00000101, 0x80000001, 0x00001006, 0x00000120, 0x03100015, 0x00010021, 0x01003112, 0x00103112, 0x00100013].all
      (fun w => decode w == .error .reservedBits) = true ∧
    [0x03000015, 0x02000017, 0x10000021].all (fun w => decode w == .error .immRange) = true ∧
    [0x00003112, 0x00012130, 0x00742135].all (fun w => decode w == .error .oddPair) = true := by decide

/-- The host's number for BLK64 r0, r0 (V-D14), and a word it gives too few bits. -/
theorem test_decodeTableWord :
    decodeTableWord 32 0x02000015 = some (.blk64 0 0) ∧ decodeTableWord 8 0x02000001 = some .nop ∧
    decodeTableWord 32 0 = none := by decide

/-- R100, R262: the word placed by withFetchWord is the command the very next step runs. -/
theorem test_withFetchWord_runs :
    step (State.reset.withFetchWord 32 0x00100103) = exec (.li 1 0x100) (State.reset.withFetchWord 32 0x00100103) := by
  rfl

/-- R24, R101: after LI the engine is at the next command, still RUNNING. -/
theorem test_step_li :
    (match step (State.reset.withFetchWord 32 0x00100103) with
      | .next t => t.pc == 1 && t.runState == .running && t.reg 1 == .scalar 0x100
      | _ => false) = true := by decide +kernel

/-! ## One step of each command -/

/-- V-Q13. -/
theorem test_nop :
    afterExec .nop (stateWith [] []) (fun t => t.pc) = some 1 := by decide +kernel

/-- V-Q14: pc stays at the HALT. -/
theorem test_halt :
    afterExec .halt { stateWith [] [] with pc := 7 } (fun t => (t.pc.toNat, t.runState)) = some (7, .halted)
      := by decide +kernel

/-- V-Q1, V-Q2, V-Q3: the immediate is sign-extended. -/
theorem test_li :
    afterExec (.li 2 0x80000) (stateWith [] []) (fun t => t.reg 2) = some (.scalar 0xFFFFFFFFFFF80000) ∧
    afterExec (.li 3 0x7FFFF) (stateWith [] []) (fun t => t.reg 3) = some (.scalar 0x7FFFF) ∧
    afterExec (.li 1 0xFFFFF) (stateWith [] []) (fun t => t.reg 1) = some (.scalar 0xFFFFFFFFFFFFFFFF)
      := by decide +kernel

/-- V-Q7: the top 20 bits are discarded; V-Q8. -/
theorem test_lih :
    afterExec (.lih 1 0x12345) (stateWith [(1, .scalar 0xFFFFFFFFFFFFFFFF)] [])
      (fun t => t.reg 1) = some (.scalar 0xFFFFFFFFFFF12345) ∧
    afterExec (.lih 2 0) (stateWith [(2, .scalar 1)] []) (fun t => t.reg 2) = some (.scalar 0x100000)
      := by decide +kernel

/-- V-X24, V-X25. -/
theorem test_lih_faults :
    faultOf (.lih 1 5) (stateWith [] []) = some [5, 0, 0, 1, 3] ∧
    faultOf (.lih 1 5) (stateWith [(1, .block (.b32 1))] []) = some [1, 1, 0, 1, 3] := by decide +kernel

/-- V-Q12: the tag is copied; V-X38. -/
theorem test_mov :
    afterExec (.mov 5 4) (stateWith [(4, .block (.b32 0xDEADBEEF))] [])
      (fun t => t.reg 5) = some (.block (.b32 0xDEADBEEF)) ∧
    faultOf (.mov 1 2) (stateWith [] []) = some [5, 0, 0, 2, 3] := by decide +kernel

/-- V-Q9, V-Q10. -/
theorem test_rdstat :
    afterExec (.rdstat 5) (stateWith [] []) (fun t => t.reg 5) = some (.scalar 1) ∧
    afterExec (.rdstat 7) (keyedWith keyABC (stateWith [] [])) (fun t => t.reg 7) = some (.scalar 5)
      := by decide +kernel

/-- V-B1, V-B2. -/
theorem test_pack64 :
    afterExec (.pack64 2 1) (stateWith [(1, .scalar 0x100)] [(0x100, ascii "ABCDEFGH")])
      (fun t => t.reg 2) = some (.block (.b64 0x4142434445464748)) ∧
    afterExec (.pack64 2 1) (stateWith [(1, .scalar 0x100)] [(0x100, [0, 1, 2, 3, 4, 5, 6, 7])])
      (fun t => t.reg 2) = some (.block (.b64 0x0001020304050607)) := by decide +kernel

/-- V-X4 (the last legal address), V-X5, V-X6 (no wrap-around). -/
theorem test_pack64_bounds :
    afterExec (.pack64 1 2) (stateWith [(2, .scalar 0xFF8)] []) (fun t => t.runState) = some .running ∧
    faultOf (.pack64 1 2) (stateWith [(2, .scalar 0xFF9)] []) = some [4, 1, 0, 0xFF9, 3] ∧
    faultOf (.pack64 1 2) (stateWith [(2, .scalar 0xFFFFFFFFFFFFFFFF)] []) = some [4, 1, 0, 0xFFFFFFFFFFFFFFFF, 3]
      := by decide +kernel

/-- V-B3, V-X23. -/
theorem test_unpack64 :
    afterExec (.unpack64 1 2) (stateWith [(1, .scalar 0x108), (2, .block (.b64 0x4142434445464748))] [])
      (fun t => t.readBytes 0x108 8) = some (ascii "ABCDEFGH") ∧
    faultOf (.unpack64 1 2) (stateWith [(1, .scalar 0), (2, .block (.b32 1))] []) = some [1, 1, 0, 2, 3]
      := by decide +kernel

/-- V-B4; V-B5: a region of length 0 at DMEM_SIZE. -/
theorem test_packz :
    afterExec (.packz 3 4) (stateWith [(4, .scalar 0x200), (5, .scalar 3)] [(0x200, ascii "KEY")])
      (fun t => t.reg 3) = some (.block (.b64 0x4B45590000000000)) ∧
    afterExec (.packz 1 2) (stateWith [(2, .scalar 0x1000), (3, .scalar 0)] [])
      (fun t => t.reg 1) = some (.block (.b64 0)) := by decide +kernel

/-- V-X1, V-X2, V-X3. -/
theorem test_packz_faults :
    faultOf (.packz 1 2) (stateWith [(2, .scalar 0x100), (3, .scalar 9)] []) = some [1, 4, 0, 9, 3] ∧
    faultOf (.packz 1 2) (stateWith [(2, .scalar 0x1001), (3, .scalar 0)] []) = some [4, 1, 0, 0x1001, 3] ∧
    faultOf (.packz 1 2) (stateWith [(2, .scalar 0x100)] []) = some [5, 0, 0, 3, 3] := by decide +kernel

/-- V-B7, V-B8, V-B9. -/
theorem test_bitat :
    afterExec (.bitat 6 2 7) (stateWith [(2, .block (.b64 0x4142434445464748)), (7, .scalar 3)] [])
      (fun t => t.reg 6) = some (.scalar 1) ∧
    afterExec (.bitat 6 2 7) (stateWith [(2, .block (.b64 0x4142434445464748)), (7, .scalar 0)] [])
      (fun t => t.reg 6) = some (.scalar 0) ∧
    afterExec (.bitat 1 2 3) (stateWith [(2, .block (.b64 0x8000000000000000)), (3, .scalar 63)] [])
      (fun t => t.reg 1) = some (.scalar 1) := by decide +kernel

/-- V-X7, V-X8, V-X9. -/
theorem test_bitat_faults :
    faultOf (.bitat 1 2 3)
      (stateWith [(2, .block (.b64 0x8000000000000000)), (3, .scalar 64)] []) = some [1, 3, 0, 64, 3] ∧
    faultOf (.bitat 1 2 3) (stateWith [(2, .block (.b32 1)), (3, .scalar 32)] []) = some [1, 3, 0, 32, 3] ∧
    faultOf (.bitat 1 2 3) (stateWith [(2, .scalar 1), (3, .scalar 0)] []) = some [1, 1, 0, 2, 3] := by decide +kernel

/-- V-B10, V-B11. -/
theorem test_xor :
    afterExec (.xor 3 1 2) (stateWith [(1, .block (.b32 0xFFFF0000)), (2, .block (.b32 0x0F0F0F0F))] [])
      (fun t => t.reg 3) = some (.block (.b32 0xF0F00F0F)) ∧
    afterExec (.xor 2 1 1) (stateWith [(1, .block (.b48 0x123456789ABC))] [])
      (fun t => t.reg 2) = some (.block (.b48 0)) := by decide +kernel

/-- V-X12, V-X13. -/
theorem test_xor_faults :
    faultOf (.xor 1 2 3) (stateWith [(2, .block (.b32 1)), (3, .block (.b48 1))] []) = some [1, 1, 0, 3, 3] ∧
    faultOf (.xor 1 2 3) (stateWith [(2, .scalar 1), (3, .scalar 1)] []) = some [1, 1, 0, 2, 3] := by decide +kernel

/-- V-B13, V-X10. -/
theorem test_blk32 :
    afterExec (.blk32 1 2) (stateWith [(2, .scalar 0xFFFFFFFF)] [])
      (fun t => t.reg 1) = some (.block (.b32 0xFFFFFFFF)) ∧
    faultOf (.blk32 1 2) (stateWith [(2, .scalar 0x100000000)] []) = some [1, 6, 0, 0x100000000, 3] := by decide +kernel

/-- V-B12, V-X11. -/
theorem test_blk48 :
    afterExec (.blk48 4 1) (stateWith [(1, .scalar 0x0123456789AB)] [])
      (fun t => t.reg 4) = some (.block (.b48 0x0123456789AB)) ∧
    faultOf (.blk48 1 2) (stateWith [(2, .scalar 0x1000000000000)] []) = some [1, 6, 0, 0x1000000000000, 3]
      := by decide +kernel

/-- V-B14. -/
theorem test_blk64 :
    afterExec (.blk64 6 1) (stateWith [(1, .scalar 0xFFFFFFFFFFFFFFFF)] [])
      (fun t => t.reg 6) = some (.block (.b64 0xFFFFFFFFFFFFFFFF)) := by decide +kernel

/-- V-B15. -/
theorem test_val :
    afterExec (.val 5 4) (stateWith [(4, .block (.b48 0x0123456789AB))] [])
      (fun t => t.reg 5) = some (.scalar 0x00000123456789AB) := by decide +kernel

/-- V-B17, V-B18. -/
theorem test_halves :
    afterExec (.halfhi 4 2) (stateWith [(2, .block (.b64 testdata))] [])
      (fun t => t.reg 4) = some (.block (.b32 0x54455354)) ∧
    afterExec (.halflo 3 2) (stateWith [(2, .block (.b64 testdata))] [])
      (fun t => t.reg 3) = some (.block (.b32 0x44415441)) := by decide +kernel

/-- V-B19. -/
theorem test_join :
    afterExec (.join 5 4 3) (stateWith [(4, .block (.b32 0x54455354)), (3, .block (.b32 0x44415441))] [])
      (fun t => t.reg 5) = some (.block (.b64 testdata)) := by decide +kernel

/-- V-F1 at i = 0, 1 and 15. -/
theorem test_setkey :
    afterExec (.setkey 3) (stateWith [(3, .block (.b64 keyABC))] [])
      (fun t => (t.keyed, t.key, t.sk[0], t.sk[1], t.sk[15])) =
      some (true, keyABC, 0x434445464748, 0x21A222A323A4, 0x828486888A8C) := by decide +kernel

/-- V-X21, V-X22. -/
theorem test_setkey_faults :
    faultOf (.setkey 2) (keyedWith keyABC (stateWith [] [])) = some [2, 2, 0, 0, 3] ∧
    faultOf (.setkey 2) (stateWith [(2, .block (.b48 1))] []) = some [1, 1, 0, 2, 3] := by decide +kernel

/-- R151 example, V-X20. -/
theorem test_getsk :
    afterExec (.getsk 6 15) (keyedWith keyABC (stateWith [] []))
      (fun t => t.reg 6) = some (.block (.b48 0x828486888A8C)) ∧
    faultOf (.getsk 1 3) (stateWith [] []) = some [2, 1, 0, 0, 3] := by decide +kernel

/-- V-F4. -/
theorem test_ip_fp :
    afterExec (.ip 3 2) (stateWith [(2, .block (.b64 testdata))] [])
      (fun t => t.reg 3) = some (.block (.b64 testdata)) ∧
    afterExec (.fp 3 2) (stateWith [(2, .block (.b64 0x0123456789ABCDEF))] [])
      (fun t => t.reg 3) = some (.block (.b64 0x0123456789ABCDEF)) := by decide +kernel

/-- V-F3a under TC1 and TC0, V-F3d. -/
theorem test_expand :
    afterExec (.expand 5 4) (stateWith [(4, .block (.b32 0x44415441))] [])
      (fun t => t.reg 5) = some (.block (.b48 0x404155404105)) ∧
    afterExec (.expand 5 4) (stateOn tc0Parameters [(4, .block (.b32 0x44415441))] [])
      (fun t => t.reg 5) = some (.block (.b48 0x544144415441)) ∧
    afterExec (.expand 5 4) (stateWith [(4, .block (.b32 1))] [])
      (fun t => t.reg 5) = some (.block (.b48 0x400000000001)) := by decide +kernel

/-- V-F3f, V-F3g, V-F3h, V-F3i: the readings D7, D8 and D9 of the spec. -/
theorem test_subst :
    afterExec (.subst 6 5) (stateWith [(5, .block (.b48 0x03051006064D))] [])
      (fun t => t.reg 6) = some (.block (.b32 0x7FF22014)) ∧
    afterExec (.subst 6 5) (stateWith [(5, .block (.b48 2))] []) (fun t => t.reg 6) = some (.block (.b32 0x7777777C)) ∧
    afterExec (.subst 6 5) (stateWith [(5, .block (.b48 1))] []) (fun t => t.reg 6) = some (.block (.b32 0x77777772)) ∧
    afterExec (.subst 6 5) (stateWith [(5, .block (.b48 0x20))] [])
      (fun t => t.reg 6) = some (.block (.b32 0x77777770)) := by decide +kernel

/-- V-F3m, V-F3n. -/
theorem test_permp :
    afterExec (.permp 7 6) (stateWith [(6, .block (.b32 0x7FF22014))] [])
      (fun t => t.reg 7) = some (.block (.b32 0x6DC39262)) ∧
    afterExec (.permp 7 6) (stateWith [(6, .block (.b32 1))] []) (fun t => t.reg 7) = some (.block (.b32 0x00100000))
      := by decide +kernel

/-- V-F3p under TC1 and TC0. -/
theorem test_roundf :
    afterExec (.roundf 9 4 8) (stateWith [(4, .block (.b32 0x44415441)), (8, .block (.b48 0x434445464748))] [])
      (fun t => t.reg 9) = some (.block (.b32 0x6DC39262)) ∧
    afterExec (.roundf 9 4 8)
      (stateOn tc0Parameters [(4, .block (.b32 0x44415441)), (8, .block (.b48 0x434445464748))] [])
      (fun t => t.reg 9) = some (.block (.b32 0x28A00864)) := by decide +kernel

/-- V-F5 under TC1 and TC0. -/
theorem test_enc :
    afterExec (.enc 3 2) (keyedWith keyABC (stateWith [(2, .block (.b64 testdata))] []))
      (fun t => t.reg 3) = some (.block (.b64 0x3A5A0755D41A61FE)) ∧
    afterExec (.enc 3 2) (keyedWith keyABC (stateOn tc0Parameters [(2, .block (.b64 testdata))] []))
      (fun t => t.reg 3) = some (.block (.b64 0xC00F7E122E220ABC)) := by decide +kernel

/-- V-X15, V-X14. -/
theorem test_enc_faults :
    faultOf (.enc 1 2) (stateWith [] []) = some [2, 1, 0, 0, 3] ∧
    faultOf (.enc 1 2) (keyedWith keyABC (stateWith [(2, .block (.b32 1))] [])) = some [1, 1, 0, 2, 3]
      := by decide +kernel

/-- V-F7, key 1 under TC1, where encode and decode differ. -/
theorem test_dec :
    afterExec (.dec 4 3) (keyedWith 1 (stateWith [(3, .block (.b64 testdata))] []))
      (fun t => t.reg 4) = some (.block (.b64 0x1B771C24FFC02082)) := by decide +kernel

/-- V-F8 with key "KEY" under TC1. -/
theorem test_encbuf :
    afterExec (.encbuf 3 4) (keyedWith 0x4B45590000000000
      (stateWith [(3, .scalar 0x200), (4, .scalar 0x100), (5, .scalar 11)] [(0x100, ascii "HELLO WORLD")]))
      (fun t => t.readBytes 0x200 16)
        = some ([0x99, 0x7F, 0x97, 0xD2, 0xA2, 0x8D, 0xBD, 0x54, 0x65, 0xD1, 0xF1, 0x6E, 0x18, 0xD5, 0xCE, 0x5B])
      := by decide +kernel

/-- V-X26, V-X27. -/
theorem test_encbuf_faults :
    faultOf (.encbuf 1 2) (keyedWith keyABC
      (stateWith [(1, .scalar 0xFF9), (2, .scalar 0), (3, .scalar 1)] [(0, [0])])) = some [4, 2, 0, 0xFF9, 3] ∧
    faultOf (.encbuf 1 2) (keyedWith keyABC
      (stateWith [(1, .scalar 0x1000), (2, .scalar 0xFFF), (3, .scalar 2)] [])) = some [4, 1, 0, 0xFFF, 3]
      := by decide +kernel

/-- V-F8: the padding is not stripped. -/
theorem test_decbuf :
    afterExec (.decbuf 8 6) (keyedWith 0x4B45590000000000
      (stateWith [(8, .scalar 0x300), (6, .scalar 0x200), (7, .scalar 16)]
        [(0x200, [0x99, 0x7F, 0x97, 0xD2, 0xA2, 0x8D, 0xBD, 0x54, 0x65, 0xD1, 0xF1, 0x6E, 0x18, 0xD5, 0xCE, 0x5B])]))
      (fun t => t.readBytes 0x300 16) = some (ascii "HELLO WORLD" ++ [0, 0, 0, 0, 0]) := by decide +kernel

/-- V-C1 and, in place, its inverse. -/
theorem test_xorrep :
    afterExec (.xorrep 1 2 4)
      (stateWith [(1, .scalar 0x120), (2, .scalar 0x100), (3, .scalar 5), (4, .scalar 0x110), (5, .scalar 3)]
        [(0x100, ascii "HELLO"), (0x110, ascii "KEY")])
      (fun t => t.readBytes 0x120 5) = some ([0x03, 0x00, 0x15, 0x07, 0x0A]) ∧
    afterExec (.xorrep 1 2 4)
      (stateWith [(1, .scalar 0x100), (2, .scalar 0x100), (3, .scalar 5), (4, .scalar 0x110), (5, .scalar 3)]
        [(0x100, [0x03, 0x00, 0x15, 0x07, 0x0A]), (0x110, ascii "KEY")])
      (fun t => t.readBytes 0x100 5) = some (ascii "HELLO") := by decide +kernel

/-- V-X28, V-X29, V-X30. -/
theorem test_xorrep_faults :
    faultOf (.xorrep 1 2 4)
      (stateWith [(1, .scalar 0), (2, .scalar 0), (3, .scalar 0), (4, .scalar 0), (5, .scalar 0)] [])
        = some [1, 2, 0, 0, 3] ∧
    faultOf (.xorrep 1 2 4)
      (stateWith [(1, .scalar 0), (2, .scalar 0), (3, .scalar 1), (4, .scalar 0x1000), (5, .scalar 1)] [])
        = some [4, 1, 0, 0x1000, 3] ∧
    faultOf (.xorrep 1 2 4)
      (stateWith [(1, .scalar 0xFFF), (2, .scalar 0), (3, .scalar 2), (4, .scalar 0), (5, .scalar 1)] [])
        = some [4, 2, 0, 0xFFF, 3]
      := by decide +kernel

/-- V-C2: shifts 27, -1 and -2^63. -/
theorem test_caesar :
    afterExec (.caesar 1 2 4)
      (stateWith [(1, .scalar 0x200), (2, .scalar 0x100), (3, .scalar 3), (4, .scalar 27)] [(0x100, ascii "Zz9")])
      (fun t => t.readBytes 0x200 3) = some (ascii "Aa0") ∧
    afterExec (.caesar 1 2 4)
      (stateWith [(1, .scalar 0x200), (2, .scalar 0x100), (3, .scalar 3), (4, .scalar 0xFFFFFFFFFFFFFFFF)]
        [(0x100, ascii "Aa0")])
      (fun t => t.readBytes 0x200 3) = some (ascii "Zz5") ∧
    afterExec (.caesar 1 2 4)
      (stateWith [(1, .scalar 0x200), (2, .scalar 0x100), (3, .scalar 1), (4, .scalar 0x8000000000000000)]
        [(0x100, ascii "A")])
      (fun t => t.readBytes 0x200 1) = some (ascii "S") := by decide +kernel

/-- V-C3, V-C4, V-X31. -/
theorem test_caesar_passthrough_and_digits :
    afterExec (.caesar 1 2 4)
      (stateWith [(1, .scalar 0x200), (2, .scalar 0x100), (3, .scalar 16), (4, .scalar 13)]
        [(0x100, ascii "Hello, World! " ++ [0x80, 0xFF])])
      (fun t => t.readBytes 0x200 16) = some (ascii "Uryyb, Jbeyq! " ++ [0x80, 0xFF]) ∧
    afterExec (.caesar 1 2 4)
      (stateWith [(1, .scalar 0x200), (2, .scalar 0x100), (3, .scalar 2), (4, .scalar 5)] [(0x100, ascii "09")])
      (fun t => t.readBytes 0x200 2) = some (ascii "54") ∧
    faultOf (.caesar 1 2 4)
      (stateWith [(1, .scalar 0), (2, .scalar 0), (3, .scalar 1), (4, .block (.b32 3))] []) = some [1, 1, 0, 4, 3]
      := by decide +kernel

/-- V-C6. -/
theorem test_plaus :
    afterExec (.plaus 1 2) (stateWith [(2, .scalar 0x100), (3, .scalar 6)] [(0x100, ascii "Hello" ++ [0x0A])])
      (fun t => t.reg 1) = some (.scalar 1) ∧
    afterExec (.plaus 1 2) (stateWith [(2, .scalar 0x100), (3, .scalar 3)] [(0x100, ascii "Hi" ++ [0x09])])
      (fun t => t.reg 1) = some (.scalar 0) ∧
    afterExec (.plaus 1 2) (stateWith [(2, .scalar 0x100), (3, .scalar 0)] [(0x100, [])])
      (fun t => t.reg 1) = some (.scalar 1) ∧
    afterExec (.plaus 1 2) (stateWith [(2, .scalar 0x100), (3, .scalar 1)] [(0x100, [0x7E])])
      (fun t => t.reg 1) = some (.scalar 1) ∧
    afterExec (.plaus 1 2) (stateWith [(2, .scalar 0x100), (3, .scalar 1)] [(0x100, [0x7F])])
      (fun t => t.reg 1) = some (.scalar 0) := by decide +kernel

/-- V-C7: records 0 and 18, and no hit among the keys before 0x17; V-C8: of a one-byte cipher, 96 keys are hits. -/
theorem test_bfx1 :
    searchRecords [0x1D, 0x30, 0x39, 0x39, 0x3A, 0x75, 0x22, 0x3A, 0x27, 0x39, 0x31] (oneByteTrials.take 0x18) =
      [[0x17, 0x0A, 0x27, 0x2E, 0x2E, 0x2D, 0x62, 0x35, 0x2D, 0x30, 0x2E, 0x26]] ∧
    searchRecords [0x1D, 0x30, 0x39, 0x39, 0x3A, 0x75, 0x22, 0x3A, 0x27, 0x39, 0x31]
      ((oneByteTrials.drop 0x55).take 1) = [0x55 :: ascii "Hello world"] ∧
    afterExec (.bfx1 1 2 4) (stateWith [(2, .scalar 0x100), (3, .scalar 1), (4, .scalar 0x400), (5, .scalar 96)]
      [(0x100, [0x00])]) (fun t => (t.reg 1, t.readBytes 0x400 4)) =
      some (.scalar 96, [0x0A, 0x0A, 0x20, 0x20]) := by decide +kernel

/-- V-C8: 96 hits, one more than the capacity; V-X35: no hit, but the address of the empty output region is past DMEM. -/
theorem test_bfx1_faults :
    faultOf (.bfx1 1 2 4) (stateWith [(2, .scalar 0x100), (3, .scalar 1), (4, .scalar 0x400), (5, .scalar 95)]
      [(0x100, [0x00])]) = some [1, 5, 0, 96, 3] ∧
    faultOf (.bfx1 1 2 4) (stateWith [(2, .scalar 0x100), (3, .scalar 2), (4, .scalar 0x5000), (5, .scalar 0)]
      [(0x100, [0x00, 0x80])]) = some [4, 2, 0, 0x5000, 3] := by decide +kernel

/-- V-C8: BFX2's keys in order, its hit 0, and its hit 1568, the key (0x10, 0x20); the whole search is 65536 trials, too
many to run here. -/
theorem test_bfx2_trials :
    twoByteTrials.take 2 = [⟨[0, 0], [0, 0]⟩, ⟨[0, 1], [0, 1]⟩] ∧
    searchRecords [0x58, 0x49, 0x31] (twoByteTrials.take 1) = [[0, 0] ++ ascii "XI1"] ∧
    searchRecords [0x58, 0x49, 0x31] ((twoByteTrials.drop 0x1020).take 1) = [[0x10, 0x20] ++ ascii "Hi!"] := by
  decide +kernel

/-- R213: BFX2 reads its pairs first, then checks the cipher. -/
theorem test_bfx2_faults :
    faultOf (.bfx2 1 2 4) (stateWith [(2, .scalar 0xFFF), (3, .scalar 2), (4, .scalar 0)] []) = some [5, 0, 0, 5, 3] ∧
    faultOf (.bfx2 1 2 4) (stateWith [(2, .scalar 0xFFF), (3, .scalar 2), (4, .scalar 0), (5, .scalar 0)] []) =
      some [4, 1, 0, 0xFFF, 3] := by decide +kernel

/-- V-C9: three records of 9 bytes. -/
theorem test_bfxd :
    afterExec (.bfxd 1 2 4 6)
      (stateWith [(2, .scalar 0x100), (3, .scalar 5), (4, .scalar 0x400), (5, .scalar 8), (6, .scalar 0x200), (7, .scalar 3)]
        [(0x100, [0x03, 0x00, 0x15, 0x07, 0x0A]), (0x200, 3 :: ascii "ABC" ++ 3 :: ascii "KEY" ++ 2 :: ascii "KE")])
      (fun t => (t.reg 1, t.readBytes 0x400 27)) = some (.scalar 3,
        [0, 0, 0, 0] ++ ascii "BBVFH" ++ [0, 0, 0, 1] ++ ascii "HELLO" ++ [0, 0, 0, 2] ++ ascii "HE^BA")
      := by decide +kernel

/-- V-C9: capacity 2; an empty entry; V-X36. -/
theorem test_bfxd_faults :
    faultOf (.bfxd 1 2 4 6)
      (stateWith [(2, .scalar 0x100), (3, .scalar 5), (4, .scalar 0x400), (5, .scalar 2), (6, .scalar 0x200), (7, .scalar 3)]
        [(0x100, [0x03, 0x00, 0x15, 0x07, 0x0A]), (0x200, 3 :: ascii "ABC" ++ 3 :: ascii "KEY" ++ 2 :: ascii "KE")])
        = some [1, 5, 0, 3, 3] ∧
    faultOf (.bfxd 1 2 4 6)
      (stateWith [(2, .scalar 0x100), (3, .scalar 5), (4, .scalar 0x400), (5, .scalar 8), (6, .scalar 0x200), (7, .scalar 3)]
        [(0x100, [0x03, 0x00, 0x15, 0x07, 0x0A]), (0x200, 3 :: ascii "ABC" ++ 0 :: 3 :: ascii "KEY")])
        = some [1, 2, 0, 1, 3] ∧
    faultOf (.bfxd 1 2 4 6)
      (stateWith [(2, .scalar 0x100), (3, .scalar 5), (4, .scalar 0x400), (5, .scalar 8), (6, .scalar 0xFFE), (7, .scalar 1)]
        [(0x100, [0x03, 0x00, 0x15, 0x07, 0x0A]), (0xFFE, 5 :: ascii "A")]) = some [4, 1, 0, 0xFFF, 3]
      := by decide +kernel

/-- V-C10. -/
theorem test_ckey :
    afterExec (.ckey 1 2) (stateWith [(2, .scalar 0x200), (3, .scalar 11)] [(0x200, ascii "hhhhhhhhabc")])
      (fun t => t.reg 1) = some (.scalar 3) ∧
    afterExec (.ckey 1 2) (stateWith [(2, .scalar 0x200), (3, .scalar 0)] [(0x200, [])])
      (fun t => t.reg 1) = some (.scalar 22) ∧
    afterExec (.ckey 1 2) (stateWith [(2, .scalar 0x200), (3, .scalar 2)] [(0x200, ascii "bA")])
      (fun t => t.reg 1) = some (.scalar 22) ∧
    afterExec (.ckey 1 2) (stateWith [(2, .scalar 0x200), (3, .scalar 1)] [(0x200, ascii "E")])
      (fun t => t.reg 1) = some (.scalar 0) ∧
    afterExec (.ckey 1 2) (stateWith [(2, .scalar 0x200), (3, .scalar 3)] [(0x200, ascii "zzz")])
      (fun t => t.reg 1) = some (.scalar 21) := by decide +kernel

/-! ## Witnesses: a concrete state and operands for the hypotheses of each obligation

`wit` is keyed and RUNNING on TC1 with DMEM_SIZE 4096 and CMD_DEPTH 64. r0 to r9 hold scalars at the edges of the ranges
(r0:r1 is the last 8 bytes of DMEM, r2:r3 8 bytes of which the last is out of bounds, r4:r5 a text of 5 bytes, r6:r7 its
key of 3 bytes, r8:r9 an output region with room for 257 records and one more byte of DMEM than it needs), r10 to r12
blocks of each width, r13 is unwritten, r14:r15 is an address at the end of DMEM and an empty length. `unkeyedWit` is
`wit` without the key. -/

/-- The witness state before a key is bound. -/
def unkeyedWit : State :=
  stateWith [(0, .scalar 0xFF8), (1, .scalar 8), (2, .scalar 0xFF9), (3, .scalar 8), (4, .scalar 0x100), (5, .scalar 5),
    (6, .scalar 0x110), (7, .scalar 3), (8, .scalar 0x200), (9, .scalar 9), (10, .block (.b32 0xFFFFFFFF)),
    (11, .block (.b48 0xFFFFFFFFFFFF)), (12, .block (.b64 testdata)), (14, .scalar 0x1000), (15, .scalar 0)]
    [(0x100, [0x03, 0x00, 0x15, 0x07, 0x0A]), (0x110, ascii "KEY")]

/-- The witness state. -/
def wit : State := keyedWith keyABC unkeyedWit

/-- The witness state with one register changed. -/
def witSet (n : Reg) (v : Scalar) : State := wit.setReg n (.scalar v)

/-- The witness state at the last word of CMDMEM, which holds `w`. -/
def witAt (w : Command) : State := { wit.storeCmd 63 w with pc := 63 }

/-- The witness state after a fault. -/
def witFaulted : State := wit.takeFault .alreadyKeyed

/-- Every pair field at its greatest register, and at its least. -/
theorem test_witness_DecodeOfEncode :
    (Instr.bfxd 15 14 14 14).wellFormed = true ∧ (Instr.bfxd 0 0 0 0).wellFormed = true := by decide

theorem test_witness_EncodeOfDecode : decode 0x00EEEF35 = .ok (.bfxd 15 14 14 14) := by decide

theorem test_witness_OpcodeMapDecides : decode 0xFFFFFF03 = .ok (.li 15 0xFFFFF) := by decide

theorem test_witness_StepRunsDecodedCommand :
    let s := witAt 0x00EEEF35
    s.runState = .running ∧ s.pc.toNat < s.cfg.cmdDepth ∧ decode (s.cmdWord s.pc.toNat) = .ok (.bfxd 15 14 14 14) := by
  intro s; decide +kernel

/-- At CMD_DEPTH, and at the word before it. -/
theorem test_witness_FetchAndDecodeFaults :
    let s := { wit with pc := 64 }
    let t := witAt 0x00FEEF35
    s.runState = .running ∧ s.cfg.cmdDepth ≤ s.pc.toNat ∧
    t.runState = .running ∧ t.pc.toNat < t.cfg.cmdDepth ∧ decode (t.cmdWord t.pc.toNat) = .error .oddPair := by
  intro s t; decide +kernel

theorem test_witness_EngineStepsExactlyWhileRunning :
    wit.runState = .running ∧ State.reset.runState ≠ .running ∧ wit.halt.runState ≠ .running ∧
    witFaulted.runState ≠ .running := by
  decide +kernel

theorem test_witness_EveryRunEnds : wit.runState = .running ∧ (witAt 1).runState = .running := by
  decide +kernel

/-- A keyed engine with both memories written, RUNNING; its next step; and a FAULTED one. -/
theorem test_witness_invariant : (witAt 0x00000001).Inv ∧ witFaulted.Inv := by
  constructor <;> constructor <;> decide +kernel

theorem test_witness_StepKeepsInvariant :
    (witAt 0x00000001).Inv ∧ ∃ t, step (witAt 0x00000001) = .next t ∧ t.pc = 64 :=
  ⟨test_witness_invariant.1, _, rfl, by decide +kernel⟩

theorem test_witness_HostKeepsInvariant : witFaulted.Inv := test_witness_invariant.2

theorem test_witness_ResetAfterCommandKeepsItsMemory :
    (∃ t, step (witAt 0x0000C811) = .next t ∧ t.byte 0x200 = 0x54) ∧ wit.halt.runState ≠ .running :=
  ⟨⟨_, rfl, by decide +kernel⟩, by decide +kernel⟩

/-- A host that starts, writes a register and reads STATUS between engine steps. -/
theorem test_witness_KeyBoundUntilReset :
    wit.keyed = true ∧ ∀ e ∈ [Event.engine, .host .start, .engine, .host (.writeReg 15 .b32 0xFFFFFFFF), .host .readStatus],
      e.noReset = true := by
  decide +kernel

theorem test_witness_OnlySetkeyBindsKey :
    ∃ t, exec (.setkey 12) unkeyedWit = .next t ∧
      ¬ (t.keyed = unkeyedWit.keyed ∧ t.key = unkeyedWit.key ∧ t.sk = unkeyedWit.sk) :=
  ⟨_, rfl, by decide +kernel⟩

theorem test_witness_FaultsArePrecise :
    wit.runState = .running ∧ ∃ t, exec (.unpack64 2 12) wit = .next t ∧ t.runState = .faulted :=
  ⟨by decide +kernel, _, rfl, by decide +kernel⟩

theorem test_witness_RaiseTableHolds :
    unkeyedWit.runState = .running ∧ ∃ t, exec (.enc 0 13) unkeyedWit = .next t ∧ t.runState = .faulted :=
  ⟨by decide +kernel, _, rfl, by decide +kernel⟩

/-- A command that completes, HALT, and a command that faults. -/
theorem test_witness_PcRule :
    wit.runState = .running ∧ (∃ t, exec (.bitat 13 12 1) wit = .next t ∧ t.runState = .running) ∧
    (∃ t, exec .halt wit = .next t ∧ t.runState = .halted) ∧
    ∃ t, exec (.bitat 13 12 13) wit = .next t ∧ t.runState = .faulted :=
  ⟨by decide +kernel, ⟨_, rfl, by decide +kernel⟩, ⟨_, rfl, by decide +kernel⟩, _, rfl, by decide +kernel⟩

theorem test_witness_CommandsLeaveHostState :
    ∃ t, exec (.encbuf 8 4) wit = .next t ∧ t.runState ≠ .faulted := ⟨_, rfl, by decide +kernel⟩

/-- A command that does not store, and one that stores the last byte of DMEM. -/
theorem test_witness_OnlyStoringCommandsWriteMemory :
    (∃ t, exec (.packz 13 0) wit = .next t ∧ storesMemory (.packz 13 0) = false ∧ wit.cfg.dmemSize ≤ 0x1000) ∧
    ∃ t, exec (.unpack64 0 12) wit = .next t ∧ t.byte 0xFFF = 0x41 :=
  ⟨⟨_, rfl, by decide +kernel, by decide +kernel⟩, _, rfl, by decide +kernel⟩

theorem test_witness_FaultHeldUntilReset :
    witFaulted.runState = .faulted ∧ ∀ e ∈ [Event.engine, .host .start, .host (.writeStartPc 5), .engine],
      e.noReset = true := by
  decide +kernel

/-- A register of each tag, and a pair of which the first, the second, and no register is bad. -/
theorem test_witness_RegisterPrimitives :
    wit.reg 13 = .unwritten ∧ wit.reg 0 = .scalar 0xFF8 ∧ wit.reg 10 = .block (.b32 0xFFFFFFFF) ∧
    wit.reg 11 = .block (.b48 0xFFFFFFFFFFFF) ∧ wit.reg 12 = .block (.b64 testdata) ∧
    wit.readS 12 = .error (.tagMismatch 12) ∧
    (wit.setReg 12 (.scalar 1)).readS 12 = .ok 1 ∧ wit.readS (Reg.second 12) = .error (.unwritten 13) ∧
    (14 : Reg).val % 2 = 0 ∧ wit.readS 14 = .ok 0x1000 ∧ wit.readS (Reg.second 14) = .ok 0 := by
  decide +kernel

theorem test_witness_PackingIsBigEndian : (ascii "ABCDEFGH").length = 8 := by decide +kernel

theorem test_witness_SequencerCommands :
    wit.reg 0 = .scalar 0xFF8 ∧ wit.reg 10 ≠ .unwritten ∧ wit.reg 0 ≠ .unwritten := by
  decide +kernel

/-- The last 8 bytes of DMEM; 8 bytes and none; the end of DMEM. -/
theorem test_witness_PackAndUnpackCommands :
    wit.reg 0 = .scalar 0xFF8 ∧ (0xFF8 : Scalar).toNat + 8 ≤ wit.cfg.dmemSize ∧
    wit.reg (Reg.second 0) = .scalar 8 ∧ (8 : Scalar).toNat ≤ 8 ∧
    wit.reg 14 = .scalar 0x1000 ∧ wit.reg (Reg.second 14) = .scalar 0 ∧
    (0x1000 : Scalar).toNat + (0 : Scalar).toNat ≤ wit.cfg.dmemSize ∧ wit.reg 12 = .block (.b64 testdata) := by
  decide +kernel

/-- The last bit of a B32 block, and the index past it. -/
theorem test_witness_BitatCommand :
    let s := witSet 0 31
    let t := witSet 0 32
    s.reg 10 = .block (.b32 0xFFFFFFFF) ∧ s.reg 0 = .scalar 31 ∧
    (31 : Scalar).toNat < (Block.b32 0xFFFFFFFF).width ∧
    t.reg 10 = .block (.b32 0xFFFFFFFF) ∧ t.reg 0 = .scalar 32 ∧
    (Block.b32 0xFFFFFFFF).width ≤ (32 : Scalar).toNat := by
  intro s t; decide +kernel

theorem test_witness_XorCommand :
    wit.reg 10 = .block (.b32 0xFFFFFFFF) ∧ wit.reg 11 = .block (.b48 0xFFFFFFFFFFFF) ∧
    wit.reg 12 = .block (.b64 testdata) ∧ (Block.b32 0xFFFFFFFF).width ≠ (Block.b48 0xFFFFFFFFFFFF).width := by
  decide +kernel

/-- The greatest scalar of 32 bits, of 48 and of 64. -/
theorem test_witness_ConversionCommands :
    (witSet 0 0xFFFFFFFF).reg 0 = .scalar 0xFFFFFFFF ∧ (0xFFFFFFFF : Scalar).toNat < 2 ^ 32 ∧
    (witSet 0 0xFFFFFFFFFFFF).reg 0 = .scalar 0xFFFFFFFFFFFF ∧ (0xFFFFFFFFFFFF : Scalar).toNat < 2 ^ 48 ∧
    (witSet 0 0xFFFFFFFFFFFFFFFF).reg 0 = .scalar 0xFFFFFFFFFFFFFFFF ∧ wit.reg 10 = .block (.b32 0xFFFFFFFF) ∧
    wit.reg 11 = .block (.b48 0xFFFFFFFFFFFF) ∧ wit.reg 12 = .block (.b64 testdata) := by
  decide +kernel

theorem test_witness_HalvesAndJoin :
    wit.reg 12 = .block (.b64 testdata) ∧ wit.reg 10 = .block (.b32 0xFFFFFFFF) := by
  decide +kernel

theorem test_witness_PackUnpackLaws :
    (13 : Reg) ≠ 0 ∧ wit.reg 0 = .scalar 0xFF8 ∧ (0xFF8 : Scalar).toNat + 8 ≤ wit.cfg.dmemSize ∧
    wit.reg 12 = .block (.b64 testdata) := by
  decide +kernel

/-- Operands with an unwritten and a mismatched register, a region one byte too long, a scalar one too great. -/
theorem test_witness_SequencerAndBitBlockFaults :
    wit.readS 13 = .error (.unwritten 13) ∧ wit.reg 13 = .unwritten ∧ wit.readS 2 = .ok 0xFF9 ∧
    wit.cfg.dmemSize < (0xFF9 : Scalar).toNat + 8 ∧
    (witSet 0 0x100000000).readS 0 = .ok 0x100000000 ∧ 2 ^ 32 ≤ (0x100000000 : Scalar).toNat ∧
    (witSet 0 0x1000000000000).readS 0 = .ok 0x1000000000000 ∧ 2 ^ 48 ≤ (0x1000000000000 : Scalar).toNat ∧
    wit.readB64 10 = .error (.tagMismatch 10) ∧ wit.readB64 12 = .ok testdata ∧
    wit.readPair 12 = .error (.tagMismatch 12) ∧ wit.readPair 8 = .ok (0x200, 9) ∧ 8 < (9 : Scalar).toNat ∧
    wit.readPair 2 = .ok (0xFF9, 8) ∧ (8 : Scalar).toNat ≤ 8 ∧
    wit.cfg.dmemSize < (0xFF9 : Scalar).toNat + (8 : Scalar).toNat ∧
    wit.readAnyB 0 = .error (.tagMismatch 0) ∧ wit.readAnyB 10 = .ok (.b32 0xFFFFFFFF) ∧
    wit.readB32 11 = .error (.tagMismatch 11) ∧ wit.readB32 10 = .ok 0xFFFFFFFF := by
  decide +kernel

theorem test_witness_SetkeyBindsSchedule :
    unkeyedWit.keyed = false ∧ unkeyedWit.reg 12 = .block (.b64 testdata) := by
  decide +kernel

theorem test_witness_GetskAndIdentityPermutations :
    (witAt 0x00000001).Inv ∧ (witAt 0x00000001).keyed = true ∧ wit.keyed = true ∧
    wit.reg 12 = .block (.b64 testdata) :=
  ⟨test_witness_invariant.1, by decide +kernel, by decide +kernel, by decide +kernel⟩

theorem test_witness_TableCommands : wit.reg 10 = .block (.b32 0xFFFFFFFF) := by decide +kernel

theorem test_witness_SubstCommand : wit.reg 11 = .block (.b48 0xFFFFFFFFFFFF) := by decide +kernel

theorem test_witness_RoundfCommand :
    wit.reg 10 = .block (.b32 0xFFFFFFFF) ∧ wit.reg 11 = .block (.b48 0xFFFFFFFFFFFF) := by
  decide +kernel

theorem test_witness_EncDecRounds : wit.keyed = true ∧ wit.reg 12 = .block (.b64 testdata) := by
  decide +kernel

theorem test_witness_DecodeInvertsEncode : wit.keyed = true ∧ wit.reg 12 = .block (.b64 testdata) := by
  decide +kernel

/-- 8 bytes, the last of DMEM, coded in place; and 9 bytes from 0xFF7 into 16 at 0xFF0, the end of DMEM. -/
theorem test_witness_BufferCommands :
    (wit.keyed = true ∧ wit.reg 0 = .scalar 0xFF8 ∧ wit.reg (Reg.second 0) = .scalar 8 ∧
      (0xFF8 : Scalar).toNat + (8 : Scalar).toNat ≤ wit.cfg.dmemSize ∧
      (0xFF8 : Scalar).toNat + 8 * (((8 : Scalar).toNat + 7) / 8) ≤ wit.cfg.dmemSize) ∧
    (let s := (witSet 8 0xFF7).setReg 4 (.scalar 0xFF0);
      s.keyed = true ∧ s.reg 4 = .scalar 0xFF0 ∧ s.reg 8 = .scalar 0xFF7 ∧ s.reg (Reg.second 8) = .scalar 9 ∧
      (0xFF7 : Scalar).toNat + (9 : Scalar).toNat ≤ s.cfg.dmemSize ∧
      (0xFF0 : Scalar).toNat + 8 * (((9 : Scalar).toNat + 7) / 8) ≤ s.cfg.dmemSize) := by
  decide +kernel

/-- The text of 5 bytes at r4, coded to the last 8 bytes of DMEM (r0:r1), decoded to r8. -/
theorem test_witness_DecbufInvertsEncbuf :
    wit.keyed = true ∧ wit.reg 0 = .scalar 0xFF8 ∧ wit.reg 4 = .scalar 0x100 ∧ wit.reg (Reg.second 4) = .scalar 5 ∧
    wit.reg 8 = .scalar 0x200 ∧ wit.reg (Reg.second 0) = .scalar 8 ∧
    (8 : Scalar).toNat = 8 * (((5 : Scalar).toNat + 7) / 8) ∧
    (0x100 : Scalar).toNat + (5 : Scalar).toNat ≤ wit.cfg.dmemSize ∧
    (0xFF8 : Scalar).toNat + (8 : Scalar).toNat ≤ wit.cfg.dmemSize ∧
    (0x200 : Scalar).toNat + (8 : Scalar).toNat ≤ wit.cfg.dmemSize := by
  decide +kernel

/-- The weak key of all ones: its 16 subkeys are equal. -/
theorem test_witness_KeyScheduleConsequences :
    ∀ i j : Fin 16, (generateSubkeys 0xFFFFFFFFFFFFFFFF)[i] = (generateSubkeys 0xFFFFFFFFFFFFFFFF)[j] := by
  decide +kernel

/-- An output that ends one byte past DMEM: 16 bytes at 0xFF1, of an input of 9 bytes at 0xFF7. -/
theorem test_witness_FeistelFaults :
    wit.keyed = true ∧ unkeyedWit.keyed = false ∧ unkeyedWit.readB64 11 = .error (.tagMismatch 11) ∧
    wit.readB64 13 = .error (.unwritten 13) ∧ wit.readB32 12 = .error (.tagMismatch 12) ∧
    wit.readB48 10 = .error (.tagMismatch 10) ∧ wit.readB32 10 = .ok 0xFFFFFFFF ∧
    wit.readS 12 = .error (.tagMismatch 12) ∧ wit.readS 0 = .ok 0xFF8 ∧ wit.readPair 12 = .error (.tagMismatch 12) ∧
    wit.readPair 2 = .ok (0xFF9, 8) ∧ wit.cfg.dmemSize < (0xFF9 : Scalar).toNat + (8 : Scalar).toNat ∧
    (let s := (witSet 8 0xFF7).setReg 4 (.scalar 0xFF1);
      s.keyed = true ∧ s.readS 4 = .ok 0xFF1 ∧ s.readPair 8 = .ok (0xFF7, 9) ∧
      (0xFF7 : Scalar).toNat + (9 : Scalar).toNat ≤ s.cfg.dmemSize ∧
      s.cfg.dmemSize < (0xFF1 : Scalar).toNat + 8 * (((9 : Scalar).toNat + 7) / 8)) := by
  decide +kernel

/-- Data and output the last 8 bytes of DMEM with a key of 3; and an empty key. -/
theorem test_witness_XorrepCommand :
    wit.reg 0 = .scalar 0xFF8 ∧ wit.reg (Reg.second 0) = .scalar 8 ∧ wit.reg 6 = .scalar 0x110 ∧
    wit.reg (Reg.second 6) = .scalar 3 ∧ (3 : Scalar) ≠ 0 ∧
    (0xFF8 : Scalar).toNat + (8 : Scalar).toNat ≤ wit.cfg.dmemSize ∧
    (0x110 : Scalar).toNat + (3 : Scalar).toNat ≤ wit.cfg.dmemSize ∧
    wit.reg 14 = .scalar 0x1000 ∧ wit.reg (Reg.second 14) = .scalar 0 := by
  decide +kernel

/-- A key that starts where the data ends, and a key that ends where the data starts. -/
theorem test_witness_XorrepTwiceRestores :
    (let s := (witSet 4 0x10B).setReg 8 (.scalar 0x10B);
      s.reg 8 = .scalar 0x10B ∧ s.reg 4 = .scalar 0x10B ∧ s.reg (Reg.second 4) = .scalar 5 ∧
      s.reg 6 = .scalar 0x110 ∧ s.reg (Reg.second 6) = .scalar 3 ∧ (3 : Scalar) ≠ 0 ∧
      (0x10B : Scalar).toNat + (5 : Scalar).toNat ≤ s.cfg.dmemSize ∧
      (0x110 : Scalar).toNat + (3 : Scalar).toNat ≤ s.cfg.dmemSize ∧
      (0x10B : Scalar).toNat + (5 : Scalar).toNat ≤ (0x110 : Scalar).toNat) ∧
    (0x110 : Scalar).toNat + (3 : Scalar).toNat ≤ (0x113 : Scalar).toNat := by
  decide +kernel

/-- A text of 8 bytes at the end of DMEM, in place, with a shift of -1. -/
theorem test_witness_CaesarCommand :
    let s := witSet 6 0xFFFFFFFFFFFFFFFF
    s.reg 0 = .scalar 0xFF8 ∧ s.reg (Reg.second 0) = .scalar 8 ∧ s.reg 6 = .scalar 0xFFFFFFFFFFFFFFFF ∧
    (0xFF8 : Scalar).toNat + (8 : Scalar).toNat ≤ s.cfg.dmemSize := by
  intro s; decide +kernel

/-- The shift -1 and the shift 1 that undoes it; the shift 26 and 26; a letter, a digit and neither. -/
theorem test_witness_CaesarLaws :
    (1 : Scalar).toInt = 26 - (0xFFFFFFFFFFFFFFFF : Scalar).toInt % 26 ∧
    (0xFFFFFFFFFFFFFFFF : Scalar).toInt % 26 ≠ 0 ∧
    (26 : Scalar).toInt = 26 - (26 : Scalar).toInt % 26 ∧ (26 : Scalar).toInt % 26 = 0 ∧
    (0x61 ≤ (0x7A : Byte).toNat ∧ (0x7A : Byte).toNat ≤ 0x7A) ∧
    (0x30 ≤ (0x30 : Byte).toNat ∧ (0x30 : Byte).toNat ≤ 0x39) ∧
    ¬ ((0x61 ≤ (0x7B : Byte).toNat ∧ (0x7B : Byte).toNat ≤ 0x7A) ∨
      (0x41 ≤ (0x7B : Byte).toNat ∧ (0x7B : Byte).toNat ≤ 0x5A)) ∧
    ¬ (0x30 ≤ (0x7B : Byte).toNat ∧ (0x7B : Byte).toNat ≤ 0x39) := by
  decide +kernel

theorem test_witness_PlausCommand :
    wit.reg 0 = .scalar 0xFF8 ∧ wit.reg (Reg.second 0) = .scalar 8 ∧
    (0xFF8 : Scalar).toNat + (8 : Scalar).toNat ≤ wit.cfg.dmemSize := by
  decide +kernel

/-- BFX1 over the empty cipher, of which every key is a hit: 256 records of 1 byte fill DMEM from 0xF00, with capacity
256. -/
theorem test_witness_BruteForceCommands :
    let s := (witSet 8 0xF00).setReg 9 (.scalar 256)
    let hits1 := (List.range 256).filter fun k => ((List.range (0 : Scalar).toNat).map fun i =>
      s.byte ((0x1000 : Scalar).toNat + i) ^^^ BitVec.ofNat 8 (if i % 2 = 0 then k else k)).all fun x =>
        (0x20 ≤ x.toNat && x.toNat ≤ 0x7E) || x == 0x0A
    s.reg 14 = .scalar 0x1000 ∧ s.reg (Reg.second 14) = .scalar 0 ∧ s.reg 8 = .scalar 0xF00 ∧
    s.reg (Reg.second 8) = .scalar 256 ∧ (0x1000 : Scalar).toNat + (0 : Scalar).toNat ≤ s.cfg.dmemSize ∧
    hits1.length ≤ (256 : Scalar).toNat ∧
    (0xF00 : Scalar).toNat + hits1.length * (1 + (0 : Scalar).toNat) ≤ s.cfg.dmemSize := by
  intro s hits1; decide +kernel

/-- BFX2 never has more hits than the 65536 keys it tries. -/
theorem test_bfx2_hits (f : Nat × Nat → Bool) :
    (((List.range 256).flatMap fun b1 => (List.range 256).map fun b2 => (b1, b2)).filter f).length ≤ 65536 :=
  Nat.le_trans (List.length_filter_le _ _)
    (by simp only [List.length_flatMap, List.length_map, List.length_range, List.map_const', List.sum_replicate,
      smul_eq_mul]; decide)

/-- V-C8: of the empty cipher every key is a hit. -/
theorem test_empty_cipher (trials : List Trial) : (searchRecords [] trials).length = trials.length := by
  have h : hitRecord? [] = fun t => some t.name := by
    funext t
    simp [hitRecord?, xorRepeat, isPlausible]
  rw [searchRecords, h, List.filterMap_eq_map', List.length_map]

/-- V-C8: of the empty cipher, 65536 two-byte keys are hits. -/
theorem test_bfx2_empty_cipher : (searchRecords [] twoByteTrials).length = 65536 := by
  rw [test_empty_cipher, twoByteTrials]
  simp only [List.length_flatMap, List.length_map, List.length_range, List.map_const', List.sum_replicate,
    smul_eq_mul]

/-- The platform TC1 with a DMEM of 2^18 bytes, and the operands of a BFX2 with capacity 65536 over an empty cipher. -/
def bfx2Wit : State :=
  stateOn { tc1Parameters with dmemSize := 0x40000 }
    [(2, .scalar 0), (3, .scalar 0), (4, .scalar 0x20000), (5, .scalar 65536)] []

/-- BFX2 over the empty cipher: records of 2 bytes that end, at most, where DMEM ends. -/
theorem test_witness_BruteForceCommands_bfx2 :
    let s := bfx2Wit
    let hits2 := ((List.range 256).flatMap fun b1 => (List.range 256).map fun b2 => (b1, b2)).filter fun k =>
      ((List.range (0 : Scalar).toNat).map fun i =>
        s.byte ((0 : Scalar).toNat + i) ^^^ BitVec.ofNat 8 (if i % 2 = 0 then k.1 else k.2)).all fun x =>
          (0x20 ≤ x.toNat && x.toNat ≤ 0x7E) || x == 0x0A
    (s.reg 2 = .scalar 0 ∧ s.reg (Reg.second 2) = .scalar 0 ∧ s.reg 4 = .scalar 0x20000 ∧
      s.reg (Reg.second 4) = .scalar 65536 ∧ (0 : Scalar).toNat + (0 : Scalar).toNat ≤ s.cfg.dmemSize) ∧
    hits2.length ≤ (65536 : Scalar).toNat ∧
    (0x20000 : Scalar).toNat + hits2.length * (2 + (0 : Scalar).toNat) ≤ s.cfg.dmemSize := by
  intro s hits2
  have hl : hits2.length ≤ 65536 := test_bfx2_hits _
  have hd : s.cfg.dmemSize = 0x40000 := by decide +kernel
  refine ⟨by decide +kernel, hl, ?_⟩
  rw [hd]
  change 131072 + hits2.length * 2 ≤ 262144
  omega

/-- A cipher of "HELLO" under "KEY", a dictionary of that one key that ends at the end of DMEM, and an output region for
one record that ends there too. -/
def bfxdWit : State :=
  stateWith [(2, .scalar 0x100), (3, .scalar 5), (4, .scalar 0xFF7), (5, .scalar 1), (6, .scalar 0xFFC), (7, .scalar 1)]
    [(0x100, [0x03, 0x00, 0x15, 0x07, 0x0A]), (0xFFC, 3 :: ascii "KEY")]

theorem test_witness_DictionaryCommand :
    let s := bfxdWit
    let cand := fun k : List Byte => (List.range (5 : Scalar).toNat).map fun i =>
      s.byte ((0x100 : Scalar).toNat + i) ^^^ k.getD (i % k.length) 0
    let hits := [ascii "KEY"].zipIdx.filter fun e => isPlausible (cand e.1)
    s.reg 2 = .scalar 0x100 ∧ s.reg (Reg.second 2) = .scalar 5 ∧ s.reg 4 = .scalar 0xFF7 ∧
    s.reg (Reg.second 4) = .scalar 1 ∧ s.reg 6 = .scalar 0xFFC ∧ s.reg (Reg.second 6) = .scalar 1 ∧
    (0x100 : Scalar).toNat + (5 : Scalar).toNat ≤ s.cfg.dmemSize ∧ [ascii "KEY"].length = (1 : Scalar).toNat ∧
    DictLaid s [ascii "KEY"] (0xFFC : Scalar).toNat ∧
    hits.length ≤ (1 : Scalar).toNat ∧ (0xFF7 : Scalar).toNat + hits.length * (4 + (5 : Scalar).toNat) ≤
      s.cfg.dmemSize := by
  intro s cand hits
  unfold DictLaid DictLaid
  and_intros <;> first | exact trivial | decide +kernel

/-- BFX1: the plain text "H" under the key 0x55, with capacity for its 96 hits and a region that ends where DMEM does. -/
theorem test_witness_SearchesAreComplete_bfx1 :
    let s := stateWith [(2, .scalar 0x100), (3, .scalar 1), (4, .scalar 0xF40), (5, .scalar 96)]
      [(0x100, xorRepeat (ascii "H") [0x55])]
    let cipher := s.readBytes (0x100 : Scalar).toNat (1 : Scalar).toNat
    s.reg 2 = .scalar 0x100 ∧ s.reg (Reg.second 2) = .scalar 1 ∧ s.reg 4 = .scalar 0xF40 ∧
    s.reg (Reg.second 4) = .scalar 96 ∧ (0x100 : Scalar).toNat + (1 : Scalar).toNat ≤ s.cfg.dmemSize ∧
    isPlausible (ascii "H") = true ∧ cipher = xorRepeat (ascii "H") [0x55] ∧
    (searchRecords cipher oneByteTrials).length ≤ (96 : Scalar).toNat ∧
    (0xF40 : Scalar).toNat + (searchRecords cipher oneByteTrials).length * (1 + (1 : Scalar).toNat) ≤
      s.cfg.dmemSize := by
  intro s cipher; decide +kernel

/-- BFX2: the empty text, of which every key is a hit, in `bfx2Wit`: both limits are met exactly. -/
theorem test_witness_SearchesAreComplete_bfx2 :
    let s := bfx2Wit
    let cipher := s.readBytes (0 : Scalar).toNat (0 : Scalar).toNat
    (s.reg 2 = .scalar 0 ∧ s.reg (Reg.second 2) = .scalar 0 ∧ s.reg 4 = .scalar 0x20000 ∧
      s.reg (Reg.second 4) = .scalar 65536 ∧ (0 : Scalar).toNat + (0 : Scalar).toNat ≤ s.cfg.dmemSize ∧
      isPlausible [] = true ∧ cipher = xorRepeat [] [0x10, 0x20]) ∧
    (searchRecords cipher twoByteTrials).length ≤ (65536 : Scalar).toNat ∧
    (0x20000 : Scalar).toNat + (searchRecords cipher twoByteTrials).length * (2 + (0 : Scalar).toNat) ≤
      s.cfg.dmemSize := by
  intro s cipher
  have hl : (searchRecords cipher twoByteTrials).length = 65536 := test_bfx2_empty_cipher
  rw [hl]
  exact ⟨by decide +kernel, by decide +kernel, by decide +kernel⟩

/-- BFXD: the plain text "HELLO" under the one key of a dictionary, both at the end of DMEM. -/
theorem test_witness_SearchesAreComplete :
    let s := bfxdWit
    let cipher := s.readBytes (0x100 : Scalar).toNat (5 : Scalar).toNat
    s.reg 2 = .scalar 0x100 ∧ s.reg (Reg.second 2) = .scalar 5 ∧ s.reg 4 = .scalar 0xFF7 ∧
    s.reg (Reg.second 4) = .scalar 1 ∧ (0x100 : Scalar).toNat + (5 : Scalar).toNat ≤ s.cfg.dmemSize ∧
    isPlausible (ascii "HELLO") = true ∧ s.reg 6 = .scalar 0xFFC ∧ s.reg (Reg.second 6) = .scalar 1 ∧
    [ascii "KEY"].length = (1 : Scalar).toNat ∧ DictLaid s [ascii "KEY"] (0xFFC : Scalar).toNat ∧
    [ascii "KEY"][0]? = some (ascii "KEY") ∧ ascii "KEY" ≠ [] ∧ cipher = xorRepeat (ascii "HELLO") (ascii "KEY") ∧
    (searchRecords cipher (dictTrials [ascii "KEY"])).length ≤ (1 : Scalar).toNat ∧
    (0xFF7 : Scalar).toNat + (searchRecords cipher (dictTrials [ascii "KEY"])).length * (4 + (5 : Scalar).toNat) ≤
      s.cfg.dmemSize := by
  intro s cipher
  unfold DictLaid DictLaid
  and_intros <;> first | exact trivial | decide +kernel

theorem test_witness_CkeyCommand :
    wit.reg 0 = .scalar 0xFF8 ∧ wit.reg (Reg.second 0) = .scalar 8 ∧
    (0xFF8 : Scalar).toNat + (8 : Scalar).toNat ≤ wit.cfg.dmemSize := by
  decide +kernel

/-- r2:r3 runs one byte past DMEM, r14:r15 is empty; `t` is a BFX1 over the empty cipher with capacity 255, `u` one with
capacity 256 into a region one byte short. -/
theorem test_witness_ClassicalAndSearchFaults :
    wit.readS 13 = .error (.unwritten 13) ∧ wit.readS 12 = .error (.tagMismatch 12) ∧ wit.readS 8 = .ok 0x200 ∧
    wit.readPair 12 = .error (.tagMismatch 12) ∧ wit.readPair 4 = .ok (0x100, 5) ∧ wit.readPair 6 = .ok (0x110, 3) ∧
    wit.readPair 14 = .ok (0x1000, 0) ∧ wit.readPair 2 = .ok (0xFF9, 8) ∧ wit.readPair 0 = .ok (0xFF8, 8) ∧
    wit.cfg.dmemSize < (0xFF9 : Scalar).toNat + (8 : Scalar).toNat ∧ wit.readS 2 = .ok 0xFF9 ∧
    (let t := (witSet 8 0xF00).setReg 9 (.scalar 255);
      t.readPair 14 = .ok (0x1000, 0) ∧ t.readPair 8 = .ok (0xF00, 255) ∧
      (255 : Scalar).toNat < (searchRecords (t.readBytes (0x1000 : Scalar).toNat (0 : Scalar).toNat)
        oneByteTrials).length) ∧
    (let u := (witSet 8 0xF01).setReg 9 (.scalar 256);
      u.readPair 8 = .ok (0xF01, 256) ∧
      ¬ (256 : Scalar).toNat < (searchRecords (u.readBytes (0x1000 : Scalar).toNat (0 : Scalar).toNat)
        oneByteTrials).length ∧
      u.cfg.dmemSize < (0xF01 : Scalar).toNat + (searchRecords (u.readBytes (0x1000 : Scalar).toNat
        (0 : Scalar).toNat) oneByteTrials).length * (1 + (0 : Scalar).toNat)) := by
  decide +kernel

/-- BFX2 over the empty cipher of `bfx2Wit`: a capacity one below the 65536 hits; a region that ends one byte past DMEM. -/
theorem test_witness_ClassicalAndSearchFaults_bfx2 :
    let t := bfx2Wit.setReg 5 (.scalar 65535)
    let u := bfx2Wit.setReg 4 (.scalar 0x20001)
    let h := fun s : State => (searchRecords (s.readBytes (0 : Scalar).toNat (0 : Scalar).toNat) twoByteTrials).length
    (t.readPair 2 = .ok (0, 0) ∧ t.readPair 4 = .ok (0x20000, 65535) ∧
      ¬ t.cfg.dmemSize < (0 : Scalar).toNat + (0 : Scalar).toNat) ∧
    (65535 : Scalar).toNat < h t ∧
    (u.readPair 2 = .ok (0, 0) ∧ u.readPair 4 = .ok (0x20001, 65536) ∧
      ¬ u.cfg.dmemSize < (0 : Scalar).toNat + (0 : Scalar).toNat) ∧
    ¬ (65536 : Scalar).toNat < h u ∧
    u.cfg.dmemSize < (0x20001 : Scalar).toNat + h u * (2 + (0 : Scalar).toNat) := by
  intro t u h
  have ht : h t = 65536 := test_bfx2_empty_cipher
  have hu : h u = 65536 := test_bfx2_empty_cipher
  rw [ht, hu]
  exact ⟨by decide +kernel, by decide +kernel, by decide +kernel, by decide +kernel, by decide +kernel⟩

/-- BFXD on `bfxdWit`: an unwritten dictionary pair; a cipher that runs one byte past DMEM; a dictionary of two entries, of
which the second does not exist; a capacity one below the one hit; a region that ends one byte past DMEM. -/
theorem test_witness_ClassicalAndSearchFaults_bfxd :
    let two := bfxdWit.setReg 7 (.scalar 2)
    let full := bfxdWit.setReg 5 (.scalar 0)
    let late := bfxdWit.setReg 4 (.scalar 0xFF8)
    let h := fun s : State => (searchRecords (s.readBytes (0x100 : Scalar).toNat (5 : Scalar).toNat)
      (dictTrials [ascii "KEY"])).length
    (bfxdWit.readPair 2 = .ok (0x100, 5) ∧ bfxdWit.readPair 4 = .ok (0xFF7, 1) ∧
      bfxdWit.readPair 8 = .error (.unwritten 8)) ∧
    ((bfxdWit.setReg 2 (.scalar 0xFFC)).readPair 2 = .ok (0xFFC, 5) ∧
      bfxdWit.cfg.dmemSize < (0xFFC : Scalar).toNat + (5 : Scalar).toNat) ∧
    (two.readPair 6 = .ok (0xFFC, 2) ∧ ¬ two.cfg.dmemSize < (0x100 : Scalar).toNat + (5 : Scalar).toNat ∧
      two.parseDict (2 : Scalar).toNat 0 (0xFFC : Scalar).toNat = .error (.memRead 0x1000)) ∧
    (full.readPair 4 = .ok (0xFF7, 0) ∧ full.readPair 6 = .ok (0xFFC, 1) ∧
      full.parseDict (1 : Scalar).toNat 0 (0xFFC : Scalar).toNat = .ok [ascii "KEY"] ∧ (0 : Scalar).toNat < h full) ∧
    (late.readPair 4 = .ok (0xFF8, 1) ∧
      late.parseDict (1 : Scalar).toNat 0 (0xFFC : Scalar).toNat = .ok [ascii "KEY"] ∧
      ¬ (1 : Scalar).toNat < h late ∧
      late.cfg.dmemSize < (0xFF8 : Scalar).toNat + h late * (4 + (5 : Scalar).toNat)) := by
  intro two full late h
  exact ⟨by decide +kernel, by decide +kernel, by decide +kernel, by decide +kernel, by decide +kernel⟩

/-- One good entry, then: the end of DMEM, an empty entry, an entry whose last byte is out of bounds. -/
theorem test_witness_DictionaryFaults :
    let keys : List (List Byte) := [ascii "A"]
    let s := stateWith [] [(0xFFE, 1 :: ascii "A")]
    let t := stateWith [] [(0xFFD, 1 :: ascii "A" ++ [0])]
    let u := stateWith [] [(0xFFD, 1 :: ascii "A" ++ [1])]
    keys.length < 2 ∧ DictLaid s keys 0xFFE ∧ s.cfg.dmemSize < 0x1000 + 1 ∧ DictLaid t keys 0xFFD ∧
    (t.byte 0xFFF).toNat = 0 ∧ DictLaid u keys 0xFFD ∧ u.cfg.dmemSize < 0xFFF + 1 + (u.byte 0xFFF).toNat := by
  intro keys s t u
  unfold DictLaid DictLaid
  and_intros <;> first | exact trivial | decide +kernel

/-- IDLE, HALTED, RUNNING, FAULTED, and an operation that is refused. -/
theorem test_witness_HostStartAndRefusals :
    State.reset.runState = .idle ∧ wit.halt.runState = .halted ∧ wit.runState = .running ∧
    witFaulted.runState = .faulted ∧ HostOp.start ≠ .readStatus ∧ (wit.host .start).1 = .refused ∧
    (witFaulted.host .start).1 = .refused ∧ (wit.halt.host (.readCmd 64)).1 = .refused := by
  decide +kernel

/-- The first and last arguments that are refused and accepted. -/
theorem test_witness_HostAccesses :
    wit.halt.runState ≠ .running ∧ 6 < 7 ∧ 16 ≤ 16 ∧ wit.halt.cfg.cmdDepth ≤ 64 ∧ 2 ^ Tag.b32.width ≤ 0x100000000 ∧ 0xFFFFFFFF < 2 ^ Tag.b32.width ∧
    Tag.b32 ≠ .u ∧ 63 < wit.halt.cfg.cmdDepth ∧ (62 : Nat) ≠ 63 := by
  decide +kernel

/-- Parameters that have a configuration, and what it is read from. -/
theorem test_witness_OnlyWellFormedParametersHaveRuns :
    ∃ c, tc1Parameters.configure? = some c ∧ c.dmemSize = 4096 ∧ c.cmdDepth = 64 :=
  ⟨_, rfl, by decide +kernel, by decide +kernel⟩

/-- The greatest constants that LB32 and LB48 take. -/
theorem test_witness_PseudoInstructionsLoadConstants :
    lb32? 1 0xFFFFFFFF = some (li64 1 0xFFFFFFFF ++ [.blk32 1 1]) ∧
    lb48? 1 0xFFFFFFFFFFFF = some (li64 1 0xFFFFFFFFFFFF ++ [.blk48 1 1]) := by
  decide +kernel

end Sys2Proof.Tests
end

/-! PROOFS. The parameters of a platform (R7, R9), the operand reads and register writes (R11, R22, R23), and the memory
primitives (R12). -/
section

namespace Sys2Proof

/-! ## Well-formed parameters (R9) -/

section
variable {p : Parameters}

theorem Parameters.eTableOk_iff : p.eTableOk = true ↔ p.eTable.length = 48 ∧ ∀ e ∈ p.eTable, 1 ≤ e ∧ e ≤ 32 := by
  simp [Parameters.eTableOk]

theorem Parameters.pTableOk_iff : p.pTableOk = true ↔ p.pTable.length = 32 ∧ ∀ e ∈ p.pTable, 1 ≤ e ∧ e ≤ 32 := by
  simp [Parameters.pTableOk]

theorem Parameters.sboxOk_iff :
    p.sboxOk = true ↔ p.sbox.length = 4 ∧ ∀ row ∈ p.sbox, row.length = 16 ∧ ∀ v ∈ row, v ≤ 15 := by
  simp [Parameters.sboxOk]

theorem Parameters.dmemSizeOk_iff : p.dmemSizeOk = true ↔ 16 ≤ p.dmemSize ∧ p.dmemSize ≤ 2 ^ 32 := by
  simp [Parameters.dmemSizeOk]

theorem Parameters.cmdDepthOk_iff : p.cmdDepthOk = true ↔ 1 ≤ p.cmdDepth ∧ p.cmdDepth ≤ 2 ^ 32 - 1 := by
  simp [Parameters.cmdDepthOk]

theorem Parameters.wellFormed_iff :
    p.wellFormed = true ↔
      p.eTableOk = true ∧ p.pTableOk = true ∧ p.sboxOk = true ∧ p.dmemSizeOk = true ∧ p.cmdDepthOk = true := by
  simp [Parameters.wellFormed, and_assoc]

/-! ## The configuration of well-formed parameters -/

theorem Parameters.configure?_isSome_iff : p.configure?.isSome = true ↔ p.wellFormed = true := by
  simp [Parameters.configure?]

/-- The inversion lemma of configure?: only well-formed parameters have a configuration, and it stores a table position
less one, an S-box entry in 4 bits and a size less its least value. -/
theorem Parameters.configure?_eq_some {c : Config} (h : p.configure? = some c) :
    p.wellFormed = true ∧
      (∀ i : Fin 48, c.eTable[i] = Fin.ofNat 32 (p.eTable.getD i.val 0 - 1)) ∧
      (∀ i : Fin 32, c.pTable[i] = Fin.ofNat 32 (p.pTable.getD i.val 0 - 1)) ∧
      (∀ (r : Fin 4) (k : Fin 16), c.sbox[r][k] = BitVec.ofNat 4 ((p.sbox.getD r.val []).getD k.val 0)) ∧
      c.dmemLess16 = Fin.ofNat _ (p.dmemSize - 16) ∧ c.cmdLess1 = Fin.ofNat _ (p.cmdDepth - 1) := by
  obtain ⟨hwf, hc⟩ := Option.ite_none_right_eq_some.1 h
  obtain rfl := Option.some.inj hc
  refine ⟨hwf, fun i => ?_, fun i => ?_, fun r k => ?_, rfl, rfl⟩
  · exact Vector.getElem_ofFn i.isLt
  · exact Vector.getElem_ofFn i.isLt
  · simp

end

/-- A position in 1..32 survives being stored less one. -/
theorem tablePos_add_one {t : List Nat} (ht : ∀ e ∈ t, 1 ≤ e ∧ e ≤ 32) {i : Nat} (hi : i < t.length) :
    (Fin.ofNat 32 (t.getD i 0 - 1)).val + 1 = t.getD i 0 := by
  have hmem : t.getD i 0 ∈ t := by simp [hi]
  obtain ⟨hlow, hhigh⟩ := ht _ hmem
  simp only [Fin.val_ofNat]
  omega

/-- An entry in 0..15 survives being stored in 4 bits. -/
theorem sboxEntry_toNat {rows : List (List Nat)} (hrows : ∀ row ∈ rows, row.length = 16 ∧ ∀ v ∈ row, v ≤ 15) {r k : Nat}
    (hr : r < rows.length) (hk : k < 16) :
    (BitVec.ofNat 4 ((rows.getD r []).getD k 0)).toNat = (rows.getD r []).getD k 0 := by
  have hrow : rows.getD r [] ∈ rows := by simp [hr]
  obtain ⟨hlen, hle⟩ := hrows _ hrow
  have hlt : k < (rows.getD r []).length := hk.trans_eq hlen.symm
  have hmem : (rows.getD r []).getD k 0 ∈ rows.getD r [] := by
    rw [← List.getElem_eq_getD (h := hlt)]
    exact List.getElem_mem _
  have := hle _ hmem
  rw [BitVec.toNat_ofNat]
  omega

/-- R9: the configuration of raw parameters holds those values. -/
theorem Parameters.configure?_values {p : Parameters} {c : Config} (h : p.configure? = some c) :
    c.dmemSize = p.dmemSize ∧ c.cmdDepth = p.cmdDepth ∧ (∀ i : Fin 48, c.eEntry i = p.eTable.getD i.val 0) ∧
      (∀ i : Fin 32, c.pEntry i = p.pTable.getD i.val 0) ∧
      ∀ (r : Fin 4) (k : Fin 16), (c.sboxEntry r k).toNat = (p.sbox.getD r.val []).getD k.val 0 := by
  obtain ⟨hwf, he, hp, hs, hdmem, hcmd⟩ := Parameters.configure?_eq_some h
  obtain ⟨eOk, pOk, sOk, dmemOk, cmdOk⟩ := Parameters.wellFormed_iff.1 hwf
  obtain ⟨elen, erange⟩ := Parameters.eTableOk_iff.1 eOk
  obtain ⟨plen, prange⟩ := Parameters.pTableOk_iff.1 pOk
  obtain ⟨slen, srange⟩ := Parameters.sboxOk_iff.1 sOk
  have dmemRange := Parameters.dmemSizeOk_iff.1 dmemOk
  have cmdRange := Parameters.cmdDepthOk_iff.1 cmdOk
  refine ⟨?_, ?_, fun i => ?_, fun i => ?_, fun r k => ?_⟩
  · rw [Config.dmemSize, hdmem, Fin.val_ofNat]
    omega
  · rw [Config.cmdDepth, hcmd, Fin.val_ofNat]
    omega
  · rw [Config.eEntry, he]
    exact tablePos_add_one erange (i.isLt.trans_eq elen.symm)
  · rw [Config.pEntry, hp]
    exact tablePos_add_one prange (i.isLt.trans_eq plen.symm)
  · rw [Config.sboxEntry, hs]
    exact sboxEntry_toNat srange (r.isLt.trans_eq slen.symm) k.isLt

/-- Settles O59: configure? tests R9's list, and each field of a configuration is read back to the value it stores. -/
theorem onlyWellFormedParametersHaveRuns : Obligations.OnlyWellFormedParametersHaveRuns := by
  intro p
  refine ⟨?_, fun c => Parameters.configure?_values⟩
  rw [Parameters.configure?_isSome_iff, Parameters.wellFormed_iff, Parameters.eTableOk_iff, Parameters.pTableOk_iff,
    Parameters.sboxOk_iff, Parameters.dmemSizeOk_iff, Parameters.cmdDepthOk_iff]
  simp only [and_assoc]

namespace Machine

/-! ## Operand reads by tag (R11) -/

section
variable {s : State} {n : Reg}

theorem State.reads_of_unwritten (h : s.reg n = .unwritten) :
    s.readS n = .error (.unwritten n) ∧ s.readAnyB n = .error (.unwritten n) ∧ s.readB32 n = .error (.unwritten n) ∧
      s.readB48 n = .error (.unwritten n) ∧ s.readB64 n = .error (.unwritten n) :=
  ⟨State.readS_eq_error.2 (.inl ⟨h, rfl⟩), State.readAnyB_eq_error.2 (.inl ⟨h, rfl⟩),
    State.readB32_eq_error.2 (.inl ⟨h, rfl⟩), State.readB48_eq_error.2 (.inl ⟨h, rfl⟩),
    State.readB64_eq_error.2 (.inl ⟨h, rfl⟩)⟩

theorem State.readS_of_block {b : Block} (h : s.reg n = .block b) : s.readS n = .error (.tagMismatch n) :=
  State.readS_eq_error.2 (.inr ⟨b, h, rfl⟩)

theorem State.readB32_of_otherTag (hu : (s.reg n).tag ≠ .u) (hb : (s.reg n).tag ≠ .b32) :
    s.readB32 n = .error (.tagMismatch n) :=
  State.readB32_eq_error.2 (.inr ⟨fun e => hu (by rw [e]; rfl), fun v e => hb (by rw [e]; rfl), rfl⟩)

theorem State.readB48_of_otherTag (hu : (s.reg n).tag ≠ .u) (hb : (s.reg n).tag ≠ .b48) :
    s.readB48 n = .error (.tagMismatch n) :=
  State.readB48_eq_error.2 (.inr ⟨fun e => hu (by rw [e]; rfl), fun v e => hb (by rw [e]; rfl), rfl⟩)

theorem State.readB64_of_otherTag (hu : (s.reg n).tag ≠ .u) (hb : (s.reg n).tag ≠ .b64) :
    s.readB64 n = .error (.tagMismatch n) :=
  State.readB64_eq_error.2 (.inr ⟨fun e => hu (by rw [e]; rfl), fun v e => hb (by rw [e]; rfl), rfl⟩)

theorem State.reads_of_scalar {v : Scalar} (h : s.reg n = .scalar v) :
    s.readS n = .ok v ∧ s.readAnyB n = .error (.tagMismatch n) ∧ s.readB32 n = .error (.tagMismatch n) ∧
      s.readB48 n = .error (.tagMismatch n) ∧ s.readB64 n = .error (.tagMismatch n) := by
  have htag : (s.reg n).tag = .s := by rw [h]; rfl
  exact ⟨State.readS_eq_ok.2 h, State.readAnyB_eq_error.2 (.inr ⟨v, h, rfl⟩),
    State.readB32_of_otherTag (by simp [htag]) (by simp [htag]),
    State.readB48_of_otherTag (by simp [htag]) (by simp [htag]),
    State.readB64_of_otherTag (by simp [htag]) (by simp [htag])⟩

theorem State.reads_of_b32 {v : Half} (h : s.reg n = .block (.b32 v)) :
    s.readS n = .error (.tagMismatch n) ∧ s.readAnyB n = .ok (.b32 v) ∧ s.readB32 n = .ok v ∧
      s.readB48 n = .error (.tagMismatch n) ∧ s.readB64 n = .error (.tagMismatch n) := by
  have htag : (s.reg n).tag = .b32 := by rw [h]; rfl
  exact ⟨State.readS_of_block h, State.readAnyB_eq_ok.2 h, State.readB32_eq_ok.2 h,
    State.readB48_of_otherTag (by simp [htag]) (by simp [htag]),
    State.readB64_of_otherTag (by simp [htag]) (by simp [htag])⟩

theorem State.reads_of_b48 {v : Subkey} (h : s.reg n = .block (.b48 v)) :
    s.readS n = .error (.tagMismatch n) ∧ s.readAnyB n = .ok (.b48 v) ∧ s.readB32 n = .error (.tagMismatch n) ∧
      s.readB48 n = .ok v ∧ s.readB64 n = .error (.tagMismatch n) := by
  have htag : (s.reg n).tag = .b48 := by rw [h]; rfl
  exact ⟨State.readS_of_block h, State.readAnyB_eq_ok.2 h, State.readB32_of_otherTag (by simp [htag]) (by simp [htag]),
    State.readB48_eq_ok.2 h, State.readB64_of_otherTag (by simp [htag]) (by simp [htag])⟩

theorem State.reads_of_b64 {v : Block64} (h : s.reg n = .block (.b64 v)) :
    s.readS n = .error (.tagMismatch n) ∧ s.readAnyB n = .ok (.b64 v) ∧ s.readB32 n = .error (.tagMismatch n) ∧
      s.readB48 n = .error (.tagMismatch n) ∧ s.readB64 n = .ok v := by
  have htag : (s.reg n).tag = .b64 := by rw [h]; rfl
  exact ⟨State.readS_of_block h, State.readAnyB_eq_ok.2 h, State.readB32_of_otherTag (by simp [htag]) (by simp [htag]),
    State.readB48_of_otherTag (by simp [htag]) (by simp [htag]), State.readB64_eq_ok.2 h⟩

end

/-! ## Register pairs and the width of a cell (R22, R23) -/

/-- An even register is not the last one, so its successor does not wrap round. -/
theorem Reg.second_val_of_even {n : Reg} (h : n.val % 2 = 0) : (Reg.second n).val = n.val + 1 := by
  rw [Reg.second, Fin.val_add_one_of_lt' (by omega)]

theorem Block.value_toNat_lt (b : Block) : b.value.toNat < 2 ^ b.width := by
  cases b with
  | b32 v => simpa [Block.value, Block.width] using Nat.lt_of_le_of_lt (Nat.mod_le _ _) v.isLt
  | b48 v => simpa [Block.value, Block.width] using Nat.lt_of_le_of_lt (Nat.mod_le _ _) v.isLt
  | b64 v => exact v.isLt

theorem Cell.tag_width_block (b : Block) : (Cell.block b).tag.width = b.width := by
  cases b <;> rfl

theorem Cell.value_toNat_lt (c : Cell) : c.value.toNat < 2 ^ c.tag.width := by
  cases c with
  | unwritten => decide
  | scalar v => exact v.isLt
  | block b =>
    rw [Cell.tag_width_block]
    exact b.value_toNat_lt

/-- Settles O24, one clause per tag, then the pair read, the register write and the width of a cell. -/
theorem registerPrimitives : Obligations.RegisterPrimitives := by
  intro s n
  refine ⟨State.reads_of_unwritten, fun v => State.reads_of_scalar, fun v => State.reads_of_b32,
    fun v => State.reads_of_b48, fun v => State.reads_of_b64, Reg.second_val_of_even, fun r hr => ?_,
    fun a r ha hr => ?_, fun a b ha hb => ?_, fun c => ⟨State.setReg_reg_same s n c, fun m hm => ?_⟩,
    Cell.value_toNat_lt _⟩
  · exact State.readPair_eq_error.2 (.inl hr)
  · exact State.readPair_eq_error.2 (.inr ⟨a, ha, hr⟩)
  · exact State.readPair_eq_ok.2 ⟨State.readS_eq_ok.1 ha, State.readS_eq_ok.1 hb⟩
  · exact State.setReg_reg_other s m n c hm

/-! ## Memory (R12) -/

/-- Reading a region just stored gives the bytes stored. -/
theorem State.readBytes_storeBytes (s : State) (a : Nat) (bs : List Byte) :
    (s.storeBytes a bs).readBytes a bs.length = bs := by
  refine List.ext_getElem (State.readBytes_length _ _ _) fun k _ hk => ?_
  rw [State.readBytes_getElem, State.storeBytes_byte_inside _ _ _ _ hk]

theorem State.readBytes_getElem? (s : State) {a n k : Nat} (h : k < n) :
    (s.readBytes a n)[k]? = some (s.byte (a + k)) := by
  rw [List.getElem?_eq_getElem ((State.readBytes_length s a n).symm ▸ h), State.readBytes_getElem]

/-- Settles O25, from the read-over-write laws of DMEM. -/
theorem memoryPrimitives : Obligations.MemoryPrimitives := by
  intro s a bs
  exact ⟨fun k => State.storeBytes_byte_inside s a k bs, fun b => State.storeBytes_byte_outside s a b bs,
    State.readBytes_storeBytes s a bs, fun n => ⟨State.readBytes_length s a n, fun k => State.readBytes_getElem? s⟩,
    fun n => State.inBounds_eq_true⟩

end Machine

end Sys2Proof
end

/-! PROOFS. What commands, engine steps and host operations leave of the machine's state (R24 to R33, R240, R245 to R247,
R260): the frames of a command's writes, the invariant, and what stays through every interleaving of engine and host. -/
section

namespace Sys2Proof.Machine

/-! ## Groups of state that change together -/

/-- KEYED, KEY and SK: the state SETKEY binds (R25 to R27). -/
def State.keyState (s : State) : Bool × Block64 × Vector Subkey 16 := (s.keyed, s.key, s.sk)

theorem State.keyState_eq_iff {s t : State} :
    t.keyState = s.keyState ↔ t.keyed = s.keyed ∧ t.key = s.key ∧ t.sk = s.sk := by
  simp [State.keyState]

/-- The four fault registers (R29). -/
def State.faultRegs (s : State) : BitVec 8 × BitVec 8 × BitVec 32 × BitVec 64 := (s.fcause, s.fdetail, s.fpc, s.finfo)

theorem State.faultRegs_eq_iff {s t : State} :
    t.faultRegs = s.faultRegs ↔
      t.fcause = s.fcause ∧ t.fdetail = s.fdetail ∧ t.fpc = s.fpc ∧ t.finfo = s.finfo := by
  simp [State.faultRegs]

/-! ## What the writes of a command leave -/

section
variable {i : Instr} {s u : State}

theorem Writes.runState_eq (h : Writes i s u) : u.runState = s.runState := by cases h <;> rfl

theorem Writes.pc_eq (h : Writes i s u) : u.pc = s.pc := by cases h <;> rfl

theorem Writes.faultRegs_eq (h : Writes i s u) : u.faultRegs = s.faultRegs := by cases h <;> rfl

theorem Writes.hostState_eq (h : Writes i s u) :
    u.startPc = s.startPc ∧ u.cmdMem = s.cmdMem ∧ u.cfg = s.cfg ∧ u.powerUp = s.powerUp := by
  cases h <;> exact ⟨rfl, rfl, rfl, rfl⟩

/-- Only SETKEY writes the key state, and only while Uninitialized (R26, R150). -/
theorem Writes.keyState_cases (h : Writes i s u) :
    u.keyState = s.keyState ∨ (∃ rs, i = .setkey rs) ∧ s.keyed = false ∧ u.keyed = true := by
  cases h with
  | nothing | register | memory | both => exact .inl rfl
  | key rs k hi hk => exact .inr ⟨⟨rs, hi⟩, hk, rfl⟩

end

/-! ## What a command leaves -/

section
variable {i : Instr} {s t : State}

theorem exec_hostState_eq (h : exec i s = .next t) :
    t.startPc = s.startPc ∧ t.cmdMem = s.cmdMem ∧ t.cfg = s.cfg ∧ t.powerUp = s.powerUp := by
  rcases exec_eq_next h with ⟨-, rfl⟩ | ⟨u, hu, rfl⟩ | ⟨r, rfl⟩
  · exact ⟨rfl, rfl, rfl, rfl⟩
  · exact hu.hostState_eq
  · exact ⟨rfl, rfl, rfl, rfl⟩

theorem exec_faultRegs_eq (h : exec i s = .next t) (ht : t.runState ≠ .faulted) : t.faultRegs = s.faultRegs := by
  rcases exec_eq_next h with ⟨-, rfl⟩ | ⟨u, hu, rfl⟩ | ⟨r, rfl⟩
  · rfl
  · exact hu.faultRegs_eq
  · exact absurd rfl ht

theorem exec_keyState_cases (h : exec i s = .next t) :
    t.keyState = s.keyState ∨ (∃ rs, i = .setkey rs) ∧ s.keyed = false ∧ t.keyed = true := by
  rcases exec_eq_next h with ⟨-, rfl⟩ | ⟨u, hu, rfl⟩ | ⟨r, rfl⟩
  · exact .inl rfl
  · exact hu.keyState_cases
  · exact .inl rfl

end

/-- Settles O16: the only write that touches the key state is SETKEY's. -/
theorem onlySetkeyBindsKey : Obligations.OnlySetkeyBindsKey := by
  intro i s t h hchanged
  exact (exec_keyState_cases h).resolve_left fun hk => hchanged (State.keyState_eq_iff.1 hk)

/-- Settles O20: HALT by its own rule; any other command advances pc past its writes, or faults in place. -/
theorem pcRule : Obligations.PcRule := by
  intro i s t hrun h
  by_cases hi : i = .halt
  · subst hi
    cases h
    exact .inr (.inl ⟨rfl, rfl, rfl⟩)
  · rcases exec_eq_next h with ⟨hhalt, -⟩ | ⟨u, hu, rfl⟩ | ⟨r, rfl⟩
    · exact absurd hhalt hi
    · exact .inl ⟨hi, hu.runState_eq.trans hrun, congrArg (· + 1) hu.pc_eq⟩
    · exact .inr (.inr ⟨hi, rfl, rfl⟩)

/-- Settles O21, from the frames of HALT, of a command's writes and of fault entry. -/
theorem commandsLeaveHostState : Obligations.CommandsLeaveHostState := by
  intro i s t h
  obtain ⟨hstart, hcmd, hcfg, hpower⟩ := exec_hostState_eq h
  exact ⟨hstart, hcmd, hcfg, hpower, fun ht => State.faultRegs_eq_iff.1 (exec_faultRegs_eq h ht)⟩

/-! ## The invariant, update by update -/

theorem Raise.codes_mem_faultCodes (r : Raise) : (r.cause, r.detail) ∈ faultCodes := by
  cases r with
  | illegal d w => cases d <;> simp [Raise.cause, Raise.detail, faultCodes]
  | _ => simp [Raise.cause, Raise.detail, faultCodes]

section
variable {i : Instr} {s u : State}

theorem State.Inv.setReg (hs : s.Inv) (n : Reg) (c : Cell) : (s.setReg n c).Inv :=
  ⟨hs.dmemWf, hs.cmdMemWf, hs.dmemBound, hs.cmdMemBound, hs.subkeys, hs.faulted, hs.clear⟩

/-- A store in bounds lists no byte at or above DMEM_SIZE (R50). -/
theorem State.Inv.storeBytes (hs : s.Inv) {a : Nat} {bs : List Byte} (hb : a + bs.length ≤ s.cfg.dmemSize) :
    (s.storeBytes a bs).Inv where
  dmemWf := Memory.wf_putAll hs.dmemWf a bs
  cmdMemWf := hs.cmdMemWf
  dmemBound e he := by
    rcases Memory.mem_putAll he with hold | ⟨-, hlt⟩
    · exact hs.dmemBound e hold
    · exact Nat.lt_of_lt_of_le hlt hb
  cmdMemBound := hs.cmdMemBound
  subkeys := hs.subkeys
  faulted := hs.faulted
  clear := hs.clear

theorem State.Inv.bindKey (hs : s.Inv) (k : Block64) : (s.bindKey k (generateSubkeys k)).Inv :=
  ⟨hs.dmemWf, hs.cmdMemWf, hs.dmemBound, hs.cmdMemBound, fun _ => rfl, hs.faulted, hs.clear⟩

/-- pc may move only while FPC need not equal it. -/
theorem State.Inv.advance (hs : s.Inv) (hr : s.runState ≠ .faulted) : s.advance.Inv :=
  ⟨hs.dmemWf, hs.cmdMemWf, hs.dmemBound, hs.cmdMemBound, hs.subkeys, fun hf => absurd hf hr, hs.clear⟩

theorem State.Inv.halt (hs : s.Inv) (hr : s.runState ≠ .faulted) : s.halt.Inv :=
  ⟨hs.dmemWf, hs.cmdMemWf, hs.dmemBound, hs.cmdMemBound, hs.subkeys, nofun, fun _ => hs.clear hr⟩

theorem State.Inv.takeFault (hs : s.Inv) (r : Raise) : (s.takeFault r).Inv :=
  ⟨hs.dmemWf, hs.cmdMemWf, hs.dmemBound, hs.cmdMemBound, hs.subkeys, fun _ => ⟨r.codes_mem_faultCodes, rfl⟩,
    fun hf => absurd rfl hf⟩

theorem Writes.inv (h : Writes i s u) (hs : s.Inv) : u.Inv := by
  cases h with
  | nothing => exact hs
  | register n c => exact hs.setReg n c
  | memory a bs _ hb => exact hs.storeBytes hb
  | both a bs n c _ hb => exact (hs.storeBytes hb).setReg n c
  | key rs k _ _ => exact hs.bindKey k

end

theorem exec_inv {i : Instr} {s t : State} (h : exec i s = .next t) (hr : s.runState ≠ .faulted) (hs : s.Inv) :
    t.Inv := by
  rcases exec_eq_next h with ⟨-, rfl⟩ | ⟨u, hu, rfl⟩ | ⟨r, rfl⟩
  · exact hs.halt hr
  · exact (hu.inv hs).advance (hu.runState_eq ▸ hr)
  · exact hs.takeFault r

/-- Settles O10: a step is the command fetched, or the fault of a failed fetch, of a RUNNING engine. -/
theorem stepKeepsInvariant : Obligations.StepKeepsInvariant := by
  intro s t hs h
  obtain ⟨hrun, ⟨i, -, hexec⟩ | ⟨r, -, rfl⟩⟩ := step_eq_next h
  · exact exec_inv hexec (by simp [hrun]) hs
  · exact hs.takeFault r

/-- Settles O11: nothing is listed, no key is bound and the fault registers are clear. -/
theorem resetHasInvariant : Obligations.ResetHasInvariant where
  dmemWf := .nil
  cmdMemWf := .nil
  dmemBound := nofun
  cmdMemBound := nofun
  subkeys := nofun
  faulted := nofun
  clear _ := ⟨rfl, rfl, rfl, rfl⟩

/-! ## What a host operation does (R245 to R247) -/

section
variable {s : State} {p : HostReply × State}

theorem State.whenStopped_of_running (h : s.runState = .running) : s.whenStopped p = (.refused, s) := if_pos h

theorem State.whenStopped_of_stopped (h : s.runState ≠ .running) : s.whenStopped p = p := if_neg h

@[simp] theorem State.refuseUnless_true : s.refuseUnless true p = p := rfl

@[simp] theorem State.refuseUnless_false : s.refuseUnless false p = (.refused, s) := rfl

theorem State.refuseUnless_decide {legal : Prop} [Decidable legal] :
    s.refuseUnless (decide legal) p = if legal then p else (.refused, s) := by
  by_cases h : legal <;> simp [h]

theorem State.host_start_of_idle_or_halted (h : s.runState = .idle ∨ s.runState = .halted) :
    s.host .start = (.done, s.startRun) := by
  rcases h with h | h <;> simp [State.host, h]

theorem State.host_start_of_running_or_faulted (h : s.runState = .running ∨ s.runState = .faulted) :
    s.host .start = (.refused, s) := by
  rcases h with h | h <;> simp [State.host, h]

end

/-- The reply and the state a host operation may leave: one constructor per kind of effect. -/
inductive HostEffect (s : State) (op : HostOp) : HostReply × State → Prop where
  /-- a read, or a refusal -/
  | nothing (reply : HostReply) : HostEffect s op (reply, s)
  /-- START_PC -/
  | startPc (v : BitVec 32) : HostEffect s op (.done, s.setStartPc v)
  /-- one register -/
  | register (n : Reg) (c : Cell) : HostEffect s op (.done, s.setReg n c)
  /-- a region of DMEM, in bounds -/
  | memory (a : Nat) (bs : List Byte) : a + bs.length ≤ s.cfg.dmemSize → HostEffect s op (.done, s.storeBytes a bs)
  /-- a word of CMDMEM, in range -/
  | command (j : Nat) (w : Command) : j < s.cfg.cmdDepth → HostEffect s op (.done, s.storeCmd j w)
  /-- a run begins, in IDLE and HALTED only (R246) -/
  | start : s.runState = .idle ∨ s.runState = .halted → HostEffect s op (.done, s.startRun)
  /-- a reset, by HOST_RESET only -/
  | reset (point : ResetPoint) : op = .reset point → HostEffect s op (.done, s.hostReset point)

section
variable {s : State} {op : HostOp} {p : HostReply × State}

theorem HostEffect.whenStopped (h : HostEffect s op p) : HostEffect s op (s.whenStopped p) := by
  unfold State.whenStopped
  split
  · exact .nothing _
  · exact h

theorem HostEffect.refuseUnless {legal : Bool} (h : legal = true → HostEffect s op p) :
    HostEffect s op (s.refuseUnless legal p) := by
  cases legal with
  | false => exact .nothing _
  | true => exact h rfl

/-- The inversion lemma of host. -/
theorem State.host_effect (s : State) (op : HostOp) : HostEffect s op (s.host op) := by
  cases op with
  | readStatus => exact .nothing _
  | readCsr no =>
    refine HostEffect.whenStopped ?_
    split
    · exact .nothing _
    · exact .nothing _
  | writeStartPc v => exact (HostEffect.startPc v).whenStopped
  | readReg n => exact (HostEffect.refuseUnless fun _ => .nothing _).whenStopped
  | writeReg n t v =>
    refine (HostEffect.refuseUnless fun _ => ?_).whenStopped
    split
    · exact .register _ _
    · exact .nothing _
  | readDmem a n => exact (HostEffect.refuseUnless fun _ => .nothing _).whenStopped
  | writeDmem a bs =>
    exact (HostEffect.refuseUnless fun hb => .memory a bs (State.inBounds_eq_true.1 hb)).whenStopped
  | readCmd j => exact (HostEffect.refuseUnless fun _ => .nothing _).whenStopped
  | writeCmd j w => exact (HostEffect.refuseUnless fun hj => .command j w (of_decide_eq_true hj)).whenStopped
  | start =>
    cases hr : s.runState with
    | idle => exact State.host_start_of_idle_or_halted (.inl hr) ▸ .start (.inl hr)
    | halted => exact State.host_start_of_idle_or_halted (.inr hr) ▸ .start (.inr hr)
    | running => exact State.host_start_of_running_or_faulted (.inl hr) ▸ .nothing _
    | faulted => exact State.host_start_of_running_or_faulted (.inr hr) ▸ .nothing _
  | reset point => exact .reset point rfl

theorem HostEffect.state_eq_of_refused (h : HostEffect s op p) (hp : p.1 = .refused) : p.2 = s := by
  cases h with
  | nothing => rfl
  | startPc | register | memory | command | start | reset => cases hp

/-- No host operation but a reset touches the key state (R26). -/
theorem HostEffect.keyState_eq (h : HostEffect s op p) (hop : ∀ point, op ≠ .reset point) :
    p.2.keyState = s.keyState := by
  cases h with
  | nothing | startPc | register | memory | command | start => rfl
  | reset point hpoint => exact absurd hpoint (hop point)

/-- In a FAULTED engine no host operation but a reset touches RUNSTATE, pc or the fault registers (R246). -/
theorem HostEffect.fault_held (h : HostEffect s op p) (hop : ∀ point, op ≠ .reset point)
    (hf : s.runState = .faulted) : p.2.runState = .faulted ∧ p.2.faultRegs = s.faultRegs ∧ p.2.pc = s.pc := by
  cases h with
  | nothing | startPc | register | memory | command => exact ⟨hf, rfl, rfl⟩
  | start hstart => simp [hf] at hstart
  | reset point hpoint => exact absurd hpoint (hop point)

end

/-! ## Through every interleaving of engine and host -/

theorem Event.ne_reset_of_noReset {op : HostOp} (h : (Event.host op).noReset = true) (point : ResetPoint) :
    op ≠ .reset point := by
  rintro rfl
  cases h

/-- What holds at first and is kept by every event but a reset holds after any events without a reset. -/
theorem State.events_induction {P : State → Prop}
    (hstep : ∀ (s : State) (e : Event), e.noReset = true → P s → P (s.event e)) {s : State} (hs : P s)
    {es : List Event} (hes : ∀ e ∈ es, e.noReset = true) : P (s.events es) := by
  induction es generalizing s with
  | nil => exact hs
  | cons e es ih =>
    rw [List.forall_mem_cons] at hes
    obtain ⟨he, hes⟩ := hes
    exact ih (hstep s e he hs) hes

/-- An engine that is not RUNNING takes no step (R100). -/
theorem step_of_stopped {s : State} (h : s.runState ≠ .running) : step s = .fault (.engineStopped s.runState) := by
  unfold step
  split
  · exact absurd ‹_› h
  · rfl

theorem State.engineStep_of_stopped {s : State} (h : s.runState ≠ .running) : s.engineStep = s := by
  rw [State.engineStep, step_of_stopped h]

theorem State.engineStep_cases (s : State) : s.engineStep = s ∨ step s = .next s.engineStep := by
  unfold State.engineStep
  split
  · exact .inr ‹_›
  · exact .inl rfl
  · exact .inl rfl

theorem step_keyState_eq {s t : State} (h : step s = .next t) (hk : s.keyed = true) : t.keyState = s.keyState := by
  obtain ⟨-, ⟨i, -, hexec⟩ | ⟨r, -, rfl⟩⟩ := step_eq_next h
  · exact (exec_keyState_cases hexec).resolve_right fun ⟨_, hunkeyed, _⟩ => by simp [hk] at hunkeyed
  · rfl

/-- A bound key outlasts an engine step and every host operation but a reset (R25, R26). -/
theorem State.event_keyState_eq {s : State} {e : Event} (he : e.noReset = true) (hk : s.keyed = true) :
    (s.event e).keyState = s.keyState := by
  cases e with
  | engine =>
    rcases s.engineStep_cases with hsame | hstep
    · exact congrArg State.keyState hsame
    · exact step_keyState_eq hstep hk
  | host op => exact (s.host_effect op).keyState_eq (Event.ne_reset_of_noReset he)

/-- Settles O15, by induction over the events; that the key state is bound is itself part of what stays. -/
theorem keyBoundUntilReset : Obligations.KeyBoundUntilReset := by
  intro s es hk hes
  have hstays : (s.events es).keyState = s.keyState := by
    refine State.events_induction (P := fun t => t.keyState = s.keyState) (fun t e he ht => ?_) rfl hes
    obtain ⟨hkeyed, -, -⟩ := State.keyState_eq_iff.1 ht
    exact (State.event_keyState_eq he (hkeyed.trans hk)).trans ht
  obtain ⟨hkeyed, hkey, hsk⟩ := State.keyState_eq_iff.1 hstays
  exact ⟨hkeyed.trans hk, hkey, hsk⟩

/-- FAULTED with the fault registers and the pc of `s` (R240). -/
structure FaultHeld (s t : State) : Prop where
  runState : t.runState = .faulted
  faultRegs : t.faultRegs = s.faultRegs
  pc : t.pc = s.pc

theorem FaultHeld.event {s t : State} (h : FaultHeld s t) {e : Event} (he : e.noReset = true) :
    FaultHeld s (t.event e) := by
  cases e with
  | engine =>
    have hstopped : t.runState ≠ .running := by simp [h.runState]
    rwa [State.event, State.engineStep_of_stopped hstopped]
  | host op =>
    obtain ⟨hrun, hregs, hpc⟩ := (t.host_effect op).fault_held (Event.ne_reset_of_noReset he) h.runState
    exact ⟨hrun, hregs.trans h.faultRegs, hpc.trans h.pc⟩

/-- Settles O23, by induction over the events: a FAULTED engine takes no step, and HOST_START is refused. -/
theorem faultHeldUntilReset : Obligations.FaultHeldUntilReset := by
  intro s es hf hes
  have hheld : FaultHeld s (s.events es) :=
    State.events_induction (P := FaultHeld s) (fun _ _ he ht => ht.event he) ⟨hf, rfl, rfl⟩ hes
  obtain ⟨hcause, hdetail, hfpc, hinfo⟩ := State.faultRegs_eq_iff.1 hheld.faultRegs
  exact ⟨hheld.runState, hcause, hdetail, hfpc, hinfo, hheld.pc⟩

/-! ## STATUS and refusals (R31, R247) -/

theorem statusWord_toNat (r : RunState) (keyed : Bool) :
    (statusWord r keyed).toNat = r.code.toNat + if keyed then 4 else 0 := by
  cases keyed <;> cases r <;> rfl

section
variable {s : State}

/-- While RUNNING the host can only read STATUS and reset (R247). -/
theorem State.host_of_running (h : s.runState = .running) {op : HostOp} (hstatus : op ≠ .readStatus)
    (hreset : ∀ point, op ≠ .reset point) : s.host op = (.refused, s) := by
  cases op with
  | readStatus => exact absurd rfl hstatus
  | reset point => exact absurd rfl (hreset point)
  | start => exact State.host_start_of_running_or_faulted (.inl h)
  | readCsr | writeStartPc | readReg | writeReg | readDmem | writeDmem | readCmd | writeCmd =>
    exact State.whenStopped_of_running h

end

/-- Settles O57, with the inversion lemma of host for the last clause. -/
theorem hostStartAndRefusals : Obligations.HostStartAndRefusals := by
  intro s
  refine ⟨State.host_start_of_idle_or_halted, State.host_start_of_running_or_faulted, rfl, ?_,
    fun h op => State.host_of_running h, fun op => (s.host_effect op).state_eq_of_refused⟩
  rw [State.status, statusWord_toNat]
  cases s.runState <;> rfl

/-! ## Host accesses in a stopped engine (R32, R245) -/

/-- HOST_WRITE_REG has no cell for tag U, nor for a value too wide for its tag. -/
theorem Cell.ofHost?_eq_none {t : Tag} {v : Nat} (h : t = .u ∨ 2 ^ t.width ≤ v) : Cell.ofHost? t v = none := by
  rcases h with rfl | h
  · exact ite_self none
  · exact if_neg (Nat.not_lt.2 h)

/-- HOST_WRITE_REG has a cell of the tag and value given where the value fits the tag. -/
theorem Cell.ofHost?_eq_some {t : Tag} {v : Nat} (ht : t ≠ .u) (hv : v < 2 ^ t.width) :
    ∃ c, Cell.ofHost? t v = some c ∧ c.tag = t ∧ c.value.toNat = v := by
  cases t with
  | u => exact absurd rfl ht
  | s => exact ⟨_, if_pos hv, rfl, Nat.mod_eq_of_lt hv⟩
  | b32 => exact ⟨_, if_pos hv, rfl, (BitVec.toNat_setWidth_of_le (by decide)).trans (Nat.mod_eq_of_lt hv)⟩
  | b48 => exact ⟨_, if_pos hv, rfl, (BitVec.toNat_setWidth_of_le (by decide)).trans (Nat.mod_eq_of_lt hv)⟩
  | b64 => exact ⟨_, if_pos hv, rfl, Nat.mod_eq_of_lt hv⟩

/-- R32 lists registers 0 to 6. -/
theorem State.csr?_eq_none (s : State) {no : Nat} (h : 6 < no) : s.csr? no = none := by
  obtain ⟨k, rfl⟩ := Nat.exists_eq_add_of_le' (Nat.succ_le_of_lt h)
  rfl

section
variable {s : State} (h : s.runState ≠ .running)
include h

theorem State.host_readCsr_of_some {no : Nat} {v : BitVec 64} (hv : s.csr? no = some v) :
    s.host (.readCsr no) = (.csr v, s) := by
  simp only [State.host, State.whenStopped_of_stopped h, hv]

theorem State.host_readCsr_of_none {no : Nat} (hno : s.csr? no = none) : s.host (.readCsr no) = (.refused, s) := by
  simp only [State.host, State.whenStopped_of_stopped h, hno]

theorem State.host_readReg (n : Nat) :
    s.host (.readReg n) =
      if n < 16 then (.cell (s.reg (Fin.ofNat 16 n)).tag (s.reg (Fin.ofNat 16 n)).value, s) else (.refused, s) :=
  (State.whenStopped_of_stopped h).trans State.refuseUnless_decide

theorem State.host_writeReg_of_none {n v : Nat} {t : Tag} (ht : Cell.ofHost? t v = none) :
    s.host (.writeReg n t v) = (.refused, s) := by
  simp only [State.host, State.whenStopped_of_stopped h, State.refuseUnless_decide, ht, ite_self]

theorem State.host_writeReg_of_le {n v : Nat} {t : Tag} (hn : 16 ≤ n) :
    s.host (.writeReg n t v) = (.refused, s) := by
  simp only [State.host, State.whenStopped_of_stopped h, State.refuseUnless_decide, if_neg (Nat.not_lt.2 hn)]

theorem State.host_writeReg_of_some {n : Reg} {v : Nat} {t : Tag} {c : Cell} (hc : Cell.ofHost? t v = some c) :
    s.host (.writeReg n.val t v) = (.done, s.setReg n c) := by
  simp only [State.host, State.whenStopped_of_stopped h, State.refuseUnless_decide, hc, if_pos n.isLt,
    Fin.ofNat_val_eq_self]

theorem State.host_readDmem (a n : Nat) :
    s.host (.readDmem a n) =
      if a + n ≤ s.cfg.dmemSize then (.bytes (s.readBytes a n), s) else (.refused, s) :=
  (State.whenStopped_of_stopped h).trans State.refuseUnless_decide

theorem State.host_writeDmem (a : Nat) (bs : List Byte) :
    s.host (.writeDmem a bs) =
      if a + bs.length ≤ s.cfg.dmemSize then (.done, s.storeBytes a bs) else (.refused, s) :=
  (State.whenStopped_of_stopped h).trans State.refuseUnless_decide

theorem State.host_readCmd (j : Nat) :
    s.host (.readCmd j) = if j < s.cfg.cmdDepth then (.command (s.cmdWord j), s) else (.refused, s) :=
  (State.whenStopped_of_stopped h).trans State.refuseUnless_decide

theorem State.host_writeCmd (j : Nat) (w : Command) :
    s.host (.writeCmd j w) = if j < s.cfg.cmdDepth then (.done, s.storeCmd j w) else (.refused, s) :=
  (State.whenStopped_of_stopped h).trans State.refuseUnless_decide

end

/-- Settles O58, one clause per operation of R245, with the read-over-write laws for what it writes. -/
theorem hostAccesses : Obligations.HostAccesses := by
  intro s h
  refine ⟨fun v => State.whenStopped_of_stopped h, fun no hno => State.host_readCsr_of_none h (s.csr?_eq_none hno), ?csr,
    fun n => ?readReg, fun n hn => ?readRegRefused, fun n t v hbad => ?writeRegRefused, fun n t v ht hv => ?writeReg,
    State.host_readDmem h, State.host_writeDmem h, State.host_readCmd h, fun j w hj => ?writeCmd,
    fun j w hj => ?writeCmdRefused⟩
  case csr =>
    exact ⟨State.host_readCsr_of_some h rfl, State.host_readCsr_of_some h rfl, State.host_readCsr_of_some h rfl,
      State.host_readCsr_of_some h rfl, State.host_readCsr_of_some h rfl, State.host_readCsr_of_some h rfl,
      State.host_readCsr_of_some h rfl⟩
  case readReg => rw [State.host_readReg h, if_pos n.isLt, Fin.ofNat_val_eq_self]
  case readRegRefused => rw [State.host_readReg h, if_neg (Nat.not_lt.2 hn)]
  case writeRegRefused =>
    rcases hbad with hn | hcell
    · exact State.host_writeReg_of_le h hn
    · exact State.host_writeReg_of_none h (Cell.ofHost?_eq_none hcell)
  case writeReg =>
    obtain ⟨c, hc, htag, hvalue⟩ := Cell.ofHost?_eq_some ht hv
    exact ⟨c, htag, hvalue, State.host_writeReg_of_some h hc, State.setReg_reg_same s n c,
      fun m hm => State.setReg_reg_other s m n c hm⟩
  case writeCmd =>
    exact ⟨(State.host_writeCmd h j w).trans (if_pos hj), State.storeCmd_cmdWord_same s j w,
      fun k hk => State.storeCmd_cmdWord_other s j k w hk⟩
  case writeCmdRefused => rw [State.host_writeCmd h, if_neg (Nat.not_lt.2 hj)]

end Sys2Proof.Machine
end

/-! PROOFS. What commands leave of DMEM (R50, R58), and the byte order of blocks (R54). -/
section

namespace Sys2Proof.Machine

/-! ## What a command leaves of DMEM (R50) -/

section
variable {i : Instr} {s u t : State} {a : Nat}

/-- A write reaches a byte only by a storing command and, since every stored region is in bounds (R58), only below
DMEM_SIZE. -/
theorem Writes.byte_eq (h : Writes i s u) (ha : storesMemory i = false ∨ s.cfg.dmemSize ≤ a) : u.byte a = s.byte a := by
  have region_below {b : Nat} {bs : List Byte} (hi : storesMemory i = true) (hb : b + bs.length ≤ s.cfg.dmemSize) :
      b + bs.length ≤ a :=
    ha.elim (fun hno => absurd (hi.symm.trans hno) (by decide)) hb.trans
  cases h with
  | nothing | register | key => rfl
  | memory b bs hi hb => exact State.storeBytes_byte_outside s b a bs (.inr (region_below hi hb))
  | both b bs n c hi hb => exact State.storeBytes_byte_outside s b a bs (.inr (region_below hi hb))

theorem exec_byte_eq (h : exec i s = .next t) (ha : storesMemory i = false ∨ s.cfg.dmemSize ≤ a) :
    t.byte a = s.byte a := by
  rcases exec_eq_next h with ⟨-, rfl⟩ | ⟨u, hu, rfl⟩ | ⟨r, rfl⟩
  · rfl
  · exact hu.byte_eq ha
  · rfl

end

/-- Settles O22, from the frame of a command's writes; HALT and fault entry write no byte. -/
theorem onlyStoringCommandsWriteMemory : Obligations.OnlyStoringCommandsWriteMemory := by
  intro i s t h
  exact ⟨fun hi a => exec_byte_eq h (.inl hi), fun a ha => exec_byte_eq h (.inr ha)⟩

/-! ## Byte order (R54) -/

/-- A byte appended on the right is the last digit in base 256. -/
theorem toNat_append_byte {w : Nat} (x : BitVec w) (y : Byte) : (x ++ y).toNat = x.toNat * 2 ^ 8 + y.toNat := by
  rw [BitVec.toNat_append, ← Nat.shiftLeft_add_eq_or_of_lt y.isLt, Nat.shiftLeft_eq]

theorem toNat_pack64 (b : List Byte) :
    (pack64 b).toNat = (b.getD 0 0).toNat * 2 ^ 56 + (b.getD 1 0).toNat * 2 ^ 48 + (b.getD 2 0).toNat * 2 ^ 40 +
      (b.getD 3 0).toNat * 2 ^ 32 + (b.getD 4 0).toNat * 2 ^ 24 + (b.getD 5 0).toNat * 2 ^ 16 +
      (b.getD 6 0).toNat * 2 ^ 8 + (b.getD 7 0).toNat := by
  simp only [pack64, toNat_append_byte]
  ring

theorem getLsbD_unpack64_getD (v : Block64) {i k : Nat} (hi : i < 8) (hk : k < 8) :
    ((unpack64 v).getD i 0).getLsbD k = v.getLsbD (8 * (7 - i) + k) := by
  rw [unpack64_getD v i hi, BitVec.getLsbD_extractLsb', decide_eq_true hk, Bool.true_and]

theorem unpack64_pack64_getD (b : List Byte) {i : Nat} (hi : i < 8) : (unpack64 (pack64 b)).getD i 0 = b.getD i 0 :=
  BitVec.eq_of_getLsbD_eq fun k hk => (getLsbD_unpack64_getD _ hi hk).trans (getLsbD_pack64 b i k hi hk)

theorem unpack64_pack64 {b : List Byte} (hb : b.length = 8) : unpack64 (pack64 b) = b := by
  refine List.ext_getElem hb.symm fun i hi hib => ?_
  rw [← List.getD_eq_getElem _ 0 hi, ← List.getD_eq_getElem _ 0 hib, unpack64_pack64_getD b hi]

/-- Bit j of a block is bit j mod 8 of byte 7 - j / 8. -/
theorem pack64_unpack64 (v : Block64) : pack64 (unpack64 v) = v := by
  refine BitVec.eq_of_getLsbD_eq fun j hj => ?_
  have hi : 7 - j / 8 < 8 := by omega
  have hk : j % 8 < 8 := Nat.mod_lt j (by decide)
  have hplace : 8 * (7 - (7 - j / 8)) + j % 8 = j := by omega
  rw [← hplace, getLsbD_pack64 _ _ _ hi hk, getLsbD_unpack64_getD v hi hk]

/-- Settles O26: the placement of bits gives both inverse laws, and appending bytes gives the value. -/
theorem packingIsBigEndian : Obligations.PackingIsBigEndian := by
  refine ⟨fun b i k hi hk => ?bit, toNat_pack64, fun b => unpack64_pack64,
    fun v => ⟨pack64_unpack64 v, unpack64_length v, fun i hi => ?byte⟩, by decide⟩
  case bit => rw [Nat.mul_comm, getLsbD_pack64 b i k hi hk]
  case byte => rw [Nat.mul_comm, unpack64_getD v i hi]

end Sys2Proof.Machine
end

/-! PROOFS. The encoding (R70 to R84): encode and decode are inverse, decode rejects a word with the first of R80's
conditions that applies, and the opcode map of R76 decides which words are commands. -/
section

namespace Sys2Proof
open Machine

/-! ## Words and their fields (R71) -/

section
variable {op : BitVec 8} {a b c d : BitVec 4} {imm8 : BitVec 8} {imm20 : BitVec 20} {w : Command}

theorem wordR_eq_iff :
    wordR op a b c d imm8 = w ↔
      fieldOp w = op ∧ fieldA w = a ∧ fieldB w = b ∧ fieldC w = c ∧ fieldD w = d ∧ fieldImm8 w = imm8 := by
  constructor
  · rintro rfl
    simp
  · rintro ⟨rfl, rfl, rfl, rfl, rfl, rfl⟩
    exact wordR_fields w

theorem wordI_eq_iff : wordI op a imm20 = w ↔ fieldOp w = op ∧ fieldA w = a ∧ fieldImm20 w = imm20 := by
  constructor
  · rintro rfl
    simp
  · rintro ⟨rfl, rfl, rfl⟩
    exact wordI_fields w

/-- IMM20 covers the fields B, C, D and IMM8: with all of them zero a word has both formats. -/
theorem fieldImm20_eq_zero_iff :
    fieldImm20 w = 0#20 ↔ fieldB w = 0#4 ∧ fieldC w = 0#4 ∧ fieldD w = 0#4 ∧ fieldImm8 w = 0#8 := by
  have hformats : wordI (fieldOp w) (fieldA w) 0 = w ↔ wordR (fieldOp w) (fieldA w) 0 0 0 0 = w := Iff.rfl
  simpa [wordI_eq_iff, wordR_eq_iff] using hformats

end

/-! ## The checks of decode -/

section
variable {holds : Bool} {k : Decoded} {i : Instr}

@[simp] theorem mustBeZero_true : mustBeZero true k = k := rfl

@[simp] theorem evenPairs_true : evenPairs true k = k := rfl

theorem mustBeZero_eq_ok : mustBeZero holds k = .ok i ↔ holds = true ∧ k = .ok i := by
  cases holds <;> simp [mustBeZero]

theorem evenPairs_eq_ok : evenPairs holds k = .ok i ↔ holds = true ∧ k = .ok i := by
  cases holds <;> simp [evenPairs]

end

/-! ## Decode and encode are inverse -/

/-- A subkey index fits IMM8, within the range decode tests (R74). -/
theorem imm8_subkeyIndex : ∀ k : Fin 16,
    (BitVec.ofNat 8 k.val).toNat ≤ 15 ∧ Fin.ofNat 16 (BitVec.ofNat 8 k.val).toNat = k := by
  decide

theorem imm8_of_subkeyIndex {x : BitVec 8} (h : x.toNat ≤ 15) : BitVec.ofNat 8 (Fin.ofNat 16 x.toNat).val = x := by
  apply BitVec.eq_of_toNat_eq
  rw [Fin.val_ofNat, BitVec.toNat_ofNat]
  omega

/-- Settles O1: every field decode tests reads back what encode put there. -/
theorem decodeOfEncode : Obligations.DecodeOfEncode := by
  intro i hwf
  cases i with
  | nop | halt => decide
  | getsk rd k =>
    obtain ⟨hle, hk⟩ := imm8_subkeyIndex k
    simp only [encode, decode, fieldOp_wordR, fieldA_wordR, fieldB_wordR, fieldC_wordR, fieldD_wordR, fieldImm8_wordR,
      hle, hk]
    simp
  | packz | encbuf | decbuf | xorrep | caesar | plaus | bfx1 | bfx2 | bfxd | ckey =>
    simp only [Instr.wellFormed] at hwf
    simp [encode, decode, hwf]
  | _ => simp [encode, decode]

/-- Settles O2: along the arms of decode, the tests passed give each field of the word the value encode writes. -/
theorem encodeOfDecode : Obligations.EncodeOfDecode := by
  intro w i h
  unfold decode at h
  split at h
  -- LI and LIH take every word of their opcode
  case h_3 hop | h_4 hop =>
    cases h
    simp [encode, wordI_eq_iff, Instr.wellFormed, hop]
  -- the selectors of the opcodes 0x15 and 0x17
  case h_12 hop | h_14 hop =>
    obtain ⟨hzero, hsel⟩ := mustBeZero_eq_ok.1 h
    simp only [Bool.and_eq_true, beq_iff_eq] at hzero
    split at hsel
    all_goals cases hsel
    all_goals simp [encode, wordR_eq_iff, Instr.wellFormed, *]
  -- the subkey index of GETSK
  case h_17 hop =>
    obtain ⟨hzero, hsel⟩ := mustBeZero_eq_ok.1 h
    simp only [Bool.and_eq_true, beq_iff_eq] at hzero
    split at hsel
    · rename_i hrange
      cases hsel
      simp only [encode, wordR_eq_iff, imm8_of_subkeyIndex hrange]
      simp [Instr.wellFormed, hop, hzero]
    · cases hsel
  -- the opcodes with pair fields
  case h_9 hop | h_26 hop | h_27 hop | h_28 hop | h_29 hop | h_30 hop | h_31 hop | h_32 hop | h_33 hop | h_34 hop =>
    obtain ⟨hzero, hpairs⟩ := mustBeZero_eq_ok.1 h
    obtain ⟨heven, ⟨⟩⟩ := evenPairs_eq_ok.1 hpairs
    simp only [Bool.and_eq_true, beq_iff_eq] at hzero
    simpa [encode, wordR_eq_iff, Instr.wellFormed, hop, hzero] using heven
  -- the unassigned opcodes
  case h_35 => cases h
  -- the opcodes with must-be-zero fields only
  all_goals
    rename_i hop
    obtain ⟨hzero, ⟨⟩⟩ := mustBeZero_eq_ok.1 h
    simp only [Bool.and_eq_true, beq_iff_eq, BitVec.ofNat_eq_ofNat, fieldImm20_eq_zero_iff] at hzero
    simp [encode, wordR_eq_iff, Instr.wellFormed, hop, hzero]

theorem decode_eq_ok_iff {w : Command} {i : Instr} : decode w = .ok i ↔ i.wellFormed = true ∧ encode i = w := by
  constructor
  · intro h
    exact (encodeOfDecode w i h).symm
  · rintro ⟨hwf, rfl⟩
    exact decodeOfEncode i hwf

/-! ## Masks (R76, R82, R83) -/

theorem ofNat_eq_wordR (n : Nat) :
    BitVec.ofNat 32 n = wordR (BitVec.ofNat 8 n) (BitVec.ofNat 4 (n >>> 8)) (BitVec.ofNat 4 (n >>> 12))
      (BitVec.ofNat 4 (n >>> 16)) (BitVec.ofNat 4 (n >>> 20)) (BitVec.ofNat 8 (n >>> 24)) := by
  refine (wordR_eq_iff.2 ?_).symm
  and_intros
  all_goals
    apply BitVec.eq_of_toNat_eq
    simp only [fieldOp, fieldA, fieldB, fieldC, fieldD, fieldImm8, BitVec.extractLsb'_toNat, BitVec.toNat_ofNat,
      Nat.shiftRight_eq_div_pow]
    omega

/-- A mask written as a number tests each field of a word by the mask's bits in that field. -/
theorem and_ofNat_eq_zero_iff {w : Command} {n : Nat} :
    w &&& BitVec.ofNat 32 n = 0#32 ↔
      fieldOp w &&& BitVec.ofNat 8 n = 0#8 ∧ fieldA w &&& BitVec.ofNat 4 (n >>> 8) = 0#4 ∧
        fieldB w &&& BitVec.ofNat 4 (n >>> 12) = 0#4 ∧ fieldC w &&& BitVec.ofNat 4 (n >>> 16) = 0#4 ∧
        fieldD w &&& BitVec.ofNat 4 (n >>> 20) = 0#4 ∧ fieldImm8 w &&& BitVec.ofNat 8 (n >>> 24) = 0#8 := by
  have hzero : 0#32 = wordR 0 0 0 0 0 0 := rfl
  nth_rw 1 [← wordR_fields w]
  rw [ofNat_eq_wordR, wordR_and, hzero, eq_comm, wordR_eq_iff]
  simp

/-- All ones, as simp writes a 4-bit field of a mask. -/
@[simp] theorem and_15 (x : BitVec 4) : x &&& 15#4 = x := BitVec.and_allOnes

/-- All ones, as simp writes an 8-bit field of a mask. -/
@[simp] theorem and_255 (x : BitVec 8) : x &&& 255#8 = x := BitVec.and_allOnes

theorem even_regOf_iff : ∀ x : BitVec 4, Reg.even (regOf x) = true ↔ x &&& 1#4 = 0#4 := by decide

/-! ## What decode rejects (R80 to R84) -/

/-- The detail with which a word is rejected, if it is. -/
def Decoded.detail? : Decoded → Option IllegalDetail
  | .ok _ => none
  | .error d => some d

@[simp] theorem Decoded.detail?_ok (i : Instr) : Decoded.detail? (.ok i) = none := rfl

@[simp] theorem Decoded.detail?_error (d : IllegalDetail) : Decoded.detail? (.error d) = some d := rfl

theorem Decoded.detail?_eq_some {r : Decoded} {d : IllegalDetail} : r.detail? = some d ↔ r = .error d := by
  cases r <;> simp

theorem Decoded.detail?_eq_none {r : Decoded} : r.detail? = none ↔ ∃ i, r = .ok i := by
  cases r <;> simp

@[simp] theorem detail?_evenPairs {even : Bool} {i : Instr} :
    (evenPairs even (.ok i)).detail? = if even = true then none else some .oddPair := by
  cases even <;> rfl

/-- R80's last two tests of a word, those after the test of the fields its opcode does not use. -/
def operandDetail? (f : OpcodeFields) (w : Command) : Option IllegalDetail :=
  if f.maxImm8 < (fieldImm8 w).toNat then some .immRange else if w &&& f.pairBits = 0 then none else some .oddPair

section
variable {w : Command}

theorem illegalDetail?_of_assigned {f : OpcodeFields} (hf : opcodeFields.find? (·.op == fieldOp w) = some f) :
    illegalDetail? w = if w &&& f.unused = 0 then operandDetail? f w else some .reservedBits := by
  rw [illegalDetail?, hf]
  simp only [operandDetail?, ite_not]

theorem illegalDetail?_of_unassigned (hw : fieldOp w ∉ opcodeFields.map (·.op)) :
    illegalDetail? w = some .undefinedOpcode := by
  have hnone : opcodeFields.find? (·.op == fieldOp w) = none :=
    List.find?_eq_none.2 fun f hf hop => hw (List.mem_map.2 ⟨f, hf, eq_of_beq hop⟩)
  rw [illegalDetail?, hnone]

/-- An arm of decode agrees with R80 if it tests the unused fields of its opcode and goes on to the operand tests. -/
theorem detail?_mustBeZero {f : OpcodeFields} {zero : Bool} {k : Decoded}
    (hf : opcodeFields.find? (·.op == fieldOp w) = some f) (hzero : w &&& f.unused = 0 ↔ zero = true)
    (hk : zero = true → k.detail? = operandDetail? f w) : (mustBeZero zero k).detail? = illegalDetail? w := by
  rw [illegalDetail?_of_assigned hf]
  cases zero with
  | true => rw [if_pos (hzero.2 rfl), mustBeZero_true, hk rfl]
  | false =>
    rw [if_neg fun h => Bool.false_ne_true (hzero.1 h)]
    rfl

theorem one_lt_toNat {x : BitVec 8} (h0 : x ≠ 0#8) (h1 : x ≠ 1#8) : 1 < x.toNat := by
  bv_omega

theorem two_lt_toNat {x : BitVec 8} (h0 : x ≠ 0#8) (h1 : x ≠ 1#8) (h2 : x ≠ 2#8) : 2 < x.toNat := by
  bv_omega

/-- Decode and R80's chain of tests agree on every word, arm by arm of decode. -/
theorem detail?_decode : (decode w).detail? = illegalDetail? w := by
  unfold decode
  split
  -- LI and LIH take every word of their opcode
  case h_3 hop | h_4 hop =>
    refine detail?_mustBeZero (zero := true) (by rw [hop]; rfl) (by simp) fun _ => ?_
    have hmax : ¬ 255 < (fieldImm8 w).toNat := Nat.not_lt.2 (Nat.le_of_lt_succ (fieldImm8 w).isLt)
    simp [operandDetail?, hmax]
  -- the selector of BLK32, BLK48 and BLK64
  case h_12 hop =>
    refine detail?_mustBeZero (by rw [hop]; rfl) (by simp [and_ofNat_eq_zero_iff]) fun _ => ?_
    split
    case h_4 h0 h1 h2 => simp [operandDetail?, two_lt_toNat h0 h1 h2]
    all_goals simp [operandDetail?, *]
  -- the selector of HALFLO and HALFHI
  case h_14 hop =>
    refine detail?_mustBeZero (by rw [hop]; rfl) (by simp [and_ofNat_eq_zero_iff]) fun _ => ?_
    split
    case h_3 h0 h1 => simp [operandDetail?, one_lt_toNat h0 h1]
    all_goals simp [operandDetail?, *]
  -- the subkey index of GETSK
  case h_17 hop =>
    refine detail?_mustBeZero (by rw [hop]; rfl) (by simp [and_ofNat_eq_zero_iff, and_assoc]) fun _ => ?_
    split
    · simp_all [operandDetail?]
    · simp_all [operandDetail?]
  -- the opcodes with pair fields
  case h_9 hop | h_26 hop | h_27 hop | h_28 hop | h_29 hop | h_30 hop | h_31 hop | h_32 hop | h_33 hop | h_34 hop =>
    refine detail?_mustBeZero (by rw [hop]; rfl) (by simp [and_ofNat_eq_zero_iff, and_assoc]) fun hzero => ?_
    simp only [Bool.and_eq_true, beq_iff_eq] at hzero
    simp [operandDetail?, and_ofNat_eq_zero_iff, even_regOf_iff, hzero, and_assoc]
  -- the unassigned opcodes
  case h_35 =>
    refine (illegalDetail?_of_unassigned fun hop => ?_).symm
    simp only [opcodeFields, List.map_cons, List.mem_cons] at hop
    simp_all
  -- the opcodes with must-be-zero fields only
  all_goals
    rename_i hop
    refine detail?_mustBeZero (by rw [hop]; rfl)
      (by simp [and_ofNat_eq_zero_iff, fieldImm20_eq_zero_iff, and_assoc]) fun hzero => ?_
    simp only [Bool.and_eq_true, beq_iff_eq, BitVec.ofNat_eq_ofNat, fieldImm20_eq_zero_iff] at hzero
    simp [operandDetail?, hzero]

end

/-- Settles O4, read off from the detail decode rejects with. -/
theorem illegalDetailInOrder : Obligations.IllegalDetailInOrder := by
  intro w
  rw [← detail?_decode]
  exact ⟨fun d => Decoded.detail?_eq_some.symm, Decoded.detail?_eq_none.symm⟩

/-! ## The opcode map (R76) -/

/-- Every row of R76 holds the words of its command. -/
theorem opcodeRow_fits_encode : ∀ i : Instr, Laws.OpcodeRow.Statement i
  | .nop => Laws.OpcodeRow.nop
  | .halt => Laws.OpcodeRow.halt
  | .li rd imm => Laws.OpcodeRow.li rd imm
  | .lih rd imm => Laws.OpcodeRow.lih rd imm
  | .mov rd rs => Laws.OpcodeRow.mov rd rs
  | .rdstat rd => Laws.OpcodeRow.rdstat rd
  | .pack64 rd rs => Laws.OpcodeRow.pack64 rd rs
  | .unpack64 ra rs => Laws.OpcodeRow.unpack64 ra rs
  | .packz rd p => Laws.OpcodeRow.packz rd p
  | .bitat rd rb ri => Laws.OpcodeRow.bitat rd rb ri
  | .xor rd ra rb => Laws.OpcodeRow.xor rd ra rb
  | .blk32 rd rs => Laws.OpcodeRow.blk32 rd rs
  | .blk48 rd rs => Laws.OpcodeRow.blk48 rd rs
  | .blk64 rd rs => Laws.OpcodeRow.blk64 rd rs
  | .val rd rs => Laws.OpcodeRow.val rd rs
  | .halflo rd rs => Laws.OpcodeRow.halflo rd rs
  | .halfhi rd rs => Laws.OpcodeRow.halfhi rd rs
  | .join rd rh rl => Laws.OpcodeRow.join rd rh rl
  | .setkey rs => Laws.OpcodeRow.setkey rs
  | .getsk rd k => Laws.OpcodeRow.getsk rd k
  | .ip rd rs => Laws.OpcodeRow.ip rd rs
  | .fp rd rs => Laws.OpcodeRow.fp rd rs
  | .expand rd rs => Laws.OpcodeRow.expand rd rs
  | .subst rd rs => Laws.OpcodeRow.subst rd rs
  | .permp rd rs => Laws.OpcodeRow.permp rd rs
  | .roundf rd rr rk => Laws.OpcodeRow.roundf rd rr rk
  | .enc rd rs => Laws.OpcodeRow.enc rd rs
  | .dec rd rs => Laws.OpcodeRow.dec rd rs
  | .encbuf ra p => Laws.OpcodeRow.encbuf ra p
  | .decbuf ra p => Laws.OpcodeRow.decbuf ra p
  | .xorrep ra p q => Laws.OpcodeRow.xorrep ra p q
  | .caesar ra p rs => Laws.OpcodeRow.caesar ra p rs
  | .plaus rd p => Laws.OpcodeRow.plaus rd p
  | .bfx1 rd p q => Laws.OpcodeRow.bfx1 rd p q
  | .bfx2 rd p q => Laws.OpcodeRow.bfx2 rd p q
  | .bfxd rd p q t => Laws.OpcodeRow.bfxd rd p q t
  | .ckey rd p => Laws.OpcodeRow.ckey rd p

theorem opcodeRow_mem_opcodeMap (i : Instr) : opcodeRow i ∈ opcodeMap := by
  cases i <;> simp [opcodeRow, opcodeMap]

section
variable {r q : OpcodeRow} {w : Command}

/-- Two rows differ in a bit that both of them fix. -/
def OpcodeRow.Disjoint (r q : OpcodeRow) : Prop := r.pattern &&& q.mask ≠ q.pattern &&& r.mask

theorem OpcodeRow.fits_iff : r.fits w = true ↔ w &&& r.mask = r.pattern := beq_iff_eq

theorem OpcodeRow.Disjoint.not_both_fit (h : r.Disjoint q) : ¬ (r.fits w = true ∧ q.fits w = true) := by
  rintro ⟨hr, hq⟩
  refine h ?_
  rw [← OpcodeRow.fits_iff.1 hr, ← OpcodeRow.fits_iff.1 hq, BitVec.and_assoc, BitVec.and_assoc, BitVec.and_comm r.mask]

theorem opcodeMap_pairwise_disjoint : opcodeMap.Pairwise OpcodeRow.Disjoint := by
  unfold OpcodeRow.Disjoint
  decide

/-- What a row requires of the bits `m`, all among those it fixes. -/
theorem OpcodeRow.and_of_fits (h : r.fits w = true) {m : Command} (hm : r.mask &&& m = m) :
    w &&& m = r.pattern &&& m := by
  rw [← OpcodeRow.fits_iff.1 h, BitVec.and_assoc, hm]

/-- Bits outside a mask add at most what the mask leaves open. -/
theorem toNat_le_of_and_eq {n : Nat} {x m p : BitVec n} (h : x &&& m = p) : x.toNat ≤ (p ||| ~~~m).toNat := by
  have habsorb : x ||| (p ||| ~~~m) = p ||| ~~~m := by
    subst h
    ext j hj
    simp only [BitVec.getElem_or, BitVec.getElem_and, BitVec.getElem_not]
    cases x[j] <;> cases m[j] <;> rfl
  calc x.toNat ≤ (x ||| (p ||| ~~~m)).toNat := by
        rw [BitVec.toNat_or]
        exact Nat.left_le_or
    _ = (p ||| ~~~m).toNat := by rw [habsorb]

/-- A row fixes its opcode, and every word that fits it passes R80's tests of that opcode, `f`: the unused fields and
the pair bits are fixed at zero, and IMM8, where the row leaves it open, stays in range. -/
def OpcodeRow.Within (r : OpcodeRow) (f : OpcodeFields) : Prop :=
  fieldOp r.mask = 255#8 ∧ (r.mask &&& f.unused = f.unused ∧ r.pattern &&& f.unused = 0) ∧
    (fieldImm8 r.pattern ||| ~~~(fieldImm8 r.mask)).toNat ≤ f.maxImm8 ∧
    r.mask &&& f.pairBits = f.pairBits ∧ r.pattern &&& f.pairBits = 0

theorem opcodeMap_within : ∀ r ∈ opcodeMap, ∃ f ∈ opcodeFields.find? (·.op == fieldOp r.pattern), r.Within f := by
  unfold OpcodeRow.Within
  decide

theorem OpcodeRow.Within.illegalDetail?_eq_none {f : OpcodeFields} (hr : r.Within f)
    (hf : opcodeFields.find? (·.op == fieldOp r.pattern) = some f) (hw : r.fits w = true) :
    illegalDetail? w = none := by
  obtain ⟨hmask, ⟨hunusedMask, hunused⟩, himm, hpairsMask, hpairs⟩ := hr
  have hop : fieldOp w = fieldOp r.pattern := by
    rw [← OpcodeRow.fits_iff.1 hw, fieldOp, fieldOp, BitVec.extractLsb'_and]
    exact (congrArg (fieldOp w &&& ·) hmask).trans (and_255 _) |>.symm
  have himm8 : fieldImm8 w &&& fieldImm8 r.mask = fieldImm8 r.pattern := by
    rw [← OpcodeRow.fits_iff.1 hw]
    exact BitVec.extractLsb'_and.symm
  rw [← hop] at hf
  rw [illegalDetail?_of_assigned hf, if_pos ((OpcodeRow.and_of_fits hw hunusedMask).trans hunused), operandDetail?,
    if_neg (Nat.not_lt.2 ((toNat_le_of_and_eq himm8).trans himm)),
    if_pos ((OpcodeRow.and_of_fits hw hpairsMask).trans hpairs)]

/-- A word that fits a row passes every test of R80, so decode accepts it. -/
theorem decode_of_fits (hr : r ∈ opcodeMap) (hw : r.fits w = true) : ∃ i, decode w = .ok i := by
  obtain ⟨f, hf, hwithin⟩ := opcodeMap_within r hr
  rw [← Decoded.detail?_eq_none, detail?_decode]
  exact hwithin.illegalDetail?_eq_none hf hw

theorem opcodeRow_fits_of_decode {i : Instr} (h : decode w = .ok i) : (opcodeRow i).fits w = true := by
  obtain ⟨hwf, rfl⟩ := decode_eq_ok_iff.1 h
  exact opcodeRow_fits_encode i hwf

end

/-- Settles O3: a word that fits a row passes R80's tests, and one that decodes is the word of a command of its row. -/
theorem opcodeMapDecides : Obligations.OpcodeMapDecides := by
  refine ⟨rfl, opcodeMap_pairwise_disjoint.imp fun hdisjoint w => hdisjoint.not_both_fit, fun w => ⟨?fits, ?decodes⟩,
    fun w i h => ?row⟩
  case fits => exact fun ⟨r, hr, hw⟩ => decode_of_fits hr hw
  case decodes => exact fun ⟨i, h⟩ => ⟨opcodeRow i, opcodeRow_mem_opcodeMap i, opcodeRow_fits_of_decode h⟩
  case row => exact ⟨opcodeRow_mem_opcodeMap i, opcodeRow_fits_of_decode h, (decode_eq_ok_iff.1 h).2⟩

end Sys2Proof
end

/-! PROOFS. The pseudo-instructions of R91: a list of commands that loads one register, and the constant LI64 puts
together from an LI and three LIH. -/
section

namespace Sys2Proof.Machine

/-! ## Lists of commands that load a register -/

section
variable {s t : State} {rd rs : Reg} {v : Scalar} {c d : Cell} {i : Instr} {is js : List Instr}

theorem execAll_append (h : execAll is s = .next t) : execAll (is ++ js) s = execAll js t := by
  induction is generalizing s with
  | nil =>
    cases h
    rfl
  | cons i is ih =>
    simp only [List.cons_append, execAll] at h ⊢
    split at h
    · exact ih h
    · cases h
    · cases h

theorem execAll_singleton (h : exec i s = .next t) : execAll [i] s = .next t := by
  rw [execAll, h]
  rfl

/-- The commands complete and leave `c` in R[rd], every other register and all of DMEM as they were. -/
def Loads (s : State) (is : List Instr) (rd : Reg) (c : Cell) : Prop :=
  ∃ t, execAll is s = .next t ∧ t.reg rd = c ∧ (∀ n, n ≠ rd → t.reg n = s.reg n) ∧ ∀ a, t.byte a = s.byte a

theorem loads_singleton (h : exec i s = .next (s.setReg rd c).advance) : Loads s [i] rd c :=
  have hw := writesReg_advance s rd c
  ⟨_, execAll_singleton h, hw.written, hw.others, hw.memory⟩

/-- A command that writes R[rd] may read there what the commands before it loaded. -/
theorem Loads.snoc (h : Loads s is rd c) (hi : ∀ t : State, t.reg rd = c → exec i t = .next (t.setReg rd d).advance) :
    Loads s (is ++ [i]) rd d := by
  obtain ⟨t, ht, hrd, hothers, hmem⟩ := h
  obtain ⟨u, hu, hurd, huothers, humem⟩ := loads_singleton (hi t hrd)
  exact ⟨u, (execAll_append ht).trans hu, hurd, fun n hn => (huothers n hn).trans (hothers n hn),
    fun a => (humem a).trans (hmem a)⟩

theorem Loads.written (h : Loads s is rd c) : ∃ t, execAll is s = .next t ∧ t.reg rd = c := by
  obtain ⟨t, ht, hrd, -, -⟩ := h
  exact ⟨t, ht, hrd⟩

/-! ## The commands of R91 when they complete (R103, R104, R131) -/

theorem exec_li (imm : BitVec 20) : exec (.li rd imm) s = .next (s.setReg rd (.scalar (imm.signExtend 64))).advance :=
  rfl

theorem exec_lih (h : s.reg rd = .scalar v) (imm : BitVec 20) :
    exec (.lih rd imm) s = .next (s.setReg rd (.scalar (v <<< 20 ||| imm.setWidth 64))).advance := by
  show execLih rd imm s = _
  rw [execLih, State.readS_eq_ok.2 h, Check.ok_bind, complete_ok]

theorem exec_blk32 (h : s.reg rs = .scalar v) (hv : v.toNat < 2 ^ 32) :
    exec (.blk32 rd rs) s = .next (s.setReg rd (.block (.b32 (v.setWidth 32)))).advance := by
  show execBlk32 rd rs s = _
  rw [execBlk32, State.readS_eq_ok.2 h, Check.ok_bind, (ensure_eq_ok (u := ())).2 (decide_eq_true hv), Check.ok_bind,
    complete_ok]

theorem exec_blk48 (h : s.reg rs = .scalar v) (hv : v.toNat < 2 ^ 48) :
    exec (.blk48 rd rs) s = .next (s.setReg rd (.block (.b48 (v.setWidth 48)))).advance := by
  show execBlk48 rd rs s = _
  rw [execBlk48, State.readS_eq_ok.2 h, Check.ok_bind, (ensure_eq_ok (u := ())).2 (decide_eq_true hv), Check.ok_bind,
    complete_ok]

theorem exec_blk64 (h : s.reg rs = .scalar v) :
    exec (.blk64 rd rs) s = .next (s.setReg rd (.block (.b64 v))).advance := by
  show execBlk64 rd rs s = _
  rw [execBlk64, State.readS_eq_ok.2 h, Check.ok_bind, complete_ok]

end

/-! ## LI64 -/

section
variable {v : Scalar}

/-- A constant in the range of a signed IMM20 is its low 20 bits, sign-extended (R73). -/
theorem signExtend_low20 (h : -(2 ^ 19) ≤ v.toInt ∧ v.toInt < 2 ^ 19) : (v.extractLsb' 0 20).signExtend 64 = v := by
  apply BitVec.eq_of_toInt_eq
  rw [BitVec.toInt_signExtend_of_le (by decide), BitVec.toInt_eq_toNat_bmod, BitVec.extractLsb'_toNat]
  have := BitVec.toInt_eq_toNat_bmod v
  have := v.isLt
  simp only [Int.bmod_def, Nat.shiftRight_zero] at *
  omega

/-- The four bits LI loads first never read as a negative IMM20. -/
theorem signExtend_top4 : ((v.extractLsb' 60 4).setWidth 20).signExtend 64 = v >>> 60 := by
  have hmsb : ((v.extractLsb' 60 4).setWidth 20).msb = false := by simp [BitVec.msb_setWidth]
  rw [BitVec.signExtend_eq_setWidth_of_msb_false hmsb]
  apply BitVec.eq_of_toNat_eq
  have := v.isLt
  simp [Nat.shiftRight_eq_div_pow]
  omega

/-- What LIH inserts under the bits above it (R104). -/
theorem shiftLeft_or_extract (k : Nat) :
    v >>> (k + 20) <<< 20 ||| (v.extractLsb' k 20).setWidth 64 = v >>> k := by
  apply BitVec.eq_of_getLsbD_eq
  intro j hj
  by_cases hlow : j < 20
  · simp [hj, hlow]
  · simp [hj, hlow, show k + 20 + (j - 20) = k + j by omega]

/-- LIH brings the next 20 bits of a constant that is loaded from the top down. -/
theorem Loads.lih {s : State} {is : List Instr} {rd : Reg} {k : Nat} (h : Loads s is rd (.scalar (v >>> (k + 20)))) :
    Loads s (is ++ [.lih rd (v.extractLsb' k 20)]) rd (.scalar (v >>> k)) :=
  h.snoc fun _ ht => by rw [exec_lih ht, shiftLeft_or_extract]

theorem loads_li64 (s : State) (rd : Reg) (v : Scalar) : Loads s (li64 rd v) rd (.scalar v) := by
  unfold li64
  split
  · rename_i hsmall
    have hli := loads_singleton (exec_li (s := s) (rd := rd) (v.extractLsb' 0 20))
    rwa [signExtend_low20 hsmall] at hli
  · have hli := loads_singleton (exec_li (s := s) (rd := rd) ((v.extractLsb' 60 4).setWidth 20))
    rw [signExtend_top4] at hli
    have hlih := ((hli.lih (k := 40)).lih (k := 20)).lih (k := 0)
    rwa [BitVec.ushiftRight_zero] at hlih

end

/-- Settles O60: LI64 by its two expansions; the block commands read back the scalar LI64 loaded. -/
theorem pseudoInstructionsLoadConstants : Obligations.PseudoInstructionsLoadConstants := by
  intro s rd v
  have hli := loads_li64 s rd v
  refine ⟨hli, fun is h => ?lb32, fun is h => ?lb48, by simp [lb32?], by simp [lb48?], ?lb64⟩
  case lb32 =>
    obtain ⟨hv, his⟩ := Option.ite_none_right_eq_some.1 h
    obtain rfl := Option.some.inj his
    exact ⟨hv, (hli.snoc fun t ht => exec_blk32 ht hv).written⟩
  case lb48 =>
    obtain ⟨hv, his⟩ := Option.ite_none_right_eq_some.1 h
    obtain rfl := Option.some.inj his
    exact ⟨hv, (hli.snoc fun t ht => exec_blk48 ht hv).written⟩
  case lb64 => exact (hli.snoc fun t ht => exec_blk64 ht).written

end Sys2Proof.Machine
end

/-! PROOFS. Fetch, decode and execute (R100), the sequencer commands (R101 to R106), and the words the spec writes out. -/
section

namespace Sys2Proof.Machine

/-! ## Words written out in the spec -/

/-- Settles O5: a legal word is the one encode writes for its command, and the two illegal ones meet a condition of R80. -/
theorem specWordsDecode : Obligations.SpecWordsDecode := by
  have hlegal (w : Command) (i : Instr) : i.wellFormed = true ∧ encode i = w → decode w = .ok i := decode_eq_ok_iff.2
  have hillegal (w : Command) (d : IllegalDetail) : illegalDetail? w = some d → decode w = .error d :=
    ((illegalDetailInOrder w).1 d).2
  exact ⟨hlegal _ _ (by decide), hlegal _ _ (by decide), hlegal _ _ (by decide), hlegal _ _ (by decide),
    hlegal _ _ (by decide), hlegal _ _ (by decide), hlegal _ _ (by decide),
    hillegal _ _ (by decide), hillegal _ _ (by decide)⟩

/-! ## The engine step (R100) -/

section
variable {s : State} {i : Instr} {r : Raise}

theorem State.fetch_eq_ok :
    s.fetch = .ok i ↔ s.pc.toNat < s.cfg.cmdDepth ∧ decode (s.cmdWord s.pc.toNat) = .ok i := by
  unfold State.fetch
  by_cases hpc : s.pc.toNat < s.cfg.cmdDepth
  · cases hdecode : decode (s.cmdWord s.pc.toNat) <;> simp [State.pcInRange, hpc]
  · simp [State.pcInRange, hpc, Nat.le_of_not_lt hpc]

theorem step_of_fetch_ok (hrun : s.runState = .running) (h : s.fetch = .ok i) : step s = exec i s := by
  simp only [step, hrun, h]

theorem step_of_fetch_error (hrun : s.runState = .running) (h : s.fetch = .error r) : step s = .next (s.takeFault r) := by
  simp only [step, hrun, h]

/-- A command that ends with `complete` answers a next state, whatever its checks say. -/
theorem complete_total (s : State) (c : Check State) : ∃ t, complete s c = .next t := by
  cases c with
  | ok u => exact ⟨_, complete_ok s u⟩
  | error r => exact ⟨_, complete_error s r⟩

/-- HALT is the only command that does not end with `complete`. -/
theorem exec_eq_halt_or_complete (i : Instr) (s : State) :
    (i = .halt ∧ exec i s = .next s.halt) ∨ ∃ c, exec i s = complete s c := by
  cases i with
  | halt => exact .inl ⟨rfl, rfl⟩
  | nop | li | rdstat => exact .inr ⟨.ok _, rfl⟩
  | _ => exact .inr ⟨_, rfl⟩

theorem exec_total (i : Instr) (s : State) : ∃ t, exec i s = .next t := by
  rcases exec_eq_halt_or_complete i s with ⟨-, hhalt⟩ | ⟨c, hc⟩
  · exact ⟨_, hhalt⟩
  · rw [hc]
    exact complete_total s c

theorem step_total (hrun : s.runState = .running) : ∃ t, step s = .next t := by
  cases h : s.fetch with
  | ok i =>
    rw [step_of_fetch_ok hrun h]
    exact exec_total i s
  | error r => exact ⟨_, step_of_fetch_error hrun h⟩

end

/-- Settles O6: the fetch answers the command decoded. -/
theorem stepRunsDecodedCommand : Obligations.StepRunsDecodedCommand :=
  fun _ _ hrun hpc hdecode => step_of_fetch_ok hrun (State.fetch_eq_ok.2 ⟨hpc, hdecode⟩)

/-- Settles O8: every command and every failed fetch answers a next state. -/
theorem engineStepsExactlyWhileRunning : Obligations.EngineStepsExactlyWhileRunning :=
  fun _ => ⟨step_total, step_of_stopped⟩

/-! ## The sequencer commands (R101 to R106) -/

section
variable {s : State} {i : Instr} {rd rs : Reg} {c : Cell}

/-- The frame of a command that completes by writing one register. -/
theorem gives_writesReg (h : exec i s = .next (s.setReg rd c).advance) : Gives i s fun t => WritesReg s t rd c :=
  ⟨_, h, writesReg_advance s rd c⟩

/-- MOV copies the whole cell of any register that has been written (R106). -/
theorem exec_mov (h : s.reg rs ≠ .unwritten) : exec (.mov rd rs) s = .next (s.setReg rd (s.reg rs)).advance := by
  show execMov rd rs s = _
  rw [execMov]
  split
  · exact absurd ‹_› h
  · exact complete_ok _ _

/-- STATUS of a running program is 1, and 5 once KEYED (R31, R105). -/
theorem statusWord_running (keyed : Bool) : (statusWord .running keyed).setWidth 64 = if keyed then 5 else 1 := by
  cases keyed <;> rfl

theorem exec_rdstat : exec (.rdstat rd) s = .next (s.setReg rd (.scalar (if s.keyed then 5 else 1))).advance := by
  rw [← statusWord_running]
  rfl

/-- What LIH leaves in arithmetic, modulo 2^64: the immediate lies below the bits of the shifted value (R104). -/
theorem shiftLeft_or_imm (v : Scalar) (imm : BitVec 20) :
    v <<< 20 ||| imm.setWidth 64 = BitVec.ofNat 64 (v.toNat * 2 ^ 20 + imm.toNat) := by
  apply BitVec.eq_of_toNat_eq
  calc (v <<< 20 ||| imm.setWidth 64).toNat
    _ = (v.toNat <<< 20 ||| imm.toNat) % 2 ^ 64 := by
      rw [BitVec.toNat_or, BitVec.toNat_shiftLeft, BitVec.toNat_setWidth, Nat.or_mod_two_pow]
    _ = (v.toNat <<< 20 + imm.toNat) % 2 ^ 64 := by rw [Nat.shiftLeft_add_eq_or_of_lt imm.isLt]
    _ = (BitVec.ofNat 64 (v.toNat * 2 ^ 20 + imm.toNat)).toNat := by rw [Nat.shiftLeft_eq, BitVec.toNat_ofNat]

end

/-- Settles O27: NOP writes nothing, HALT only RUNSTATE, and the others one register. -/
theorem sequencerCommands : Obligations.SequencerCommands := by
  refine ⟨fun s => ?nop, fun s => ?halt, fun rd imm s => ?li, fun rd imm s v hv => ?lih,
    fun rd rs s hrs => ?mov, fun rd s => ?rdstat⟩
  case nop =>
    exact ⟨s.advance, rfl, s.advance_reg, s.advance_byte, s.advance_pc,
      ⟨rfl, rfl, rfl, rfl, rfl, rfl, rfl, rfl, rfl, rfl, rfl, rfl⟩⟩
  case halt => exact ⟨s.halt, rfl, rfl⟩
  case li => exact gives_writesReg (exec_li imm)
  case lih =>
    rw [← shiftLeft_or_imm]
    exact gives_writesReg (exec_lih hv imm)
  case mov => exact gives_writesReg (exec_mov hrs)
  case rdstat => exact gives_writesReg exec_rdstat

end Sys2Proof.Machine
end

/-! PROOFS. The BitBlock commands (R121 to R134). -/
section

namespace Sys2Proof.Machine

/-! ## Values of blocks -/

theorem Block.xor?_eq_none_iff {a b : Block} : a.xor? b = none ↔ a.width ≠ b.width := by
  cases a <;> cases b <;> simp [Block.xor?, Block.width]

theorem lowHalf_eq_ofNat (v : Block64) : lowHalf v = BitVec.ofNat 32 (v.toNat % 2 ^ 32) := by
  apply BitVec.eq_of_toNat_eq
  simp [lowHalf]

theorem highHalf_eq_ofNat (v : Block64) : highHalf v = BitVec.ofNat 32 (v.toNat / 2 ^ 32) := by
  apply BitVec.eq_of_toNat_eq
  rw [highHalf, BitVec.extractLsb'_toNat, BitVec.toNat_ofNat, Nat.shiftRight_eq_div_pow]

theorem joinHalves_eq_ofNat (h l : Half) : joinHalves h l = BitVec.ofNat 64 (h.toNat * 2 ^ 32 + l.toNat) := by
  apply BitVec.eq_of_toNat_eq
  have := h.isLt
  have := l.isLt
  rw [joinHalves, BitVec.toNat_append, ← Nat.shiftLeft_add_eq_or_of_lt l.isLt, Nat.shiftLeft_eq, BitVec.toNat_ofNat,
    Nat.mod_eq_of_lt (by omega)]

/-- A block loaded from DMEM bit by bit: byte i is the i-th most significant one, and bytes past the region are null. -/
theorem getLsbD_pack64_readBytes (s : State) (a n : Nat) {i k : Nat} (hi : i < 8) (hk : k < 8) :
    (pack64 (s.readBytes a n)).getLsbD ((7 - i) * 8 + k) = if i < n then (s.byte (a + i)).getLsbD k else false := by
  rw [Nat.mul_comm, getLsbD_pack64 _ i k hi hk]
  split
  · rw [State.readBytes_getD _ _ _ _ _ ‹_›]
  · rw [List.getD_eq_default _ _ (by simpa using ‹¬ i < n›)]
    exact BitVec.getLsbD_zero

/-- Storing a region's own bytes back changes no byte. -/
theorem State.storeBytes_readBytes_byte (s : State) (a n b : Nat) :
    (s.storeBytes a (s.readBytes a n)).byte b = s.byte b := by
  by_cases hin : a ≤ b ∧ b < a + n
  · obtain ⟨k, rfl⟩ := Nat.exists_eq_add_of_le hin.1
    rw [State.storeBytes_byte_inside _ _ _ _ (by rw [State.readBytes_length]; omega), State.readBytes_getElem]
  · exact State.storeBytes_byte_outside _ _ _ _ (by rw [State.readBytes_length]; omega)

/-! ## Checks and faults -/

theorem ensure_of_true {holds : Bool} {r : Raise} (h : holds = true) : ensure holds r = .ok () := ensure_eq_ok.2 h

theorem ensure_of_false {holds : Bool} {r : Raise} (h : holds = false) : ensure holds r = .error r :=
  ensure_eq_error.2 ⟨h, rfl⟩

/-- Fault entry, in the terms of Safety (R231, R240). -/
theorem faultEntered_takeFault (s : State) (r : Raise) : FaultEntered s (s.takeFault r) r :=
  ⟨rfl, rfl, rfl, rfl, rfl, rfl, fun _ => rfl, fun _ => rfl, rfl, rfl, rfl, rfl, rfl, rfl, rfl⟩

theorem faultsWith_of_exec {i : Instr} {s : State} {r : Raise} (h : exec i s = .next (s.takeFault r)) :
    FaultsWith i s r :=
  ⟨_, h, faultEntered_takeFault s r⟩

/-! ## What each command does with operands of its tags -/

section
variable {s : State} {rd ra rb ri rs rh rl p : Reg}

theorem exec_pack64 {addr : Scalar} (ha : s.reg rs = .scalar addr) (hb : addr.toNat + 8 ≤ s.cfg.dmemSize) :
    exec (.pack64 rd rs) s = .next (s.setReg rd (.block (.b64 (pack64 (s.readBytes addr.toNat 8))))).advance := by
  show execPack64 rd rs s = _
  rw [execPack64, State.readS_eq_ok.2 ha, Check.ok_bind, State.checkRead_inside hb, Check.ok_bind, complete_ok]

theorem exec_unpack64 {addr : Scalar} {v : Block64} (ha : s.reg ra = .scalar addr) (hv : s.reg rs = .block (.b64 v))
    (hb : addr.toNat + 8 ≤ s.cfg.dmemSize) :
    exec (.unpack64 ra rs) s = .next (s.storeBytes addr.toNat (unpack64 v)).advance := by
  show execUnpack64 ra rs s = _
  rw [execUnpack64, State.readS_eq_ok.2 ha, Check.ok_bind, State.readB64_eq_ok.2 hv, Check.ok_bind,
    State.checkWrite_inside hb, Check.ok_bind, complete_ok]

theorem exec_packz {addr n : Scalar} (ha : s.reg p = .scalar addr) (hn : s.reg (Reg.second p) = .scalar n)
    (hlen : n.toNat ≤ 8) (hb : addr.toNat + n.toNat ≤ s.cfg.dmemSize) :
    exec (.packz rd p) s =
      .next (s.setReg rd (.block (.b64 (pack64 (s.readBytes addr.toNat n.toNat))))).advance := by
  show execPackz rd p s = _
  rw [execPackz, State.readPair_eq_ok.2 ⟨ha, hn⟩, Check.ok_bind]
  dsimp only
  rw [ensure_of_true (decide_eq_true hlen), Check.ok_bind, State.checkRead_inside hb, Check.ok_bind, complete_ok]

/-- BITAT answers the bit or raises BIT_INDEX (R125). -/
theorem exec_bitat {b : Block} {j : Scalar} (hb : s.reg rb = .block b) (hj : s.reg ri = .scalar j) :
    exec (.bitat rd rb ri) s =
      if j.toNat < b.width then .next (s.setReg rd (.scalar (boolScalar (b.value.getLsbD j.toNat)))).advance
      else .next (s.takeFault (.bitIndex j)) := by
  show execBitat rd rb ri s = _
  rw [execBitat, State.readAnyB_eq_ok.2 hb, Check.ok_bind, State.readS_eq_ok.2 hj, Check.ok_bind]
  split
  · rw [ensure_of_true (decide_eq_true ‹_›), Check.ok_bind, complete_ok]
  · rw [ensure_of_false (decide_eq_false ‹_›), Check.error_bind, complete_error]

/-- XOR writes the exclusive-or of two blocks of one width; on two widths the second operand mismatches (R126). -/
theorem exec_xor {a b : Block} (ha : s.reg ra = .block a) (hb : s.reg rb = .block b) :
    exec (.xor rd ra rb) s =
      (a.xor? b).elim (.next (s.takeFault (.tagMismatch rb))) fun c => .next (s.setReg rd (.block c)).advance := by
  show execXor rd ra rb s = _
  rw [execXor, State.readAnyB_eq_ok.2 ha, Check.ok_bind, State.readAnyB_eq_ok.2 hb, Check.ok_bind]
  cases a.xor? b <;> rfl

theorem exec_val {b : Block} (hb : s.reg rs = .block b) :
    exec (.val rd rs) s = .next (s.setReg rd (.scalar b.value)).advance := by
  show execVal rd rs s = _
  rw [execVal, State.readAnyB_eq_ok.2 hb, Check.ok_bind, complete_ok]

theorem exec_halflo {v : Block64} (hv : s.reg rs = .block (.b64 v)) :
    exec (.halflo rd rs) s = .next (s.setReg rd (.block (.b32 (lowHalf v)))).advance := by
  show execHalflo rd rs s = _
  rw [execHalflo, State.readB64_eq_ok.2 hv, Check.ok_bind, complete_ok]

theorem exec_halfhi {v : Block64} (hv : s.reg rs = .block (.b64 v)) :
    exec (.halfhi rd rs) s = .next (s.setReg rd (.block (.b32 (highHalf v)))).advance := by
  show execHalfhi rd rs s = _
  rw [execHalfhi, State.readB64_eq_ok.2 hv, Check.ok_bind, complete_ok]

theorem exec_join {h l : Half} (hh : s.reg rh = .block (.b32 h)) (hl : s.reg rl = .block (.b32 l)) :
    exec (.join rd rh rl) s = .next (s.setReg rd (.block (.b64 (joinHalves h l)))).advance := by
  show execJoin rd rh rl s = _
  rw [execJoin, State.readB32_eq_ok.2 hh, Check.ok_bind, State.readB32_eq_ok.2 hl, Check.ok_bind, complete_ok]

end

/-! ## The statements -/

/-- Settles O28: the loaded blocks by their bits, and the stored bytes are those of unpack64. -/
theorem packAndUnpackCommands : Obligations.PackAndUnpackCommands := by
  refine ⟨fun rd rs s addr ha hb => ?pack64, fun rd p s addr n ha hn hlen hb => ?packz,
    fun ra rs s addr v ha hv hb => ?unpack64⟩
  case pack64 =>
    refine ⟨_, gives_writesReg (exec_pack64 ha hb), fun i k hi hk => ?_⟩
    rw [getLsbD_pack64_readBytes s _ _ hi hk, if_pos hi]
  case packz =>
    exact ⟨_, gives_writesReg (exec_packz ha hn hlen hb), fun i k => getLsbD_pack64_readBytes s _ _⟩
  case unpack64 =>
    refine ⟨unpack64 v, unpack64_length v, fun i hi => ?_, _, exec_unpack64 ha hv hb, stores_advance s _ _⟩
    rw [Nat.mul_comm, unpack64_getD v i hi]

/-- Settles O33: unpack64 gives back the very bytes PACK64 read, and PACK64 reads back the bytes UNPACK64 stored. -/
theorem packUnpackLaws : Obligations.PackUnpackLaws := by
  refine ⟨fun b => unpack64_pack64, fun rd rs s addr hne ha hb => ?packFirst,
    fun ra rs rd s addr v ha hv hb => ?unpackFirst⟩
  case packFirst =>
    refine ⟨_, _, exec_pack64 ha hb, exec_unpack64 ?_ (State.setReg_reg_same s rd _) hb, fun a => ?_⟩
    · exact (State.setReg_reg_other s rs rd _ hne.symm).trans ha
    · rw [unpack64_pack64 (State.readBytes_length s _ _)]
      exact State.storeBytes_readBytes_byte s addr.toNat 8 a
  case unpackFirst =>
    refine ⟨_, _, exec_unpack64 ha hv hb, exec_pack64 ha hb, (State.setReg_reg_same _ rd _).trans ?_⟩
    have hread : (s.storeBytes addr.toNat (unpack64 v)).advance.readBytes addr.toNat 8 = unpack64 v :=
      State.readBytes_storeBytes s addr.toNat (unpack64 v)
    rw [hread, pack64_unpack64]

/-- Settles O29, by the two sides of the bound BITAT checks. -/
theorem bitatCommand : Obligations.BitatCommand := by
  intro rd rb ri s b j hb hj
  have hexec := exec_bitat (rd := rd) hb hj
  refine ⟨fun hlt => gives_writesReg ?_, fun hge => faultsWith_of_exec ?_⟩
  · rw [hexec, if_pos hlt, boolScalar]
  · rw [hexec, if_neg (Nat.not_lt.2 hge)]

/-- Settles O30: xor? has a value at each of the three widths and none on two widths. -/
theorem xorCommand : Obligations.XorCommand := by
  refine ⟨fun rd ra rb s a b ha hb => ?b32, fun rd ra rb s a b ha hb => ?b48, fun rd ra rb s a b ha hb => ?b64,
    fun rd ra rb s a b ha hb hw => ?widths⟩
  case b32 | b48 | b64 => exact gives_writesReg (exec_xor ha hb)
  case widths =>
    refine faultsWith_of_exec ?_
    rw [exec_xor ha hb, Block.xor?_eq_none_iff.2 hw, Option.elim_none]

/-- Settles O31: a change of width keeps the value of a scalar that fits, and of every block. -/
theorem conversionCommands : Obligations.ConversionCommands := by
  simp only [Obligations.ConversionCommands, BitVec.ofNat_toNat]
  refine ⟨fun rd rs s v hs hv => ?blk32, fun rd rs s v hs hv => ?blk48, fun rd rs s v hs => ?blk64,
    fun rd rs s v hs => ?val32, fun rd rs s v hs => ?val48, fun rd rs s v hs => ?val64⟩
  case blk32 => exact gives_writesReg (exec_blk32 hs hv)
  case blk48 => exact gives_writesReg (exec_blk48 hs hv)
  case blk64 => exact gives_writesReg (exec_blk64 hs)
  case val32 | val48 | val64 => exact gives_writesReg (exec_val hs)

/-- Settles O32, from the values of the halves and of a join. -/
theorem halvesAndJoin : Obligations.HalvesAndJoin := by
  simp only [Obligations.HalvesAndJoin, ← lowHalf_eq_ofNat, ← highHalf_eq_ofNat, ← joinHalves_eq_ofNat]
  refine ⟨fun rd rs s v hv => ?halflo, fun rd rs s v hv => ?halfhi, fun rd rh rl s h l hh hl => ?join,
    joinHalves_halves⟩
  case halflo => exact gives_writesReg (exec_halflo hv)
  case halfhi => exact gives_writesReg (exec_halfhi hv)
  case join => exact gives_writesReg (exec_join hh hl)

end Sys2Proof.Machine
end

/-! PROOFS. The Feistel unit (R150 to R175): the key schedule, the round function, encode and decode, the multi-block
operation, and the commands. -/
section

namespace Sys2Proof.Machine

/-! ## The key schedule (R152, R153) -/

@[simp] theorem generateSubkeys_getElem (k : Block64) (i : Fin 16) : (generateSubkeys k)[i] = subkey k i.val :=
  Vector.getElem_ofFn i.isLt

/-- Bit j of subkey i is key bit i + j (R152). -/
theorem getLsbD_subkey (k : Block64) (i : Nat) {j : Nat} (hj : j < 48) :
    (subkey k i).getLsbD j = k.getLsbD (i + j) := by
  rw [subkey, BitVec.getLsbD_extractLsb', decide_eq_true hj, Bool.true_and, BitVec.getLsbD_ushiftRight, Nat.zero_add]

theorem getLsbD_generateSubkeys (k : Block64) (i : Fin 16) {j : Nat} (hj : j < 48) :
    ((generateSubkeys k)[i]).getLsbD j = k.getLsbD (i.val + j) := by
  rw [generateSubkeys_getElem, getLsbD_subkey k i.val hj]

/-- Two keys have one schedule exactly when they agree on bits 0 to 62. -/
theorem generateSubkeys_eq_iff {k l : Block64} :
    generateSubkeys k = generateSubkeys l ↔ ∀ b, b < 63 → k.getLsbD b = l.getLsbD b := by
  constructor
  · intro h b hb
    have hj : b - min b 15 < 48 := by omega
    have hsum : min b 15 + (b - min b 15) = b := by omega
    rw [← hsum, ← getLsbD_generateSubkeys k ⟨min b 15, by omega⟩ hj, h, getLsbD_generateSubkeys l _ hj]
  · intro h
    refine Vector.ext fun i hi => BitVec.eq_of_getLsbD_eq fun j hj => ?_
    have hkl := h (i + j) (by omega)
    exact (getLsbD_generateSubkeys k ⟨i, hi⟩ hj).trans (hkl.trans (getLsbD_generateSubkeys l ⟨i, hi⟩ hj).symm)

theorem getLsbD_xor_twoPow (k : Block64) (a : Nat) {b : Nat} (hb : b < 64) :
    (k ^^^ BitVec.twoPow 64 a).getLsbD b = (k.getLsbD b ^^ decide (b = a)) := by
  simp [hb]

/-- A rotation brings no bit of the other end into the low 48 bits (R153). -/
theorem rotateRight_eq_subkey (k : Block64) {i : Nat} (hi : i < 16) :
    (k.rotateRight i).extractLsb' 0 48 = subkey k i := by
  refine BitVec.eq_of_getLsbD_eq fun j hj => ?_
  have hmod : i % 64 = i := Nat.mod_eq_of_lt (by omega)
  rw [getLsbD_subkey k i hj, BitVec.getLsbD_extractLsb', decide_eq_true hj, Bool.true_and,
    BitVec.getLsbD_rotateRight, hmod, Nat.zero_add, decide_eq_true (by omega), cond_true]

/-! ## The round function (R156 to R164) -/

theorem getLsbD_expand (c : Config) (r : Half) (i : Fin 48) :
    (expand c r).getLsbD i.val = r.getLsbD (32 - c.eEntry i) := by
  rw [expand, getLsbD_bitsOf, dif_pos i.isLt]

theorem getLsbD_permuteP (c : Config) (x : Half) (i : Fin 32) :
    (permuteP c x).getLsbD i.val = x.getLsbD (32 - c.pEntry i) := by
  rw [permuteP, getLsbD_bitsOf, dif_pos i.isLt]

theorem getLsbD_substitute (c : Config) (x : Subkey) {i j : Nat} (hi : i < 8) (hj : j < 4) :
    (substitute c x).getLsbD (4 * i + j) = (c.sboxEntry (sboxRow x i) (sboxCol x i)).getLsbD (3 - j) := by
  have hgroup : (4 * i + j) / 4 = i := by omega
  have hbit : (4 * i + j) % 4 = j := by omega
  rw [substitute, getLsbD_bitsOf, dif_pos (by omega)]
  dsimp only
  rw [hgroup, hbit]

/-! ## Encode and decode (R166 to R168) -/

/-- The halves (L, R) of a block. -/
def halvesOf (v : Block64) : Half × Half := (highHalf v, lowHalf v)

/-- The block with R high and L low, as the last round leaves them (R166, R176). -/
def joinExchanged (h : Half × Half) : Block64 := joinHalves h.2 h.1

theorem feistel_eq (c : Config) (keys : List Subkey) (v : Block64) :
    feistel c keys v = joinExchanged (keys.foldl (feistelRound c) (halvesOf v)) := rfl

theorem halvesOf_joinExchanged (h : Half × Half) : halvesOf (joinExchanged h) = h.swap := by
  rw [halvesOf, joinExchanged, highHalf_joinHalves, lowHalf_joinHalves, Prod.swap]

theorem joinExchanged_swap_halvesOf (v : Block64) : joinExchanged (halvesOf v).swap = v := joinHalves_halves v

/-- The halves after the first `n` rounds. -/
def halvesAfter (c : Config) (keys : List Subkey) (v : Block64) (n : Nat) : Half × Half :=
  (keys.take n).foldl (feistelRound c) (halvesOf v)

theorem halvesAfter_succ (c : Config) (keys : List Subkey) (v : Block64) {n : Nat} (h : n < keys.length) :
    halvesAfter c keys v (n + 1) = feistelRound c (halvesAfter c keys v n) keys[n] := by
  rw [halvesAfter, List.take_succ_eq_append_getElem h, List.foldl_append]
  rfl

theorem halvesAfter_length (c : Config) (keys : List Subkey) (v : Block64) :
    joinExchanged (halvesAfter c keys v keys.length) = feistel c keys v := by
  rw [halvesAfter, List.take_length, feistel_eq]

/-- R167: the reverse order counts the subkeys from 15 down. -/
theorem toList_reverse_getElem (sk : Vector Subkey 16) (r : Fin 16) :
    sk.toList.reverse[r.val]'(by simp) = sk[15 - r] := by
  have hval : (15 - r).val = 15 - r.val := Fin.sub_val_of_le (Nat.le_of_lt_succ r.isLt)
  have hlast : sk.toList.length - 1 - r.val = 15 - r.val := by rw [sk.length_toList]
  simp only [List.getElem_reverse, hlast, Vector.getElem_toList, Fin.getElem_fin, hval]

/-- R166: the recurrences of L and R over any 16 subkeys, and the block they end in. -/
theorem exists_rounds (c : Config) {keys : List Subkey} {key : Fin 16 → Subkey} (v : Block64) (hlen : keys.length = 16)
    (hkey : ∀ r : Fin 16, keys[r.val]'(r.isLt.trans_eq hlen.symm) = key r) :
    ∃ L R : Nat → Half, L 0 = v.extractLsb' 32 32 ∧ R 0 = v.extractLsb' 0 32 ∧
      (∀ r : Fin 16, L (r.val + 1) = R r.val ∧ R (r.val + 1) = L r.val ^^^ roundFunction c (R r.val) (key r)) ∧
      feistel c keys v = BitVec.ofNat 64 ((R 16).toNat * 2 ^ 32 + (L 16).toNat) := by
  refine ⟨fun r => (halvesAfter c keys v r).1, fun r => (halvesAfter c keys v r).2, rfl, rfl, fun r => ?_, ?_⟩
  · have hround := halvesAfter_succ c keys v (r.isLt.trans_eq hlen.symm)
    rw [hkey r] at hround
    exact ⟨congrArg Prod.fst hround, congrArg Prod.snd hround⟩
  · rw [← halvesAfter_length, joinExchanged, joinHalves_eq_ofNat, hlen]

/-- A round undoes itself on exchanged halves, whatever its function is. -/
theorem feistelRound_swap_feistelRound (c : Config) (h : Half × Half) (k : Subkey) :
    feistelRound c (feistelRound c h k).swap k = h.swap := by
  simp only [feistelRound, Prod.swap, BitVec.xor_assoc, BitVec.xor_self, BitVec.xor_zero]

/-- So the rounds in reverse order undo the rounds, on exchanged halves. -/
theorem foldl_reverse_swap_foldl (c : Config) (keys : List Subkey) (h : Half × Half) :
    keys.reverse.foldl (feistelRound c) (keys.foldl (feistelRound c) h).swap = h.swap := by
  induction keys generalizing h with
  | nil => rfl
  | cons k keys ih =>
    simp only [List.reverse_cons, List.foldl_append, List.foldl_cons, List.foldl_nil, ih,
      feistelRound_swap_feistelRound]

/-- R168 for any list of subkeys: the output halves are written exchanged, which is what the reverse rounds need. -/
theorem feistel_reverse_feistel (c : Config) (keys : List Subkey) (v : Block64) :
    feistel c keys.reverse (feistel c keys v) = v := by
  rw [feistel_eq, feistel_eq, halvesOf_joinExchanged, foldl_reverse_swap_foldl, joinExchanged_swap_halvesOf]

theorem decodeBlock_encodeBlock (c : Config) (sk : Vector Subkey 16) (p : Block64) :
    decodeBlock c sk (encodeBlock c sk p) = p :=
  feistel_reverse_feistel c sk.toList p

theorem encodeBlock_decodeBlock (c : Config) (sk : Vector Subkey 16) (p : Block64) :
    encodeBlock c sk (decodeBlock c sk p) = p := by
  have h := feistel_reverse_feistel c sk.toList.reverse p
  rwa [List.reverse_reverse] at h

/-- A list of equal subkeys is its own reverse (R153). -/
theorem encodeBlock_eq_decodeBlock (c : Config) {sk : Vector Subkey 16} (v : Block64)
    (h : ∀ i j : Fin 16, sk[i] = sk[j]) : encodeBlock c sk v = decodeBlock c sk v := by
  have hall : sk.toList = List.replicate 16 sk[0] := by
    refine List.eq_replicate_iff.2 ⟨sk.length_toList, fun k hk => ?_⟩
    obtain ⟨i, hi, rfl⟩ := Vector.mem_iff_getElem.1 (Vector.mem_toList_iff.1 hk)
    exact h ⟨i, hi⟩ 0
  rw [encodeBlock, decodeBlock, hall, List.reverse_replicate]

/-! ## The multi-block operation (R171) -/

/-- Only the first 8 bytes count. -/
theorem pack64_congr {a b : List Byte} (h : ∀ i, i < 8 → a.getD i 0 = b.getD i 0) : pack64 a = pack64 b := by
  simp only [pack64, h, Nat.reduceLT]

theorem getD_take_drop_eight {l : List Byte} (a : Nat) {i : Nat} (hi : i < 8) :
    ((l.drop a).take 8).getD i 0 = l.getD (a + i) 0 := by
  simp only [List.getD_eq_getElem?_getD, List.getElem?_take_of_lt hi, List.getElem?_drop]

theorem State.readBytes_getD_null (s : State) (a n i : Nat) :
    (s.readBytes a n).getD i 0 = if i < n then s.byte (a + i) else 0 := by
  split
  · exact s.readBytes_getD a n i 0 ‹_›
  · exact List.getD_eq_default _ _ (by simpa using ‹¬ i < n›)

@[simp] theorem State.advance_readBytes (s : State) (a n : Nat) : s.advance.readBytes a n = s.readBytes a n := rfl

section
variable {buf : List Byte} {j : Nat}

/-- Block j of a buffer: bytes past the end read as null. -/
theorem blocksOf_getElem (h : j < (blocksOf buf).length) :
    (blocksOf buf)[j] = pack64 ((List.range 8).map fun k => buf.getD (8 * j + k) 0) := by
  have hblock : (blocksOf buf)[j] = pack64 ((buf.drop (8 * j)).take 8) := by simp [blocksOf]
  rw [hblock]
  refine pack64_congr fun i hi => ?_
  rw [getD_take_drop_eight _ hi]
  simp [hi]

/-- Where every element gives 8 bytes, element j gives the j-th 8. -/
theorem take_drop_flatMap_unpack64 (f : Block64 → Block64) {vs : List Block64} (h : j < vs.length) :
    ((vs.flatMap fun v => unpack64 (f v)).drop (8 * j)).take 8 = unpack64 (f vs[j]) := by
  induction vs generalizing j with
  | nil => exact absurd h (Nat.not_lt_zero j)
  | cons v vs ih =>
    cases j with
    | zero => exact List.take_left' (unpack64_length (f v))
    | succ j =>
      have hskip : 8 * (j + 1) = (unpack64 (f v)).length + 8 * j := by
        rw [unpack64_length]
        omega
      rw [List.flatMap_cons, hskip, List.drop_length_add_append]
      exact ih (Nat.lt_of_succ_lt_succ h)

/-- The j-th 8 bytes of the output are the j-th block coded. -/
theorem take_drop_codeBuffer (f : Block64 → Block64) (h : j < (blocksOf buf).length) :
    ((codeBuffer f buf).drop (8 * j)).take 8 = unpack64 (f (blocksOf buf)[j]) :=
  take_drop_flatMap_unpack64 f h

theorem codeBuffer_getD (f : Block64 → Block64) (h : j < (blocksOf buf).length) {i : Nat} (hi : i < 8) :
    (codeBuffer f buf).getD (8 * j + i) 0 = (unpack64 (f (blocksOf buf)[j])).getD i 0 := by
  rw [← take_drop_codeBuffer f h, getD_take_drop_eight _ hi]

/-- The output is whole blocks, so it is cut where it was put together. -/
theorem blocksOf_codeBuffer (f : Block64 → Block64) (buf : List Byte) :
    blocksOf (codeBuffer f buf) = (blocksOf buf).map f := by
  refine List.ext_getElem ?_ fun j hj hmap => ?_
  · rw [blocksOf_length, codeBuffer_length, List.length_map, blocksOf_length, blockCount, Nat.mul_add_div (by decide)]
    rfl
  · have hblock : j < (blocksOf buf).length := by rwa [List.length_map] at hmap
    rw [List.getElem_map, blocksOf_getElem, ← pack64_unpack64 (f (blocksOf buf)[j])]
    refine pack64_congr fun i hi => ?_
    rw [← codeBuffer_getD f hblock hi]
    simp [hi]

theorem codeBuffer_codeBuffer (f g : Block64 → Block64) (buf : List Byte) :
    codeBuffer g (codeBuffer f buf) = codeBuffer (g ∘ f) buf := by
  rw [codeBuffer, blocksOf_codeBuffer, List.flatMap_map]
  rfl

/-- Blocks left as they are give the buffer back, followed by its null padding. -/
theorem codeBuffer_id_getD {k : Nat} (h : k < 8 * blockCount buf.length) :
    (codeBuffer id buf).getD k 0 = buf.getD k 0 := by
  have hi : k % 8 < 8 := Nat.mod_lt k (by decide)
  have hj : k / 8 < (blocksOf buf).length := by
    rw [blocksOf_length]
    omega
  rw [← Nat.div_add_mod k 8, codeBuffer_getD id hj hi, id, blocksOf_getElem hj, unpack64_pack64_getD _ hi]
  simp [hi]

/-- R174: a buffer encoded, then decoded, is the buffer followed by its null padding. -/
theorem codeBuffer_decode_encode_getD (c : Config) (sk : Vector Subkey 16) {k : Nat}
    (h : k < 8 * blockCount buf.length) :
    (codeBuffer (decodeBlock c sk) (codeBuffer (encodeBlock c sk) buf)).getD k 0 = buf.getD k 0 := by
  have hid : decodeBlock c sk ∘ encodeBlock c sk = id := funext (decodeBlock_encodeBlock c sk)
  rw [codeBuffer_codeBuffer, hid, codeBuffer_id_getD h]

end

/-! ## What each command does with operands of its tags -/

section
variable {s : State} {rd rs rr rk ra p : Reg}

theorem exec_setkey {k : Block64} (hs : s.keyed = false) (hk : s.reg rs = .block (.b64 k)) :
    exec (.setkey rs) s = .next (s.bindKey k (generateSubkeys k)).advance := by
  show execSetkey rs s = _
  rw [execSetkey, hs, ensure_of_true (Bool.not_false), Check.ok_bind, State.readB64_eq_ok.2 hk, Check.ok_bind,
    complete_ok]

theorem exec_getsk (hs : s.keyed = true) (k : Fin 16) :
    exec (.getsk rd k) s = .next (s.setReg rd (.block (.b48 s.sk[k]))).advance := by
  show execGetsk rd k s = _
  rw [execGetsk, State.requireKeyed_keyed hs, Check.ok_bind, complete_ok]

theorem exec_ip {v : Block64} (hv : s.reg rs = .block (.b64 v)) :
    exec (.ip rd rs) s = .next (s.setReg rd (.block (.b64 v))).advance := by
  show execIp rd rs s = _
  rw [execIp, State.readB64_eq_ok.2 hv, Check.ok_bind, complete_ok, initialPermutation]

theorem exec_fp {v : Block64} (hv : s.reg rs = .block (.b64 v)) :
    exec (.fp rd rs) s = .next (s.setReg rd (.block (.b64 v))).advance := by
  show execFp rd rs s = _
  rw [execFp, State.readB64_eq_ok.2 hv, Check.ok_bind, complete_ok, finalPermutation]

theorem exec_expand {r : Half} (hr : s.reg rs = .block (.b32 r)) :
    exec (.expand rd rs) s = .next (s.setReg rd (.block (.b48 (expand s.cfg r)))).advance := by
  show execExpand rd rs s = _
  rw [execExpand, State.readB32_eq_ok.2 hr, Check.ok_bind, complete_ok]

theorem exec_subst {x : Subkey} (hx : s.reg rs = .block (.b48 x)) :
    exec (.subst rd rs) s = .next (s.setReg rd (.block (.b32 (substitute s.cfg x)))).advance := by
  show execSubst rd rs s = _
  rw [execSubst, State.readB48_eq_ok.2 hx, Check.ok_bind, complete_ok]

theorem exec_permp {x : Half} (hx : s.reg rs = .block (.b32 x)) :
    exec (.permp rd rs) s = .next (s.setReg rd (.block (.b32 (permuteP s.cfg x)))).advance := by
  show execPermp rd rs s = _
  rw [execPermp, State.readB32_eq_ok.2 hx, Check.ok_bind, complete_ok]

theorem exec_roundf {r : Half} {k : Subkey} (hr : s.reg rr = .block (.b32 r)) (hk : s.reg rk = .block (.b48 k)) :
    exec (.roundf rd rr rk) s = .next (s.setReg rd (.block (.b32 (roundFunction s.cfg r k)))).advance := by
  show execRoundf rd rr rk s = _
  rw [execRoundf, State.readB32_eq_ok.2 hr, Check.ok_bind, State.readB48_eq_ok.2 hk, Check.ok_bind, complete_ok]

theorem exec_enc {v : Block64} (hs : s.keyed = true) (hv : s.reg rs = .block (.b64 v)) :
    exec (.enc rd rs) s = .next (s.setReg rd (.block (.b64 (encodeBlock s.cfg s.sk v)))).advance := by
  show execEnc rd rs s = _
  rw [execEnc, State.requireKeyed_keyed hs, Check.ok_bind, State.readB64_eq_ok.2 hv, Check.ok_bind, complete_ok]

theorem exec_dec {v : Block64} (hs : s.keyed = true) (hv : s.reg rs = .block (.b64 v)) :
    exec (.dec rd rs) s = .next (s.setReg rd (.block (.b64 (decodeBlock s.cfg s.sk v)))).advance := by
  show execDec rd rs s = _
  rw [execDec, State.requireKeyed_keyed hs, Check.ok_bind, State.readB64_eq_ok.2 hv, Check.ok_bind, complete_ok]

/-- The operands of ENCBUF and DECBUF hold an output address and an input region, both in bounds (R173, R174). -/
structure BufferOperands (s : State) (ra p : Reg) (dst src n : Scalar) : Prop where
  keyed : s.keyed = true
  dstReg : s.reg ra = .scalar dst
  srcReg : s.reg p = .scalar src
  lenReg : s.reg (Reg.second p) = .scalar n
  read : src.toNat + n.toNat ≤ s.cfg.dmemSize
  write : dst.toNat + 8 * blockCount n.toNat ≤ s.cfg.dmemSize

theorem bufferCommand_of_operands {dst src n : Scalar} (h : BufferOperands s ra p dst src n)
    (f : Block64 → Block64) :
    bufferCommand f ra p s = .ok (s.storeBytes dst.toNat (codeBuffer f (s.readBytes src.toNat n.toNat))) :=
  bufferCommand_eq_ok.2 ⟨h.keyed, dst, src, n, State.readS_eq_ok.2 h.dstReg,
    State.readPair_eq_ok.2 ⟨h.srcReg, h.lenReg⟩, h.read, h.write, rfl⟩

theorem exec_encbuf {dst src n : Scalar} (h : BufferOperands s ra p dst src n) :
    exec (.encbuf ra p) s =
      .next (s.storeBytes dst.toNat
        (codeBuffer (encodeBlock s.cfg s.sk) (s.readBytes src.toNat n.toNat))).advance := by
  show execEncbuf ra p s = _
  rw [execEncbuf, bufferCommand_of_operands h, complete_ok]

theorem exec_decbuf {dst src n : Scalar} (h : BufferOperands s ra p dst src n) :
    exec (.decbuf ra p) s =
      .next (s.storeBytes dst.toNat
        (codeBuffer (decodeBlock s.cfg s.sk) (s.readBytes src.toNat n.toNat))).advance := by
  show execDecbuf ra p s = _
  rw [execDecbuf, bufferCommand_of_operands h, complete_ok]

/-- What any code writes for a buffer, block by block. -/
theorem codeBuffer_readBytes (f : Block64 → Block64) (s : State) (a n : Nat) :
    (codeBuffer f (s.readBytes a n)).length = 8 * blockCount n ∧
      ∀ j, j < blockCount n → ((codeBuffer f (s.readBytes a n)).drop (8 * j)).take 8 =
        unpack64 (f (pack64 ((List.range 8).map fun k =>
          if 8 * j + k < n then s.byte (a + (8 * j + k)) else 0))) := by
  refine ⟨by rw [codeBuffer_length, State.readBytes_length], fun j hj => ?_⟩
  have hblock : j < (blocksOf (s.readBytes a n)).length := by rwa [blocksOf_length, State.readBytes_length]
  rw [take_drop_codeBuffer f hblock, blocksOf_getElem hblock]
  simp only [State.readBytes_getD_null]

end

/-! ## Faults (R175, R238) -/

section
variable {s : State} {r : Raise} {ra p : Reg}

theorem Check.bind_error_first {α β : Type} {c : Check α} (h : c = .error r) (f : α → Check β) :
    (c >>= f) = .error r :=
  Check.bind_eq_error.2 (.inl h)

theorem Check.bind_error_later {α β : Type} {c : Check α} {f : α → Check β} {a : α} (h : c = .ok a)
    (hf : f a = .error r) : (c >>= f) = .error r :=
  Check.bind_eq_error.2 (.inr ⟨a, h, hf⟩)

/-- A command that ends with `complete` enters the fault of the first check that fails. -/
theorem faultsWith_of_check {i : Instr} {c : Check State} (hi : exec i s = complete s c) (h : c = .error r) :
    FaultsWith i s r := by
  refine faultsWith_of_exec ?_
  rw [hi, h, complete_error]

/-- The faults of ENCBUF and DECBUF, in the order of their checks (R173, R174, R238). -/
theorem bufferCommand_eq_error {f : Block64 → Block64} :
    bufferCommand f ra p s = .error r ↔
      (s.keyed = false ∧ r = .notKeyed) ∨ s.keyed = true ∧ (s.readS ra = .error r ∨ ∃ dst, s.readS ra = .ok dst ∧
        (s.readPair p = .error r ∨ ∃ src n, s.readPair p = .ok (src, n) ∧
          ((s.cfg.dmemSize < src.toNat + n.toNat ∧ r = .memRead src) ∨ src.toNat + n.toNat ≤ s.cfg.dmemSize ∧
            s.cfg.dmemSize < dst.toNat + 8 * blockCount n.toNat ∧ r = .memWrite dst))) := by
  simp [bufferCommand, Check.bind_eq_error, State.requireKeyed_eq_ok, State.requireKeyed_eq_error,
    State.checkRead_eq_ok, State.checkRead_eq_error, State.checkWrite_eq_error]

/-- ENCBUF and DECBUF have the same faults, since no check depends on the code. -/
theorem buffer_faultsWith (h : ∀ f, bufferCommand f ra p s = .error r) :
    FaultsWith (.encbuf ra p) s r ∧ FaultsWith (.decbuf ra p) s r :=
  ⟨faultsWith_of_check rfl (h _), faultsWith_of_check rfl (h _)⟩

end

/-! ## The statements -/

/-- Settles O35: the schedule by its bits; SETKEY writes nothing but the key state. -/
theorem setkeyBindsSchedule : Obligations.SetkeyBindsSchedule := by
  intro rs s k hs hk
  exact ⟨_, exec_setkey hs hk, rfl, rfl, fun i j => getLsbD_generateSubkeys k i, fun _ => rfl, fun _ => rfl, rfl, rfl,
    rfl, rfl, rfl, rfl, rfl, rfl, rfl, rfl⟩

/-- Settles O36: under the invariant the subkeys are the schedule of the key. -/
theorem getskAndIdentityPermutations : Obligations.GetskAndIdentityPermutations := by
  refine ⟨fun rd k s hs => ?getsk, fun s hinv hs k j hj => ?schedule, fun rd rs s v hv => ?ip, fun rd rs s v hv => ?fp⟩
  case getsk => exact gives_writesReg (exec_getsk hs k)
  case schedule => rw [hinv.subkeys hs, getLsbD_generateSubkeys s.key k hj]
  case ip => exact gives_writesReg (exec_ip hv)
  case fp => exact gives_writesReg (exec_fp hv)

/-- Settles O37, from the bits of the two table functions. -/
theorem tableCommands : Obligations.TableCommands :=
  ⟨fun _ _ s r hr => ⟨expand s.cfg r, getLsbD_expand s.cfg r, gives_writesReg (exec_expand hr)⟩,
    fun _ _ s x hx => ⟨permuteP s.cfg x, getLsbD_permuteP s.cfg x, gives_writesReg (exec_permp hx)⟩⟩

/-- Settles O38, from the bits of the substitution. -/
theorem substCommand : Obligations.SubstCommand :=
  fun _ _ s x hx => ⟨substitute s.cfg x, fun _ _ hi hj => getLsbD_substitute s.cfg x hi hj,
    gives_writesReg (exec_subst hx)⟩

/-- Settles O39: the round function is that composition. -/
theorem roundfCommand : Obligations.RoundfCommand :=
  fun _ _ _ _ _ _ hr hk => gives_writesReg (exec_roundf hr hk)

/-- Settles O40: the recurrences over the subkeys, and over their reverse. -/
theorem encDecRounds : Obligations.EncDecRounds := by
  intro rd rs s v hs hv
  constructor
  · obtain ⟨L, R, hL, hR, hrounds, hout⟩ := exists_rounds s.cfg (key := fun r => s.sk[r]) v s.sk.length_toList
      fun r => Vector.getElem_toList _
    refine ⟨L, R, hL, hR, hrounds, ?_⟩
    rw [← hout]
    exact gives_writesReg (exec_enc hs hv)
  · obtain ⟨L, R, hL, hR, hrounds, hout⟩ := exists_rounds s.cfg (keys := s.sk.toList.reverse)
      (key := fun r => s.sk[15 - r]) v (by rw [List.length_reverse, s.sk.length_toList]) (toList_reverse_getElem s.sk)
    refine ⟨L, R, hL, hR, hrounds, ?_⟩
    rw [← hout]
    exact gives_writesReg (exec_dec hs hv)

/-- Settles O41: the second command reads the block that the first wrote, in the same key state. -/
theorem decodeInvertsEncode : Obligations.DecodeInvertsEncode := by
  refine ⟨fun c sk p => ⟨decodeBlock_encodeBlock c sk p, encodeBlock_decodeBlock c sk p⟩,
    fun rd rs rx s p hs hp => ⟨?decAfterEnc, ?encAfterDec⟩⟩
  case decAfterEnc =>
    refine ⟨_, _, exec_enc hs hp, exec_dec hs (State.setReg_reg_same s rd _), ?_⟩
    refine (State.setReg_reg_same _ rx _).trans ?_
    exact congrArg (Cell.block <| Block.b64 ·) (decodeBlock_encodeBlock s.cfg s.sk p)
  case encAfterDec =>
    refine ⟨_, _, exec_dec hs hp, exec_enc hs (State.setReg_reg_same s rd _), ?_⟩
    refine (State.setReg_reg_same _ rx _).trans ?_
    exact congrArg (Cell.block <| Block.b64 ·) (encodeBlock_decodeBlock s.cfg s.sk p)

/-- Settles O42, from the blocks of the buffer read. -/
theorem bufferCommands : Obligations.BufferCommands := by
  intro ra p s dst src n hs hdst hsrc hn hread hwrite block
  have hops : BufferOperands s ra p dst src n := ⟨hs, hdst, hsrc, hn, hread, hwrite⟩
  constructor
  · obtain ⟨hlen, hblocks⟩ := codeBuffer_readBytes (encodeBlock s.cfg s.sk) s src.toNat n.toNat
    exact ⟨_, hlen, hblocks, _, exec_encbuf hops, stores_advance s _ _⟩
  · obtain ⟨hlen, hblocks⟩ := codeBuffer_readBytes (decodeBlock s.cfg s.sk) s src.toNat n.toNat
    exact ⟨_, hlen, hblocks, _, exec_decbuf hops, stores_advance s _ _⟩

/-- Settles O43: DECBUF reads the very bytes ENCBUF stored, and its blocks are those of the buffer. -/
theorem decbufInvertsEncbuf : Obligations.DecbufInvertsEncbuf := by
  intro ra p rx q s dst src n out m hs hdst hsrc hn hout hq hm hlen hread hwrite hwriteOut
  have hcount : blockCount m.toNat = blockCount n.toNat := by
    rw [hlen, blockCount, blockCount]
    omega
  have hstored : (codeBuffer (encodeBlock s.cfg s.sk) (s.readBytes src.toNat n.toNat)).length = m.toNat := by
    rw [codeBuffer_length, State.readBytes_length, hlen, blockCount]
  have hroom : out.toNat + 8 * blockCount m.toNat ≤ s.cfg.dmemSize := by rwa [hcount, blockCount, ← hlen]
  refine ⟨_, _, exec_encbuf ⟨hs, hdst, hsrc, hn, hread, hlen ▸ hwrite⟩,
    exec_decbuf ⟨hs, hout, hq, hm, hwrite, hroom⟩, fun k hk => ?_⟩
  have hinside : k < 8 * blockCount n.toNat := by rwa [blockCount, ← hlen]
  rw [(stores_advance _ _ _).stored k (by rwa [codeBuffer_length, State.readBytes_length, hcount]), ← hstored,
    State.advance_readBytes, State.readBytes_storeBytes]
  refine (codeBuffer_decode_encode_getD s.cfg s.sk (by rwa [State.readBytes_length])).trans ?_
  exact s.readBytes_getD_null src.toNat n.toNat k

/-- Settles O44: two keys have one schedule exactly when they agree on bits 0 to 62. -/
theorem keyScheduleConsequences : Obligations.KeyScheduleConsequences := by
  refine ⟨fun k i => rotateRight_eq_subkey k, fun k => ?bit63, fun k b hb heq => ?below63,
    fun c sk v => encodeBlock_eq_decodeBlock c v, fun i => ?keys⟩
  case bit63 =>
    refine generateSubkeys_eq_iff.2 fun b hb => ?_
    have h63 : (0x8000000000000000 : Block64) = BitVec.twoPow 64 63 := rfl
    rw [h63, getLsbD_xor_twoPow k 63 (by omega), decide_eq_false (by omega), Bool.xor_false]
  case below63 =>
    have hbit := generateSubkeys_eq_iff.1 heq b hb
    simp [getLsbD_xor_twoPow k b (show b < 64 by omega)] at hbit
  case keys =>
    simp only [generateSubkeys_getElem]
    revert i
    decide

/-- Settles O45, by the first check of each command that fails. -/
theorem feistelFaults : Obligations.FeistelFaults := by
  intro s
  refine ⟨fun hs rs => ?alreadyKeyed, fun rs r hs h => ?setkey, fun hs rd rs ra p k => ?notKeyed,
    fun rd rs r h => ⟨?ip, ?fp⟩, fun rd rs r h => ⟨?expand, ?permp⟩, fun rd rs r h => ?subst,
    fun rd rr rk r h => ?roundfHalf, fun rd rr rk x r hx h => ?roundfKey, fun rd rs r hs h => ⟨?enc, ?dec⟩,
    fun ra p r hs h => ?bufferDst, fun ra p dst r hs hd h => ?bufferPair,
    fun ra p dst src n hs hd hp h => ?bufferRead, fun ra p dst src n hs hd hp hr h => ?bufferWrite⟩
  case alreadyKeyed =>
    exact faultsWith_of_check rfl (Check.bind_error_first (ensure_of_false (by rw [hs, Bool.not_true])) _)
  case setkey =>
    exact faultsWith_of_check rfl
      (Check.bind_error_later (ensure_of_true (by rw [hs, Bool.not_false])) (Check.bind_error_first h _))
  case notKeyed =>
    have hkey : s.requireKeyed = .error .notKeyed := State.requireKeyed_unkeyed hs
    exact ⟨faultsWith_of_check rfl (Check.bind_error_first hkey _),
      faultsWith_of_check rfl (Check.bind_error_first hkey _), faultsWith_of_check rfl (Check.bind_error_first hkey _),
      buffer_faultsWith fun f => bufferCommand_eq_error.2 (.inl ⟨hs, rfl⟩)⟩
  case ip | fp | expand | permp | subst | roundfHalf => exact faultsWith_of_check rfl (Check.bind_error_first h _)
  case roundfKey => exact faultsWith_of_check rfl (Check.bind_error_later hx (Check.bind_error_first h _))
  case enc | dec =>
    exact faultsWith_of_check rfl
      (Check.bind_error_later (State.requireKeyed_keyed hs) (Check.bind_error_first h _))
  case bufferDst => exact buffer_faultsWith fun f => bufferCommand_eq_error.2 (.inr ⟨hs, .inl h⟩)
  case bufferPair =>
    exact buffer_faultsWith fun f => bufferCommand_eq_error.2 (.inr ⟨hs, .inr ⟨dst, hd, .inl h⟩⟩)
  case bufferRead =>
    exact buffer_faultsWith fun f =>
      bufferCommand_eq_error.2 (.inr ⟨hs, .inr ⟨dst, hd, .inr ⟨src, n, hp, .inl ⟨h, rfl⟩⟩⟩⟩)
  case bufferWrite =>
    exact buffer_faultsWith fun f =>
      bufferCommand_eq_error.2 (.inr ⟨hs, .inr ⟨dst, hd, .inr ⟨src, n, hp, .inr ⟨hr, h, rfl⟩⟩⟩⟩)

end Sys2Proof.Machine
end

/-! PROOFS. The classical primitives (R191 to R197) and the cryptanalysis commands (R200 to R221). -/
section

namespace Sys2Proof.Machine

/-! ## Regions of DMEM -/

section
variable (s : State) {a b m n : Nat} {bs : List Byte}

/-- A region just stored reads as the bytes stored. -/
theorem State.readBytes_storeBytes_of_length (h : bs.length = n) : (s.storeBytes a bs).readBytes a n = bs :=
  h ▸ State.readBytes_storeBytes s a bs

/-- A region that a store does not touch reads as before. -/
theorem State.readBytes_storeBytes_disjoint (h : b + m ≤ a ∨ a + bs.length ≤ b) :
    (s.storeBytes a bs).readBytes b m = s.readBytes b m := by
  refine List.map_congr_left fun k hk => State.storeBytes_byte_outside s a (b + k) bs ?_
  have : k < m := List.mem_range.1 hk
  omega

/-- Reading part of a region just stored gives that part of the bytes stored. -/
theorem State.readBytes_storeBytes_part {i : Nat} (h : i + m ≤ bs.length) :
    (s.storeBytes a bs).readBytes (a + i) m = (bs.drop i).take m := by
  refine List.ext_getElem ?_ fun k hk _ => ?_
  · rw [State.readBytes_length, List.length_take, List.length_drop]
    omega
  · rw [State.readBytes_length] at hk
    rw [State.readBytes_getElem, Nat.add_assoc, State.storeBytes_byte_inside s a _ bs (by omega), List.getElem_take,
      List.getElem_drop]

/-- Putting a region's own bytes back undoes a store over the whole region. -/
theorem State.storeBytes_readBytes_restores (h : bs.length = n) :
    ((s.storeBytes a bs).storeBytes a (s.readBytes a n)).byte b = s.byte b := by
  by_cases hin : a ≤ b ∧ b < a + n
  · obtain ⟨k, rfl⟩ := Nat.exists_eq_add_of_le hin.1
    rw [State.storeBytes_byte_inside _ _ _ _ (by rw [State.readBytes_length]; omega), State.readBytes_getElem]
  · rw [State.storeBytes_byte_outside _ _ _ _ (by rw [State.readBytes_length]; omega),
      State.storeBytes_byte_outside _ _ _ _ (by omega)]

end

/-! ## Repeating-key XOR (R191 to R193) -/

theorem xorRepeat_xorRepeat (d k : List Byte) : xorRepeat (xorRepeat d k) k = d := by
  refine List.ext_getElem (by rw [xorRepeat_length, xorRepeat_length]) fun i _ _ => ?_
  rw [xorRepeat_getElem, xorRepeat_getElem, BitVec.xor_assoc, BitVec.xor_self, BitVec.xor_zero]

/-- The candidate text that a key makes of a region (R191, R205). -/
theorem xorRepeat_readBytes (s : State) (a n : Nat) (k : List Byte) :
    xorRepeat (s.readBytes a n) k = (List.range n).map fun i => s.byte (a + i) ^^^ k.getD (i % k.length) 0 := by
  refine List.ext_getElem (by simp) fun i _ _ => ?_
  rw [xorRepeat_getElem, State.readBytes_getElem, List.getElem_map, List.getElem_range]

section
variable {s : State} {ra rs p q : Reg} {dst src n ka kl : Scalar}

/-- The operands of XORREP hold an output address and the regions of the data and of a key that is not empty, all in
bounds (R192). -/
structure XorrepOperands (s : State) (ra p q : Reg) (dst src n ka kl : Scalar) : Prop where
  dstReg : s.reg ra = .scalar dst
  srcReg : s.reg p = .scalar src
  lenReg : s.reg (Reg.second p) = .scalar n
  keyReg : s.reg q = .scalar ka
  keyLenReg : s.reg (Reg.second q) = .scalar kl
  nonempty : kl ≠ 0
  read : src.toNat + n.toNat ≤ s.cfg.dmemSize
  readKey : ka.toNat + kl.toNat ≤ s.cfg.dmemSize
  write : dst.toNat + n.toNat ≤ s.cfg.dmemSize

theorem exec_xorrep (h : XorrepOperands s ra p q dst src n ka kl) :
    exec (.xorrep ra p q) s =
      .next (s.storeBytes dst.toNat
        (xorRepeat (s.readBytes src.toNat n.toNat) (s.readBytes ka.toNat kl.toNat))).advance := by
  show execXorrep ra p q s = _
  rw [execXorrep, State.readS_eq_ok.2 h.dstReg, Check.ok_bind, State.readPair_eq_ok.2 ⟨h.srcReg, h.lenReg⟩,
    Check.ok_bind]
  dsimp only
  rw [State.readPair_eq_ok.2 ⟨h.keyReg, h.keyLenReg⟩, Check.ok_bind]
  dsimp only
  rw [ensure_of_true (bne_iff_ne.2 h.nonempty), Check.ok_bind, State.checkRead_inside h.read, Check.ok_bind,
    State.checkRead_inside h.readKey, Check.ok_bind, State.checkWrite_inside h.write, Check.ok_bind, complete_ok]

/-- An empty key is rejected before any bounds check (R192). -/
theorem xorrep_faultsWith_emptyKey (hdst : s.reg ra = .scalar dst) (hsrc : s.reg p = .scalar src)
    (hn : s.reg (Reg.second p) = .scalar n) (hka : s.reg q = .scalar ka) (hkl : s.reg (Reg.second q) = .scalar 0) :
    FaultsWith (.xorrep ra p q) s (.emptyKey 0) :=
  faultsWith_of_check rfl
    (Check.bind_error_later (State.readS_eq_ok.2 hdst)
      (Check.bind_error_later (State.readPair_eq_ok.2 ⟨hsrc, hn⟩)
        (Check.bind_error_later (State.readPair_eq_ok.2 ⟨hka, hkl⟩)
          (Check.bind_error_first (ensure_of_false (bne_self_eq_false 0)) _))))

end

/-- Settles O46: the bytes stored are those of xorRepeat, and an empty key fails its check. -/
theorem xorrepCommand : Obligations.XorrepCommand := by
  intro ra p q s dst src n ka kl hdst hsrc hn hka hkl
  refine ⟨fun hempty => ?empty, fun hne hread hreadKey hwrite => ?completes⟩
  case empty =>
    subst hempty
    exact xorrep_faultsWith_emptyKey hdst hsrc hn hka hkl
  case completes =>
    have hpos : 0 < kl.toNat := Nat.pos_of_ne_zero fun h0 => hne (BitVec.eq_of_toNat_eq h0)
    refine ⟨xorRepeat (s.readBytes src.toNat n.toNat) (s.readBytes ka.toNat kl.toNat),
      by rw [xorRepeat_length, State.readBytes_length], fun i hi => ?_, _,
      exec_xorrep ⟨hdst, hsrc, hn, hka, hkl, hne, hread, hreadKey, hwrite⟩, stores_advance s _ _⟩
    rw [List.getD_eq_getElem _ _ (by rwa [xorRepeat_length, State.readBytes_length]), xorRepeat_getElem,
      State.readBytes_getElem, State.readBytes_length, State.readBytes_getD _ _ _ _ _ (Nat.mod_lt i hpos)]

/-- Settles O47: the second command reads the bytes the first one stored and the same key. -/
theorem xorrepTwiceRestores : Obligations.XorrepTwiceRestores := by
  refine ⟨fun d k _ => xorRepeat_xorRepeat d k,
    fun ra p q s a n ka kl ha hp hn hka hkl hne hdata hkey hdisjoint => ?_⟩
  have hlen : (xorRepeat (s.readBytes a.toNat n.toNat) (s.readBytes ka.toNat kl.toNat)).length = n.toNat := by
    rw [xorRepeat_length, State.readBytes_length]
  refine ⟨_, _, exec_xorrep ⟨ha, hp, hn, hka, hkl, hne, hdata, hkey, hdata⟩,
    exec_xorrep ⟨ha, hp, hn, hka, hkl, hne, hdata, hkey, hdata⟩, fun b => ?_⟩
  rw [State.advance_readBytes, State.advance_readBytes, State.readBytes_storeBytes_of_length s hlen,
    State.readBytes_storeBytes_disjoint s (by rwa [hlen]), xorRepeat_xorRepeat]
  exact State.storeBytes_readBytes_restores s hlen

/-! ## Caesar shift (R194 to R197) -/

/-- The three alphabets of R195: the code of the first character, and how many there are. -/
def caesarAlphabets : List (Nat × Nat) := [(0x61, 26), (0x41, 26), (0x30, 10)]

section
variable {base m : Nat} {c : Byte} (k l : Nat)

theorem rotateIn_toNat (hm : 0 < m) (hfit : base + m ≤ 256) (c : Byte) :
    (rotateIn base m k c).toNat = (c.toNat - base + k) % m + base := by
  have := Nat.mod_lt (c.toNat - base + k) hm
  rw [rotateIn, BitVec.toNat_ofNat, Nat.mod_eq_of_lt (by omega)]

theorem caesarAlphabets_fit (h : (base, m) ∈ caesarAlphabets) : 0 < m ∧ base + m ≤ 256 := by
  simp only [caesarAlphabets, List.mem_cons, Prod.mk.injEq, List.not_mem_nil, or_false] at h
  omega

/-- A character of an alphabet moves within it. -/
theorem caesarByte_eq_rotateIn (h : (base, m) ∈ caesarAlphabets) (hc : base ≤ c.toNat ∧ c.toNat < base + m) :
    caesarByte k c = rotateIn base m k c := by
  simp only [caesarAlphabets, List.mem_cons, Prod.mk.injEq, List.not_mem_nil, or_false] at h
  obtain ⟨rfl, rfl⟩ | ⟨rfl, rfl⟩ | ⟨rfl, rfl⟩ := h
  · rw [caesarByte, if_pos (by omega)]
  · rw [caesarByte, if_neg (by omega), if_pos (by omega)]
  · rw [caesarByte, if_neg (by omega), if_neg (by omega), if_pos (by omega)]

theorem caesarByte_of_other (hlower : ¬ (0x61 ≤ c.toNat ∧ c.toNat ≤ 0x7A))
    (hupper : ¬ (0x41 ≤ c.toNat ∧ c.toNat ≤ 0x5A)) (hdigit : ¬ (0x30 ≤ c.toNat ∧ c.toNat ≤ 0x39)) :
    caesarByte k c = c := by
  rw [caesarByte, if_neg hlower, if_neg hupper, if_neg hdigit]

theorem caesarByte_toNat (c : Byte) :
    (caesarByte k c).toNat =
      if 0x61 ≤ c.toNat ∧ c.toNat ≤ 0x7A then (c.toNat - 0x61 + k) % 26 + 0x61
      else if 0x41 ≤ c.toNat ∧ c.toNat ≤ 0x5A then (c.toNat - 0x41 + k) % 26 + 0x41
      else if 0x30 ≤ c.toNat ∧ c.toNat ≤ 0x39 then (c.toNat - 0x30 + k) % 10 + 0x30
      else c.toNat := by
  rw [caesarByte]
  split_ifs
  · exact rotateIn_toNat k (by decide) (by decide) c
  · exact rotateIn_toNat k (by decide) (by decide) c
  · exact rotateIn_toNat k (by decide) (by decide) c
  · rfl

/-- Two shifts add up, since the first one stays in the alphabet. -/
theorem caesarByte_caesarByte (h : (base, m) ∈ caesarAlphabets) (hc : base ≤ c.toNat ∧ c.toNat < base + m) :
    caesarByte l (caesarByte k c) = BitVec.ofNat 8 ((c.toNat - base + (k + l)) % m + base) := by
  obtain ⟨hm, hfit⟩ := caesarAlphabets_fit h
  have hfirst := rotateIn_toNat k hm hfit c
  have hlt := Nat.mod_lt (c.toNat - base + k) hm
  rw [caesarByte_eq_rotateIn k h hc, caesarByte_eq_rotateIn l h (by omega), rotateIn, hfirst, Nat.add_sub_cancel,
    Nat.mod_add_mod, Nat.add_assoc]

/-- A shift by nothing moves no character. -/
theorem caesarByte_zero (c : Byte) : caesarByte 0 c = c := by
  apply BitVec.eq_of_toNat_eq
  rw [caesarByte_toNat]
  split_ifs <;> omega

end

theorem caesarAmount_lt (shift : Scalar) : caesarAmount shift < 26 := by
  rw [caesarAmount]
  omega

/-- The decoding shift of R197. -/
theorem caesarAmount_back {shift back : Scalar} (h : back.toInt = 26 - shift.toInt % 26) :
    caesarAmount back = (26 - caesarAmount shift) % 26 := by
  rw [caesarAmount, caesarAmount]
  omega

theorem caesarShift_singleton (c : Byte) (shift : Scalar) :
    caesarShift [c] shift = [caesarByte (caesarAmount shift) c] := rfl

theorem caesarShift_getElem (t : List Byte) (shift : Scalar) {i : Nat} (h : i < (caesarShift t shift).length) :
    (caesarShift t shift)[i] = caesarByte (caesarAmount shift) (t[i]'(by simpa using h)) := by
  simp [caesarShift]

section
variable {s : State} {ra p rs : Reg} {dst src n shift : Scalar}

theorem exec_caesar (hdst : s.reg ra = .scalar dst) (hsrc : s.reg p = .scalar src)
    (hn : s.reg (Reg.second p) = .scalar n) (hshift : s.reg rs = .scalar shift)
    (hread : src.toNat + n.toNat ≤ s.cfg.dmemSize) (hwrite : dst.toNat + n.toNat ≤ s.cfg.dmemSize) :
    exec (.caesar ra p rs) s =
      .next (s.storeBytes dst.toNat (caesarShift (s.readBytes src.toNat n.toNat) shift)).advance := by
  show execCaesar ra p rs s = _
  rw [execCaesar, State.readS_eq_ok.2 hdst, Check.ok_bind, State.readPair_eq_ok.2 ⟨hsrc, hn⟩, Check.ok_bind]
  dsimp only
  rw [State.readS_eq_ok.2 hshift, Check.ok_bind, State.checkRead_inside hread, Check.ok_bind,
    State.checkWrite_inside hwrite, Check.ok_bind, complete_ok]

end

/-- Settles O48, from the value of each shifted byte. -/
theorem caesarCommand : Obligations.CaesarCommand := by
  intro ra p rs s dst src n shift hdst hsrc hn hshift hread hwrite
  have hlen : (caesarShift (s.readBytes src.toNat n.toNat) shift).length = n.toNat := by
    rw [caesarShift_length, State.readBytes_length]
  refine ⟨caesarShift (s.readBytes src.toNat n.toNat) shift, hlen, fun i hi => ?_, _,
    exec_caesar hdst hsrc hn hshift hread hwrite, stores_advance s _ _⟩
  rw [List.getD_eq_getElem _ _ (hlen.symm ▸ hi), caesarShift_getElem, State.readBytes_getElem]
  exact caesarByte_toNat _ _

/-- Settles O49: the shift and its decoding add up to 26 or 0, which is a multiple of 26 but not of 10. -/
theorem caesarLaws : Obligations.CaesarLaws := by
  intro c shift back hback letter digit
  have hlt := caesarAmount_lt shift
  have hamount := caesarAmount_back hback
  have hzero : shift.toInt % 26 = 0 ↔ caesarAmount shift = 0 := by
    rw [caesarAmount]
    omega
  have htwice {base m : Nat} (h : (base, m) ∈ caesarAlphabets) (hc : base ≤ c.toNat ∧ c.toNat < base + m) :
      caesarShift (caesarShift [c] shift) back =
        [BitVec.ofNat 8 ((c.toNat - base + (caesarAmount shift + caesarAmount back)) % m + base)] :=
    congrArg (fun b => [b]) (caesarByte_caesarByte _ _ h hc)
  have hletter {base : Nat} (h : (base, 26) ∈ caesarAlphabets) (hc : base ≤ c.toNat ∧ c.toNat < base + 26) :
      caesarShift (caesarShift [c] shift) back = [c] := by
    have hsame : (c.toNat - base + (caesarAmount shift + caesarAmount back)) % 26 + base = c.toNat := by omega
    rw [htwice h hc, hsame, BitVec.ofNat_toNat, BitVec.setWidth_eq]
  refine ⟨fun hletters hdigit => ?other, ?letter, fun hdigit hne => ?digit, fun h => ?none⟩
  case other =>
    obtain ⟨hlower, hupper⟩ := not_or.1 hletters
    rw [caesarShift_singleton, caesarByte_of_other _ hlower hupper hdigit]
  case letter =>
    rintro (hlower | hupper)
    · exact hletter (base := 0x61) (by simp [caesarAlphabets]) (by omega)
    · exact hletter (base := 0x41) (by simp [caesarAlphabets]) (by omega)
  case digit =>
    have hsix : (c.toNat - 0x30 + (caesarAmount shift + caesarAmount back)) % 10 = (c.toNat - 0x30 + 6) % 10 := by
      have := mt hzero.2 hne
      omega
    rw [htwice (base := 0x30) (m := 10) (by simp [caesarAlphabets]) (by omega), hsix]
  case none => rw [caesarShift_singleton, hzero.1 h, caesarByte_zero]

/-! ## Plausibility oracle (R200, R203) -/

theorem plausibleByte_iff {x : Byte} : plausibleByte x = true ↔ (0x20 ≤ x.toNat ∧ x.toNat ≤ 0x7E) ∨ x = 0x0A := by
  simp [plausibleByte]

theorem isPlausible_readBytes_iff {s : State} {a n : Nat} :
    isPlausible (s.readBytes a n) = true ↔ ∀ i, i < n → plausibleByte (s.byte (a + i)) = true := by
  simp [isPlausible, State.readBytes]

theorem boolScalar_eq_one_iff {b : Bool} : boolScalar b = 1 ↔ b = true := by
  cases b <;> simp [boolScalar]

theorem exec_plaus {s : State} {rd p : Reg} {a n : Scalar} (ha : s.reg p = .scalar a)
    (hn : s.reg (Reg.second p) = .scalar n) (hread : a.toNat + n.toNat ≤ s.cfg.dmemSize) :
    exec (.plaus rd p) s =
      .next (s.setReg rd (.scalar (boolScalar (isPlausible (s.readBytes a.toNat n.toNat))))).advance := by
  show execPlaus rd p s = _
  rw [execPlaus, State.readPair_eq_ok.2 ⟨ha, hn⟩, Check.ok_bind]
  dsimp only
  rw [State.checkRead_inside hread, Check.ok_bind, complete_ok]

/-- Settles O50: the oracle asks every byte of the region. -/
theorem plausCommand : Obligations.PlausCommand := by
  intro rd p s a n ha hn hread
  refine ⟨boolScalar (isPlausible (s.readBytes a.toNat n.toNat)), ?_, ?_, gives_writesReg (exec_plaus ha hn hread)⟩
  · cases isPlausible (s.readBytes a.toNat n.toNat)
    · exact .inl rfl
    · exact .inr rfl
  · simp only [boolScalar_eq_one_iff, isPlausible_readBytes_iff, plausibleByte_iff]

/-! ## Caesar key estimation (R220, R221) -/

/-- `m` is the first of the greatest among the first `n` values. -/
structure FirstMaximum (hist : Nat → Nat) (n m : Nat) : Prop where
  inside : m < n
  greatest : ∀ i, i < n → hist i ≤ hist m
  first : ∀ i, i < m → hist i < hist m

/-- One comparison of the scan of R220. -/
theorem FirstMaximum.step {hist : Nat → Nat} {n m : Nat} (h : FirstMaximum hist n m) :
    FirstMaximum hist (n + 1) (if hist m < hist n then n else m) := by
  obtain ⟨hinside, hgreatest, hfirst⟩ := h
  split
  · refine ⟨Nat.lt_succ_self n, fun i hi => ?_, fun i hi => ?_⟩
    · rcases Nat.lt_succ_iff_lt_or_eq.1 hi with hi | rfl
      · exact ((hgreatest i hi).trans_lt ‹_›).le
      · exact le_rfl
    · exact (hgreatest i hi).trans_lt ‹_›
  · refine ⟨hinside.trans (Nat.lt_succ_self n), fun i hi => ?_, hfirst⟩
    rcases Nat.lt_succ_iff_lt_or_eq.1 hi with hi | rfl
    · exact hgreatest i hi
    · exact Nat.le_of_not_lt ‹_›

theorem firstMaximum_scan (hist : Nat → Nat) (n : Nat) :
    FirstMaximum hist (n + 1) ((List.range' 1 n).foldl (fun m i => if hist m < hist i then i else m) 0) := by
  induction n with
  | zero =>
    refine ⟨Nat.zero_lt_one, fun i hi => ?_, fun i hi => absurd hi (Nat.not_lt_zero i)⟩
    rw [Nat.lt_one_iff.1 hi]
    rfl
  | succ n ih =>
    rw [List.range'_1_concat, List.foldl_append, Nat.add_comm 1 n]
    exact ih.step

theorem fullestBucket_firstMaximum (hist : Nat → Nat) : FirstMaximum hist 26 (fullestBucket hist) :=
  firstMaximum_scan hist 25

theorem letterIndex_eq_some_iff {c : Byte} {i : Nat} (hi : i < 26) :
    letterIndex c = some i ↔ c.toNat = 0x61 + i ∨ c.toNat = 0x41 + i := by
  rw [letterIndex]
  split_ifs <;> simp only [Option.some.injEq, false_iff] <;> omega

theorem letterCount_eq_countP (text : List Byte) {i : Nat} (hi : i < 26) :
    letterCount text i = text.countP fun c => c.toNat == 0x61 + i || c.toNat == 0x41 + i := by
  refine List.countP_congr fun c _ => ?_
  simp only [Bool.or_eq_true, beq_iff_eq]
  exact letterIndex_eq_some_iff hi

theorem exec_ckey {s : State} {rd p : Reg} {a n : Scalar} (ha : s.reg p = .scalar a)
    (hn : s.reg (Reg.second p) = .scalar n) (hread : a.toNat + n.toNat ≤ s.cfg.dmemSize) :
    exec (.ckey rd p) s =
      .next (s.setReg rd
        (.scalar (BitVec.ofNat 64 (evaluateCaesarKey (s.readBytes a.toNat n.toNat))))).advance := by
  show execCkey rd p s = _
  rw [execCkey, State.readPair_eq_ok.2 ⟨ha, hn⟩, Check.ok_bind]
  dsimp only
  rw [State.checkRead_inside hread, Check.ok_bind, complete_ok]

/-- Settles O54: the scan finds the first maximum of the letter counts. -/
theorem ckeyCommand : Obligations.CkeyCommand := by
  intro rd p s a n ha hn hread count
  have hcount (i : Nat) (hi : i < 26) : count i = letterCount (s.readBytes a.toNat n.toNat) i :=
    (letterCount_eq_countP _ hi).symm
  obtain ⟨hinside, hgreatest, hfirst⟩ := fullestBucket_firstMaximum (letterCount (s.readBytes a.toNat n.toNat))
  refine ⟨_, hinside, fun i hi => ?_, fun i hi => ?_, gives_writesReg (exec_ckey ha hn hread)⟩
  · rw [hcount i hi, hcount _ hinside]
    exact hgreatest i hi
  · rw [hcount i (hi.trans hinside), hcount _ hinside]
    exact hfirst i hi

/-! ## The dictionary parse (R208) -/

section
variable {s : State}

/-- One entry of the parse: out of bounds, empty, its key bytes out of bounds, or good. -/
theorem State.parseDict_succ (cnt j p : Nat) :
    s.parseDict (cnt + 1) j p =
      if s.cfg.dmemSize < p + 1 then .error (.memRead (BitVec.ofNat 64 p))
      else if (s.byte p).toNat = 0 then .error (.emptyKey (BitVec.ofNat 64 j))
      else if s.cfg.dmemSize < p + 1 + (s.byte p).toNat then .error (.memRead (BitVec.ofNat 64 (p + 1)))
      else (s.parseDict cnt (j + 1) (p + 1 + (s.byte p).toNat)).map (s.readBytes (p + 1) (s.byte p).toNat :: ·) := by
  simp only [State.parseDict, State.inBounds_eq_true, ← not_lt, ite_not]
  cases s.parseDict cnt (j + 1) (p + 1 + (s.byte p).toNat) <;> rfl

/-- A fault past good entries is the fault of the parse. -/
theorem State.parseDict_error_after {keys : List (List Byte)} {cnt j p : Nat} {r : Raise} (hlaid : DictLaid s keys p)
    (h : s.parseDict cnt (j + keys.length) (p + (keys.map fun k => 1 + k.length).sum) = .error r) :
    s.parseDict (keys.length + cnt) j p = .error r := by
  induction keys generalizing j p with
  | nil => simpa using h
  | cons k ks ih =>
    obtain ⟨hlen, hne, hsize, -, hrest⟩ := hlaid
    have hpos : k.length ≠ 0 := List.length_eq_zero_iff.not.2 hne
    have hafter : s.parseDict (ks.length + cnt) (j + 1) (p + 1 + k.length) = .error r := by
      refine ih hrest ?_
      rw [← h, List.length_cons, List.map_cons, List.sum_cons]
      congr 1 <;> omega
    rw [List.length_cons, Nat.add_right_comm, State.parseDict_succ, hlen, if_neg (by omega), if_neg hpos,
      if_neg (by omega), hafter]
    rfl

end

/-- Settles O56: the good entries are passed, and the next one fails its check. -/
theorem dictionaryFaults : Obligations.DictionaryFaults := by
  intro s keys da cnt hcnt hlaid p len
  obtain ⟨rest, rfl⟩ : ∃ rest, cnt = keys.length + (rest + 1) := ⟨cnt - keys.length - 1, by omega⟩
  have hwrong {r : Raise} (h : s.parseDict (rest + 1) keys.length p = .error r) :
      s.parseDict (keys.length + (rest + 1)) 0 da = .error r :=
    State.parseDict_error_after hlaid (by rwa [Nat.zero_add])
  split_ifs with hentry hempty
  · exact hwrong (by rw [State.parseDict_succ, if_pos hentry])
  · exact hwrong (by rw [State.parseDict_succ, if_neg hentry, if_pos hempty])
  · intro hbytes
    exact hwrong (by rw [State.parseDict_succ, if_neg hentry, if_neg hempty, if_pos hbytes])

/-! ## The records of a search (R205 to R211, R218) -/

section
variable {α : Type} {cipher plain : List Byte}

/-- The records of trials made from a list: those of its hits, in its order. -/
theorem searchRecords_map (f : α → Trial) (l : List α) :
    searchRecords cipher (l.map f) =
      (l.filter fun a => isPlausible (xorRepeat cipher (f a).key)).map fun a =>
        (f a).name ++ xorRepeat cipher (f a).key := by
  induction l with
  | nil => rfl
  | cons a l ih =>
    rw [searchRecords] at ih ⊢
    by_cases h : isPlausible (xorRepeat cipher (f a).key) = true
    · simp [hitRecord?, h, ih]
    · simp [hitRecord?, h, ih]

/-- The pairs of key numbers of R207, the outer byte first. -/
def keyPairs : List (Nat × Nat) := (List.range 256).flatMap fun b1 => (List.range 256).map fun b2 => (b1, b2)

theorem twoByteTrials_eq_map :
    twoByteTrials = keyPairs.map fun b =>
      ⟨[BitVec.ofNat 8 b.1, BitVec.ofNat 8 b.2], [BitVec.ofNat 8 b.1, BitVec.ofNat 8 b.2]⟩ := by
  rw [twoByteTrials, keyPairs, List.map_flatMap]
  simp only [List.map_map, Function.comp_def]

theorem dictTrials_eq_map (keys : List (List Byte)) :
    dictTrials keys = keys.zipIdx.map fun e => ⟨unpack32 (BitVec.ofNat 32 e.2), e.1⟩ :=
  List.mapIdx_eq_zipIdx_map

/-- The name of dictionary key j: its index, big-endian (R211). -/
theorem unpack32_ofNat (j : Nat) :
    unpack32 (BitVec.ofNat 32 j) =
      [BitVec.ofNat 8 (j / 2 ^ 24), BitVec.ofNat 8 (j / 2 ^ 16), BitVec.ofNat 8 (j / 2 ^ 8), BitVec.ofNat 8 j] := by
  have hbyte (a : Nat) (ha : a + 8 ≤ 32) :
      (BitVec.ofNat 32 j).extractLsb' a 8 = BitVec.ofNat 8 (j / 2 ^ a) := by
    refine BitVec.eq_of_getLsbD_eq fun i hi => ?_
    rw [BitVec.getLsbD_extractLsb', BitVec.getLsbD_ofNat, BitVec.getLsbD_ofNat, Nat.testBit_div_two_pow,
      decide_eq_true hi, decide_eq_true (show a + i < 32 by omega), Bool.true_and, Bool.true_and, Bool.true_and,
      Nat.add_comm]
  rw [unpack32, hbyte 24 (by decide), hbyte 16 (by decide), hbyte 8 (by decide), hbyte 0 (by decide), Nat.pow_zero,
    Nat.div_one]

/-- R218: the trial of the key that made a cipher from a plausible text is a hit, with that text. -/
theorem mem_searchRecords_of_plausible {trials : List Trial} {t : Trial} (ht : t ∈ trials)
    (hplain : isPlausible plain = true) (hcipher : cipher = xorRepeat plain t.key) :
    t.name ++ plain ∈ searchRecords cipher trials := by
  refine List.mem_filterMap.2 ⟨t, ht, ?_⟩
  rw [hitRecord?, hcipher, xorRepeat_xorRepeat, if_pos hplain]

theorem ofNat_byte_toNat (b : Byte) : BitVec.ofNat 8 b.toNat = b := by
  rw [BitVec.ofNat_toNat, BitVec.setWidth_eq]

theorem mem_oneByteTrials (k : Byte) : ⟨[k], [k]⟩ ∈ oneByteTrials := by
  refine List.mem_map.2 ⟨k.toNat, List.mem_range.2 k.isLt, ?_⟩
  rw [ofNat_byte_toNat]

theorem mem_twoByteTrials (k l : Byte) : ⟨[k, l], [k, l]⟩ ∈ twoByteTrials := by
  refine List.mem_flatMap.2 ⟨k.toNat, List.mem_range.2 k.isLt, List.mem_map.2 ⟨l.toNat, List.mem_range.2 l.isLt, ?_⟩⟩
  rw [ofNat_byte_toNat, ofNat_byte_toNat]

theorem mem_dictTrials {keys : List (List Byte)} {e : Nat} {k : List Byte} (h : keys[e]? = some k) :
    ⟨unpack32 (BitVec.ofNat 32 e), k⟩ ∈ dictTrials keys := by
  obtain ⟨he, rfl⟩ := List.getElem?_eq_some_iff.1 h
  exact List.mem_mapIdx.2 ⟨e, he, rfl⟩

theorem mem_searchRecords_oneByte (k : Byte) (hplain : isPlausible plain = true)
    (hcipher : cipher = xorRepeat plain [k]) : (k :: plain) ∈ searchRecords cipher oneByteTrials :=
  mem_searchRecords_of_plausible (t := ⟨[k], [k]⟩) (mem_oneByteTrials k) hplain hcipher

theorem mem_searchRecords_twoByte (k l : Byte) (hplain : isPlausible plain = true)
    (hcipher : cipher = xorRepeat plain [k, l]) : (k :: l :: plain) ∈ searchRecords cipher twoByteTrials :=
  mem_searchRecords_of_plausible (t := ⟨[k, l], [k, l]⟩) (mem_twoByteTrials k l) hplain hcipher

theorem mem_searchRecords_dict {keys : List (List Byte)} {e : Nat} {k : List Byte} (hk : keys[e]? = some k)
    (hplain : isPlausible plain = true) (hcipher : cipher = xorRepeat plain k) :
    (unpack32 (BitVec.ofNat 32 e) ++ plain) ∈ searchRecords cipher (dictTrials keys) :=
  mem_searchRecords_of_plausible (t := ⟨unpack32 (BitVec.ofNat 32 e), k⟩) (mem_dictTrials hk) hplain hcipher

end

/-! ## The search commands (R213 to R217) -/

section
variable {s : State} {rd p q d : Reg} {ca n oa cap : Scalar}

/-- The state in which a search that completes leaves its records and their number, pc not yet advanced (R213). -/
def State.report (s : State) (rd : Reg) (oa : Scalar) (records : List (List Byte)) : State :=
  (s.storeBytes oa.toNat records.flatten).setReg rd (.scalar (BitVec.ofNat 64 records.length))

/-- The operands every search reads: a cipher in bounds, an output address and a capacity (R213). -/
structure SearchOperands (s : State) (p q : Reg) (ca n oa cap : Scalar) : Prop where
  cipherReg : s.reg p = .scalar ca
  lenReg : s.reg (Reg.second p) = .scalar n
  outReg : s.reg q = .scalar oa
  capReg : s.reg (Reg.second q) = .scalar cap
  read : ca.toNat + n.toNat ≤ s.cfg.dmemSize

/-- The records of a search fit its capacity and its output region (R213). -/
structure RecordsFit (s : State) (oa cap : Scalar) (size : Nat) (records : List (List Byte)) : Prop where
  capacity : records.length ≤ cap.toNat
  region : oa.toNat + records.length * size ≤ s.cfg.dmemSize

theorem searchOutput_of_fit {size : Nat} {records : List (List Byte)} (h : RecordsFit s oa cap size records) :
    searchOutput s rd oa cap size records = .ok (s.report rd oa records) :=
  searchOutput_eq_ok.2 ⟨h.capacity, h.region, rfl⟩

theorem keySearch_of_operands (h : SearchOperands s p q ca n oa cap) {trials : List Trial} {nameLen : Nat}
    (hfit : RecordsFit s oa cap (nameLen + n.toNat) (searchRecords (s.readBytes ca.toNat n.toNat) trials)) :
    keySearch trials nameLen rd p q s =
      .ok (s.report rd oa (searchRecords (s.readBytes ca.toNat n.toNat) trials)) :=
  keySearch_eq_ok.2 ⟨ca, n, oa, cap, State.readPair_eq_ok.2 ⟨h.cipherReg, h.lenReg⟩,
    State.readPair_eq_ok.2 ⟨h.outReg, h.capReg⟩, h.read, searchOutput_of_fit hfit⟩

theorem exec_bfx1 (h : SearchOperands s p q ca n oa cap)
    (hfit : RecordsFit s oa cap (1 + n.toNat) (searchRecords (s.readBytes ca.toNat n.toNat) oneByteTrials)) :
    exec (.bfx1 rd p q) s =
      .next (s.report rd oa (searchRecords (s.readBytes ca.toNat n.toNat) oneByteTrials)).advance := by
  show execBfx1 rd p q s = _
  rw [execBfx1, keySearch_of_operands h hfit, complete_ok]

theorem exec_bfx2 (h : SearchOperands s p q ca n oa cap)
    (hfit : RecordsFit s oa cap (2 + n.toNat) (searchRecords (s.readBytes ca.toNat n.toNat) twoByteTrials)) :
    exec (.bfx2 rd p q) s =
      .next (s.report rd oa (searchRecords (s.readBytes ca.toNat n.toNat) twoByteTrials)).advance := by
  show execBfx2 rd p q s = _
  rw [execBfx2, keySearch_of_operands h hfit, complete_ok]

/-- The third pair of BFXD holds the address of a dictionary of `keys` and their number (R208, R217). -/
structure DictOperands (s : State) (d : Reg) (da cnt : Scalar) (keys : List (List Byte)) : Prop where
  dictReg : s.reg d = .scalar da
  countReg : s.reg (Reg.second d) = .scalar cnt
  count : keys.length = cnt.toNat
  laid : DictLaid s keys da.toNat

theorem exec_bfxd {da cnt : Scalar} {keys : List (List Byte)} (h : SearchOperands s p q ca n oa cap)
    (hd : DictOperands s d da cnt keys)
    (hfit : RecordsFit s oa cap (4 + n.toNat) (searchRecords (s.readBytes ca.toNat n.toNat) (dictTrials keys))) :
    exec (.bfxd rd p q d) s =
      .next (s.report rd oa (searchRecords (s.readBytes ca.toNat n.toNat) (dictTrials keys))).advance := by
  show execBfxd rd p q d s = _
  rw [execBfxd, State.readPair_eq_ok.2 ⟨h.cipherReg, h.lenReg⟩, Check.ok_bind]
  dsimp only
  rw [State.readPair_eq_ok.2 ⟨h.outReg, h.capReg⟩, Check.ok_bind]
  dsimp only
  rw [State.readPair_eq_ok.2 ⟨hd.dictReg, hd.countReg⟩, Check.ok_bind]
  dsimp only
  rw [State.checkRead_inside h.read, Check.ok_bind, parseDict_eq_ok.2 ⟨hd.count, hd.laid⟩, Check.ok_bind,
    searchOutput_of_fit hfit, complete_ok]

/-- The frame of a search that completes, where its records are known as those of a list of hits. -/
theorem gives_storesAndWrites {α : Type} {i : Instr} {size : Nat} {records : List (List Byte)} {hits : List α}
    {record : α → List Byte} (hrecords : records = hits.map record)
    (hexec : RecordsFit s oa cap size records → exec i s = .next (s.report rd oa records).advance)
    (hfits : hits.length ≤ cap.toNat) (hregion : oa.toNat + hits.length * size ≤ s.cfg.dmemSize) :
    Gives i s fun t =>
      StoresAndWrites s t oa.toNat (hits.flatMap record) rd (.scalar (BitVec.ofNat 64 hits.length)) := by
  have hlen : records.length = hits.length := by rw [hrecords, List.length_map]
  refine ⟨_, hexec ⟨hlen ▸ hfits, hlen ▸ hregion⟩, ?_⟩
  rw [List.flatMap_def, ← hrecords, ← hlen]
  exact storesAndWrites_advance s _ _ _ _

/-- Record j of a list of records of one size stands at j times that size. -/
theorem take_drop_flatten {records : List (List Byte)} {size j : Nat} (hsize : ∀ r ∈ records, r.length = size)
    (hj : j < records.length) :
    j * size + size ≤ records.flatten.length ∧ (records.flatten.drop (j * size)).take size = records[j] := by
  induction records generalizing j with
  | nil => exact absurd hj (Nat.not_lt_zero j)
  | cons r rs ih =>
    obtain ⟨hr, hrs⟩ := List.forall_mem_cons.1 hsize
    rw [List.flatten_cons, List.length_append, hr]
    cases j with
    | zero =>
      rw [Nat.zero_mul, Nat.zero_add, List.drop_zero]
      exact ⟨Nat.le_add_right _ _, List.take_left' hr⟩
    | succ j =>
      obtain ⟨hle, hrec⟩ := ih hrs (Nat.lt_of_succ_lt_succ hj)
      have hskip : (j + 1) * size = r.length + j * size := by
        rw [hr, Nat.succ_mul, Nat.add_comm]
      refine ⟨by rw [hskip, hr]; omega, ?_⟩
      rw [hskip, List.drop_length_add_append, hrec, List.getElem_cons_succ]

/-- Every record of a search that completes can be read back at its place below the count in rd. -/
theorem gives_record {i : Instr} {records : List (List Byte)} {record : List Byte} {size : Nat}
    (h : exec i s = .next (s.report rd oa records).advance) (hfit : RecordsFit s oa cap size records)
    (hsize : ∀ r ∈ records, r.length = size) (hmem : record ∈ records) :
    Gives i s fun t => ∃ h : Scalar, t.reg rd = .scalar h ∧
      ∃ j, j < h.toNat ∧ t.readBytes (oa.toNat + j * size) size = record := by
  obtain ⟨j, hj, rfl⟩ := List.getElem_of_mem hmem
  obtain ⟨hinside, hrecord⟩ := take_drop_flatten hsize hj
  have hcount : (BitVec.ofNat 64 records.length).toNat = records.length := by
    rw [BitVec.toNat_ofNat, Nat.mod_eq_of_lt (hfit.capacity.trans_lt cap.isLt)]
  refine ⟨_, h, _, State.setReg_reg_same _ rd _, j, hcount.symm ▸ hj, ?_⟩
  exact (State.readBytes_storeBytes_part s hinside).trans hrecord

end

/-- A candidate of BFX1 or BFX2: the bytes of a two-byte key alternate (R206, R207). -/
theorem xorRepeat_pair_readBytes (s : State) (a n b1 b2 : Nat) :
    xorRepeat (s.readBytes a n) [BitVec.ofNat 8 b1, BitVec.ofNat 8 b2] =
      (List.range n).map fun i => s.byte (a + i) ^^^ BitVec.ofNat 8 (if i % 2 = 0 then b1 else b2) := by
  rw [xorRepeat_readBytes]
  refine List.map_congr_left fun i _ => congrArg _ ?_
  rcases Nat.mod_two_eq_zero_or_one i with h | h <;> simp [h]

/-- A key of one byte is that byte twice. -/
theorem xorRepeat_singleton (data : List Byte) (b : Byte) : xorRepeat data [b] = xorRepeat data [b, b] := by
  refine List.ext_getElem (by rw [xorRepeat_length, xorRepeat_length]) fun i _ _ => ?_
  rw [xorRepeat_getElem, xorRepeat_getElem]
  rcases Nat.mod_two_eq_zero_or_one i with h | h <;> simp [h, Nat.mod_one]

/-- Settles O51: the records of both commands are those of the hits among their keys. -/
theorem bruteForceCommands : Obligations.BruteForceCommands := by
  intro rd p q s ca n oa cap hca hn hoa hcap hread plausible cand hits1 pairs hits2
  have hops : SearchOperands s p q ca n oa cap := ⟨hca, hn, hoa, hcap, hread⟩
  have hrecords1 : searchRecords (s.readBytes ca.toNat n.toNat) oneByteTrials =
      hits1.map fun k => BitVec.ofNat 8 k :: cand k k := by
    rw [oneByteTrials, searchRecords_map]
    simp only [xorRepeat_singleton, xorRepeat_pair_readBytes]
    rfl
  have hrecords2 : searchRecords (s.readBytes ca.toNat n.toNat) twoByteTrials =
      hits2.map fun k => BitVec.ofNat 8 k.1 :: BitVec.ofNat 8 k.2 :: cand k.1 k.2 := by
    rw [twoByteTrials_eq_map, searchRecords_map]
    simp only [xorRepeat_pair_readBytes]
    rfl
  exact ⟨gives_storesAndWrites hrecords1 (exec_bfx1 hops), gives_storesAndWrites hrecords2 (exec_bfx2 hops)⟩

/-- Settles O52: the records are those of the hits among the keys laid out. -/
theorem dictionaryCommand : Obligations.DictionaryCommand := by
  intro rd p q d s ca n oa cap da cnt keys hca hn hoa hcap hda hcnt hread hkeys hlaid cand hits hfits hregion
  have hrecords : searchRecords (s.readBytes ca.toNat n.toNat) (dictTrials keys) =
      hits.map fun e => [BitVec.ofNat 8 (e.2 / 2 ^ 24), BitVec.ofNat 8 (e.2 / 2 ^ 16),
        BitVec.ofNat 8 (e.2 / 2 ^ 8), BitVec.ofNat 8 e.2] ++ cand e.1 := by
    rw [dictTrials_eq_map, searchRecords_map]
    simp only [xorRepeat_readBytes, unpack32_ofNat]
    rfl
  exact gives_storesAndWrites hrecords
    (exec_bfxd ⟨hca, hn, hoa, hcap, hread⟩ ⟨hda, hcnt, hkeys, hlaid⟩) hfits hregion

/-- Settles O53: the key's own trial is a hit, and its record is among those the command wrote. -/
theorem searchesAreComplete : Obligations.SearchesAreComplete := by
  refine ⟨fun plain k hplain => mem_searchRecords_oneByte k hplain rfl,
    fun plain k l hplain => mem_searchRecords_twoByte k l hplain rfl,
    fun plain keys e k hplain hk _ => mem_searchRecords_dict hk hplain rfl, ?_⟩
  intro rd p q s ca n oa cap plain hca hn hoa hcap hread hplain cipher reports
  have hops : SearchOperands s p q ca n oa cap := ⟨hca, hn, hoa, hcap, hread⟩
  have hlen : cipher.length = n.toNat := s.readBytes_length ca.toNat n.toNat
  refine ⟨fun k hcipher hfits hregion => ?bfx1, fun k l hcipher hfits hregion => ?bfx2,
    fun d da cnt keys e k hda hcnt hkeys hlaid hk hcipher hfits hregion => ?bfxd⟩
  case bfx1 =>
    exact gives_record (exec_bfx1 hops ⟨hfits, hregion⟩) ⟨hfits, hregion⟩
      (searchRecords_length_mem fun t ht => by rw [oneByteTrials_name ht, hlen])
      (mem_searchRecords_oneByte k hplain hcipher)
  case bfx2 =>
    exact gives_record (exec_bfx2 hops ⟨hfits, hregion⟩) ⟨hfits, hregion⟩
      (searchRecords_length_mem fun t ht => by rw [twoByteTrials_name ht, hlen])
      (mem_searchRecords_twoByte k l hplain hcipher)
  case bfxd =>
    refine gives_record (exec_bfxd hops ⟨hda, hcnt, hkeys, hlaid⟩ ⟨hfits, hregion⟩) ⟨hfits, hregion⟩
      (searchRecords_length_mem fun t ht => by rw [dictTrials_name ht, hlen]) ?_
    rw [← unpack32_ofNat]
    exact mem_searchRecords_dict hk hplain hcipher

end Sys2Proof.Machine
end

/-! PROOFS. Exceptions (R230 to R241): the invariant under the host's operations, the faults of fetch and decode, fault
entry and what it leaves, and the raise table. -/
section

namespace Sys2Proof.Machine

/-! ## The invariant under the host's operations (R245, R246, R260) -/

section
variable {s : State}

theorem State.Inv.setStartPc (hs : s.Inv) (v : BitVec 32) : (s.setStartPc v).Inv :=
  ⟨hs.dmemWf, hs.cmdMemWf, hs.dmemBound, hs.cmdMemBound, hs.subkeys, hs.faulted, hs.clear⟩

/-- A word written in range lists nothing at or above CMD_DEPTH (R51). -/
theorem State.Inv.storeCmd (hs : s.Inv) {j : Nat} (hj : j < s.cfg.cmdDepth) (w : Command) : (s.storeCmd j w).Inv where
  dmemWf := hs.dmemWf
  cmdMemWf := Memory.wf_put hs.cmdMemWf j w
  dmemBound := hs.dmemBound
  cmdMemBound e he := by
    rcases Memory.mem_put he with hold | rfl
    · exact hs.cmdMemBound e hold
    · exact hj
  subkeys := hs.subkeys
  faulted := hs.faulted
  clear := hs.clear

/-- Only an engine that is not FAULTED may start, for its fault registers must be clear. -/
theorem State.Inv.startRun (hs : s.Inv) (hr : s.runState ≠ .faulted) : s.startRun.Inv :=
  ⟨hs.dmemWf, hs.cmdMemWf, hs.dmemBound, hs.cmdMemBound, hs.subkeys, nofun, fun _ => hs.clear hr⟩

theorem State.Inv.resetAgain (hs : s.Inv) : s.resetAgain.Inv :=
  ⟨hs.dmemWf, hs.cmdMemWf, hs.dmemBound, hs.cmdMemBound, nofun, nofun, fun _ => ⟨rfl, rfl, rfl, rfl⟩⟩

theorem State.Inv.engineStep (hs : s.Inv) : s.engineStep.Inv := by
  rcases s.engineStep_cases with hsame | hstep
  · exact hsame.symm ▸ hs
  · exact stepKeepsInvariant s _ hs hstep

theorem State.Inv.hostReset (hs : s.Inv) (point : ResetPoint) : (s.hostReset point).Inv := by
  cases point with
  | completeFirst => exact hs.engineStep.resetAgain
  | beforeStart => exact hs.resetAgain

theorem HostEffect.inv {op : HostOp} {p : HostReply × State} (h : HostEffect s op p) (hs : s.Inv) : p.2.Inv := by
  cases h with
  | nothing => exact hs
  | startPc v => exact hs.setStartPc v
  | register n c => exact hs.setReg n c
  | memory a bs hb => exact hs.storeBytes hb
  | command j w hj => exact hs.storeCmd hj w
  | start hstart => exact hs.startRun fun hf => by simp [hf] at hstart
  | reset point => exact hs.hostReset point

end

/-- Settles O12, by the kinds of effect a host operation has. -/
theorem hostKeepsInvariant : Obligations.HostKeepsInvariant :=
  fun s op hs => (s.host_effect op).inv hs

/-! ## Fetch and decode (R236, R237) -/

theorem State.fetch_eq_error {s : State} {r : Raise} :
    s.fetch = .error r ↔
      (s.cfg.cmdDepth ≤ s.pc.toNat ∧ r = .fetchBounds s.pc) ∨
        (s.pc.toNat < s.cfg.cmdDepth ∧
          ∃ d, decode (s.cmdWord s.pc.toNat) = .error d ∧ r = .illegal d (s.cmdWord s.pc.toNat)) := by
  unfold State.fetch
  by_cases hpc : s.pc.toNat < s.cfg.cmdDepth
  · cases hdecode : decode (s.cmdWord s.pc.toNat) <;> simp [State.pcInRange, hpc, eq_comm (b := r)]
  · simp [State.pcInRange, hpc, Nat.le_of_not_lt hpc, eq_comm (b := r)]

/-- A fetch that fails enters its fault. -/
theorem step_faultEntered {s : State} {r : Raise} (hrun : s.runState = .running) (h : s.fetch = .error r) :
    ∃ t, step s = .next t ∧ FaultEntered s t r :=
  ⟨_, step_of_fetch_error hrun h, faultEntered_takeFault s r⟩

/-- Settles O7: the two ways a fetch fails. -/
theorem fetchAndDecodeFaults : Obligations.FetchAndDecodeFaults := by
  intro s hrun
  refine ⟨fun hpc => ?bounds, fun d hpc hd => ?illegal⟩
  case bounds => exact step_faultEntered hrun (State.fetch_eq_error.2 (.inl ⟨hpc, rfl⟩))
  case illegal => exact step_faultEntered hrun (State.fetch_eq_error.2 (.inr ⟨hpc, d, hd, rfl⟩))

/-! ## Fault entry (R230, R231, R240) -/

/-- A register number survives its place in FINFO. -/
theorem toNat_ofNat_reg (n : Reg) : (BitVec.ofNat 64 n.val).toNat = n.val :=
  Nat.mod_eq_of_lt (n.isLt.trans (by decide))

/-- Settles O19: the frame of fault entry, then the codes of each fault. -/
theorem faultEntryCodes : Obligations.FaultEntryCodes := by
  refine ⟨fun s r => ⟨faultEntered_takeFault s r, r.codes_mem_faultCodes⟩, fun n => ⟨rfl, rfl, toNat_ofNat_reg n⟩,
    fun j => ⟨rfl, rfl, rfl⟩, fun i => ⟨rfl, rfl, rfl⟩, fun n => ⟨rfl, rfl, rfl⟩, fun h => ⟨rfl, rfl, rfl⟩,
    fun v => ⟨rfl, rfl, rfl⟩, ⟨rfl, rfl, rfl⟩, ⟨rfl, rfl, rfl⟩, fun d w => ⟨rfl, ?word, ?detail⟩,
    fun a => ⟨rfl, rfl, rfl⟩, fun a => ⟨rfl, rfl, rfl⟩, fun n => ⟨rfl, rfl, toNat_ofNat_reg n⟩,
    fun p => ⟨rfl, rfl, ?pc⟩⟩
  case word => exact BitVec.toNat_setWidth_of_le (by decide)
  case pc => exact BitVec.toNat_setWidth_of_le (by decide)
  case detail => cases d <;> rfl

/-- A command of a RUNNING engine that leaves it FAULTED has entered a fault from the state before. -/
theorem exec_eq_takeFault {i : Instr} {s t : State} (hrun : s.runState = .running) (h : exec i s = .next t)
    (ht : t.runState = .faulted) : ∃ r, t = s.takeFault r := by
  rcases exec_eq_next h with ⟨-, rfl⟩ | ⟨u, hu, rfl⟩ | hfault
  · cases ht
  · rw [State.advance_runState, hu.runState_eq, hrun] at ht
    cases ht
  · exact hfault

/-- Settles O17: fault entry writes nothing but the fault registers and RUNSTATE. -/
theorem faultsArePrecise : Obligations.FaultsArePrecise := by
  intro i s t hrun h ht
  obtain ⟨r, rfl⟩ := exec_eq_takeFault hrun h ht
  exact ⟨fun n => rfl, fun a => rfl, rfl, rfl, rfl, rfl, rfl, step_of_stopped (s := s.takeFault r) (by simp)⟩

/-! ## The raise table (R239) -/

/-- Every fault a part of the command `i` can raise stands in the row of `i`. -/
def RaisesWithin {α : Type} (i : Instr) (c : Check α) : Prop := ∀ r, c = .error r → mayRaise i r = true

section
variable {α : Type} {i : Instr} {s : State} {n : Reg}

theorem raisesWithin_ok (a : α) : RaisesWithin i (.ok a) := nofun

theorem raisesWithin_error {r : Raise} (hr : mayRaise i r = true) : RaisesWithin i (.error r : Check α) := by
  intro q hq
  cases hq
  exact hr

theorem raisesWithin_ensure {holds : Bool} {r : Raise} (hr : mayRaise i r = true) :
    RaisesWithin i (ensure holds r) := by
  intro q hq
  obtain ⟨-, rfl⟩ := ensure_eq_error.1 hq
  exact hr

/-- A command whose row has TAG_MISMATCH for a register has UNWRITTEN_REGISTER for it too. -/
theorem mayRaise_unwritten (h : mayRaise i (.tagMismatch n) = true) : mayRaise i (.unwritten n) = true :=
  (Bool.and_eq_true_iff.1 h).1

theorem mayRaise_operand {r : Raise} (h : mayRaise i (.tagMismatch n) = true)
    (hr : r = .unwritten n ∨ r = .tagMismatch n) : mayRaise i r = true := by
  rcases hr with rfl | rfl
  · exact mayRaise_unwritten h
  · exact h

theorem raisesWithin_readS (h : mayRaise i (.tagMismatch n) = true := by simp [mayRaise, operandRegs]) :
    RaisesWithin i (s.readS n) :=
  fun _ hr => mayRaise_operand h (State.readS_error_reg hr)

theorem raisesWithin_readAnyB (h : mayRaise i (.tagMismatch n) = true := by simp [mayRaise, operandRegs]) :
    RaisesWithin i (s.readAnyB n) :=
  fun _ hr => mayRaise_operand h (State.readAnyB_error_reg hr)

theorem raisesWithin_readB32 (h : mayRaise i (.tagMismatch n) = true := by simp [mayRaise, operandRegs]) :
    RaisesWithin i (s.readB32 n) :=
  fun _ hr => mayRaise_operand h (State.readB32_error_reg hr)

theorem raisesWithin_readB48 (h : mayRaise i (.tagMismatch n) = true := by simp [mayRaise, operandRegs]) :
    RaisesWithin i (s.readB48 n) :=
  fun _ hr => mayRaise_operand h (State.readB48_error_reg hr)

theorem raisesWithin_readB64 (h : mayRaise i (.tagMismatch n) = true := by simp [mayRaise, operandRegs]) :
    RaisesWithin i (s.readB64 n) :=
  fun _ hr => mayRaise_operand h (State.readB64_error_reg hr)

theorem raisesWithin_readPair (h : mayRaise i (.tagMismatch n) = true := by simp [mayRaise, operandRegs])
    (hsecond : mayRaise i (.tagMismatch (Reg.second n)) = true := by simp [mayRaise, operandRegs]) :
    RaisesWithin i (s.readPair n) := by
  intro r hr
  rcases State.readPair_error_reg hr with hr | hr
  · exact mayRaise_operand h hr
  · exact mayRaise_operand hsecond hr

/-- The parse of a dictionary raises EMPTY_KEY and MEMORY_BOUNDS(READ) only (R208). -/
theorem raisesWithin_parseDict {cnt j p : Nat} (hkey : ∀ k, mayRaise i (.emptyKey k) = true)
    (hread : ∀ a, mayRaise i (.memRead a) = true) : RaisesWithin i (s.parseDict cnt j p) := by
  induction cnt generalizing j p with
  | zero => exact raisesWithin_ok _
  | succ cnt ih =>
    rw [State.parseDict_succ]
    split_ifs
    · exact raisesWithin_error (hread _)
    · exact raisesWithin_error (hkey _)
    · exact raisesWithin_error (hread _)
    · intro r hr
      cases hrest : s.parseDict cnt (j + 1) (p + 1 + (s.byte p).toNat) with
      | ok keys =>
        rw [hrest] at hr
        cases hr
      | error q =>
        rw [hrest] at hr
        cases hr
        exact ih _ hrest

end

/-- The rule of the command `i` in `s`: every fault it can raise stands in the row of `i`, and its writes leave RUNSTATE
as it was. -/
structure EndsWithin (i : Instr) (s : State) (c : Check State) : Prop where
  raises : RaisesWithin i c
  keeps : ∀ u, c = .ok u → u.runState = s.runState

section
variable {α : Type} {i : Instr} {s u : State}

theorem endsWithin_ok (h : u.runState = s.runState := by rfl) : EndsWithin i s (.ok u) :=
  ⟨raisesWithin_ok u, fun _ hv => Except.ok.inj hv ▸ h⟩

theorem endsWithin_error {r : Raise} (hr : mayRaise i r = true) : EndsWithin i s (.error r) :=
  ⟨raisesWithin_error hr, nofun⟩

theorem endsWithin_bind {c : Check α} {f : α → Check State} (hc : RaisesWithin i c) (hf : ∀ a, EndsWithin i s (f a)) :
    EndsWithin i s (c >>= f) where
  raises r hr := by
    rcases Check.bind_eq_error.1 hr with hfirst | ⟨a, -, hlater⟩
    · exact hc r hfirst
    · exact (hf a).raises r hlater
  keeps v hv := by
    obtain ⟨a, -, ha⟩ := Check.bind_eq_ok.1 hv
    exact (hf a).keeps v ha

theorem endsWithin_searchOutput {rd : Reg} {oa cap : Scalar} {size : Nat} {records : List (List Byte)}
    (hcap : ∀ h, mayRaise i (.capacity h) = true) (hwrite : ∀ a, mayRaise i (.memWrite a) = true) :
    EndsWithin i s (searchOutput s rd oa cap size records) :=
  endsWithin_bind (raisesWithin_ensure (hcap _)) fun _ =>
    endsWithin_bind (raisesWithin_ensure (hwrite _)) fun _ => endsWithin_ok

theorem endsWithin_keySearch {trials : List Trial} {nameLen : Nat} {rd p q : Reg}
    (hp : RaisesWithin i (s.readPair p)) (hq : RaisesWithin i (s.readPair q))
    (hread : ∀ a, mayRaise i (.memRead a) = true) (hcap : ∀ h, mayRaise i (.capacity h) = true)
    (hwrite : ∀ a, mayRaise i (.memWrite a) = true) : EndsWithin i s (keySearch trials nameLen rd p q s) :=
  endsWithin_bind hp fun _ => endsWithin_bind hq fun _ => endsWithin_bind (raisesWithin_ensure (hread _)) fun _ =>
    endsWithin_searchOutput hcap hwrite

theorem endsWithin_bufferCommand {f : Block64 → Block64} {ra p : Reg} (hkey : mayRaise i .notKeyed = true)
    (hra : RaisesWithin i (s.readS ra)) (hp : RaisesWithin i (s.readPair p))
    (hread : ∀ a, mayRaise i (.memRead a) = true) (hwrite : ∀ a, mayRaise i (.memWrite a) = true) :
    EndsWithin i s (bufferCommand f ra p s) :=
  endsWithin_bind (raisesWithin_ensure hkey) fun _ => endsWithin_bind hra fun _ => endsWithin_bind hp fun _ =>
    endsWithin_bind (raisesWithin_ensure (hread _)) fun _ =>
      endsWithin_bind (raisesWithin_ensure (hwrite _)) fun _ => endsWithin_ok

end

/-- The rule of every command but HALT, check by check, against its row of R239. -/
theorem exec_eq_halt_or_endsWithin (i : Instr) (s : State) :
    i = .halt ∨ ∃ c, exec i s = complete s c ∧ EndsWithin i s c := by
  cases i with
  | halt => exact .inl rfl
  | nop | li rd imm | rdstat rd => exact .inr ⟨_, rfl, endsWithin_ok⟩
  | mov rd rs =>
    refine .inr ⟨_, rfl, ?_⟩
    split
    · exact endsWithin_error (by simp [mayRaise, operandRegs])
    · exact endsWithin_ok
  | lih rd imm | blk64 rd rs =>
    exact .inr ⟨_, rfl, endsWithin_bind raisesWithin_readS fun _ => endsWithin_ok⟩
  | val rd rs => exact .inr ⟨_, rfl, endsWithin_bind raisesWithin_readAnyB fun _ => endsWithin_ok⟩
  | halflo rd rs | halfhi rd rs | ip rd rs | fp rd rs =>
    exact .inr ⟨_, rfl, endsWithin_bind raisesWithin_readB64 fun _ => endsWithin_ok⟩
  | expand rd rs | permp rd rs =>
    exact .inr ⟨_, rfl, endsWithin_bind raisesWithin_readB32 fun _ => endsWithin_ok⟩
  | subst rd rs => exact .inr ⟨_, rfl, endsWithin_bind raisesWithin_readB48 fun _ => endsWithin_ok⟩
  | pack64 rd rs | blk32 rd rs | blk48 rd rs =>
    exact .inr ⟨_, rfl, endsWithin_bind raisesWithin_readS fun _ =>
      endsWithin_bind (raisesWithin_ensure rfl) fun _ => endsWithin_ok⟩
  | unpack64 ra rs =>
    exact .inr ⟨_, rfl, endsWithin_bind raisesWithin_readS fun _ => endsWithin_bind raisesWithin_readB64 fun _ =>
      endsWithin_bind (raisesWithin_ensure rfl) fun _ => endsWithin_ok⟩
  | packz rd p =>
    exact .inr ⟨_, rfl, endsWithin_bind raisesWithin_readPair fun _ =>
      endsWithin_bind (raisesWithin_ensure rfl) fun _ =>
        endsWithin_bind (raisesWithin_ensure rfl) fun _ => endsWithin_ok⟩
  | bitat rd rb ri =>
    exact .inr ⟨_, rfl, endsWithin_bind raisesWithin_readAnyB fun _ => endsWithin_bind raisesWithin_readS fun _ =>
      endsWithin_bind (raisesWithin_ensure rfl) fun _ => endsWithin_ok⟩
  | xor rd ra rb =>
    refine .inr ⟨_, rfl, endsWithin_bind raisesWithin_readAnyB fun _ =>
      endsWithin_bind raisesWithin_readAnyB fun _ => ?_⟩
    split
    · exact endsWithin_ok
    · exact endsWithin_error (by simp [mayRaise, operandRegs])
  | join rd rh rl =>
    exact .inr ⟨_, rfl, endsWithin_bind raisesWithin_readB32 fun _ =>
      endsWithin_bind raisesWithin_readB32 fun _ => endsWithin_ok⟩
  | roundf rd rr rk =>
    exact .inr ⟨_, rfl, endsWithin_bind raisesWithin_readB32 fun _ =>
      endsWithin_bind raisesWithin_readB48 fun _ => endsWithin_ok⟩
  | getsk rd k =>
    exact .inr ⟨_, rfl, endsWithin_bind (raisesWithin_ensure rfl) fun _ => endsWithin_ok⟩
  | setkey rs | enc rd rs | dec rd rs =>
    exact .inr ⟨_, rfl, endsWithin_bind (raisesWithin_ensure rfl) fun _ =>
      endsWithin_bind raisesWithin_readB64 fun _ => endsWithin_ok⟩
  | encbuf ra p | decbuf ra p =>
    exact .inr ⟨_, rfl, endsWithin_bufferCommand rfl raisesWithin_readS raisesWithin_readPair (fun _ => rfl)
      fun _ => rfl⟩
  | xorrep ra p q =>
    exact .inr ⟨_, rfl, endsWithin_bind raisesWithin_readS fun _ => endsWithin_bind raisesWithin_readPair fun _ =>
      endsWithin_bind raisesWithin_readPair fun _ => endsWithin_bind (raisesWithin_ensure rfl) fun _ =>
        endsWithin_bind (raisesWithin_ensure rfl) fun _ => endsWithin_bind (raisesWithin_ensure rfl) fun _ =>
          endsWithin_bind (raisesWithin_ensure rfl) fun _ => endsWithin_ok⟩
  | caesar ra p rs =>
    exact .inr ⟨_, rfl, endsWithin_bind raisesWithin_readS fun _ => endsWithin_bind raisesWithin_readPair fun _ =>
      endsWithin_bind raisesWithin_readS fun _ => endsWithin_bind (raisesWithin_ensure rfl) fun _ =>
        endsWithin_bind (raisesWithin_ensure rfl) fun _ => endsWithin_ok⟩
  | plaus rd p | ckey rd p =>
    exact .inr ⟨_, rfl, endsWithin_bind raisesWithin_readPair fun _ =>
      endsWithin_bind (raisesWithin_ensure rfl) fun _ => endsWithin_ok⟩
  | bfx1 rd p q | bfx2 rd p q =>
    exact .inr ⟨_, rfl, endsWithin_keySearch raisesWithin_readPair raisesWithin_readPair (fun _ => rfl) (fun _ => rfl)
      fun _ => rfl⟩
  | bfxd rd p q d =>
    exact .inr ⟨_, rfl, endsWithin_bind raisesWithin_readPair fun _ =>
      endsWithin_bind raisesWithin_readPair fun _ => endsWithin_bind raisesWithin_readPair fun _ =>
        endsWithin_bind (raisesWithin_ensure rfl) fun _ =>
          endsWithin_bind (raisesWithin_parseDict (fun _ => rfl) fun _ => rfl) fun _ =>
            endsWithin_searchOutput (fun _ => rfl) fun _ => rfl⟩

/-- Settles O18: the fault entered is one the command's checks raised. -/
theorem raiseTableHolds : Obligations.RaiseTableHolds := by
  intro i s t hrun h ht
  rcases exec_eq_halt_or_endsWithin i s with rfl | ⟨c, hexec, hc⟩
  · cases h
    cases ht
  · rcases complete_eq_next.1 (hexec.symm.trans h) with ⟨u, hu, rfl⟩ | ⟨r, hr, rfl⟩
    · rw [State.advance_runState, hc.keeps u hu, hrun] at ht
      cases ht
    · exact ⟨r, hc.raises r hr, faultEntered_takeFault s r⟩

end Sys2Proof.Machine
end

/-! PROOFS. The faults of the sequencer, BitBlock, classical and search commands, each check in its order (R213, R238,
R239). -/
section

namespace Sys2Proof.Machine

/-! ## Sequencer and BitBlock commands -/

theorem ensure_of_not {holds : Prop} [Decidable holds] {r : Raise} (h : ¬ holds) :
    ensure (decide holds) r = .error r :=
  ensure_of_false (decide_eq_false h)

/-- MOV faults only on an unwritten source (R106). -/
theorem mov_faultsWith_unwritten {s : State} {rd rs : Reg} (h : s.reg rs = .unwritten) :
    FaultsWith (.mov rd rs) s (.unwritten rs) := by
  refine faultsWith_of_check rfl ?_
  rw [h]

/-- Settles O34, by the first check of each command that fails. -/
theorem sequencerAndBitBlockFaults : Obligations.SequencerAndBitBlockFaults := by
  intro s
  refine ⟨fun rd imm r h => ?lih, fun rd rs => mov_faultsWith_unwritten,
    fun rd rs r h => ⟨?pack64, ?blk32, ?blk48, ?blk64⟩, fun rd rs a ha hb => ?pack64Read,
    fun rd rs v hv hw => ?blk32Range, fun rd rs v hv hw => ?blk48Range, fun ra rs r h => ?unpack64Addr,
    fun ra rs a r hx h => ?unpack64Block, fun ra rs a v ha hv hb => ?unpack64Write,
    fun rd p r h => ?packz, fun rd p a n hp hn => ?packzLength, fun rd p a n hp hn hb => ?packzRead,
    fun rd ra rb r h => ?xorFirst, fun rd ra rb a r hx h => ?xorSecond,
    fun rd rb ri r h => ?bitatBlock, fun rd rb ri b r hx h => ?bitatIndex, fun rd rs r h => ?val,
    fun rd rs r h => ⟨?halflo, ?halfhi⟩, fun rd rh rl r h => ?joinHigh, fun rd rh rl x r hx h => ?joinLow⟩
  case lih | pack64 | blk32 | blk48 | blk64 | unpack64Addr | packz | xorFirst | bitatBlock | val | halflo | halfhi
    | joinHigh => exact faultsWith_of_check rfl (Check.bind_error_first h _)
  case unpack64Block | xorSecond | bitatIndex | joinLow =>
    exact faultsWith_of_check rfl (Check.bind_error_later hx (Check.bind_error_first h _))
  case pack64Read =>
    exact faultsWith_of_check rfl (Check.bind_error_later ha (Check.bind_error_first (State.checkRead_outside hb) _))
  case blk32Range | blk48Range =>
    exact faultsWith_of_check rfl
      (Check.bind_error_later hv (Check.bind_error_first (ensure_of_not (Nat.not_lt.2 hw)) _))
  case unpack64Write =>
    exact faultsWith_of_check rfl (Check.bind_error_later ha
      (Check.bind_error_later hv (Check.bind_error_first (State.checkWrite_outside hb) _)))
  case packzLength =>
    exact faultsWith_of_check rfl
      (Check.bind_error_later hp (Check.bind_error_first (ensure_of_not (Nat.not_le.2 hn)) _))
  case packzRead =>
    exact faultsWith_of_check rfl (Check.bind_error_later hp
      (Check.bind_error_later (ensure_of_true (decide_eq_true hn))
        (Check.bind_error_first (State.checkRead_outside hb) _)))

/-! ## Classical commands: the checks after the operands (R192, R196) -/

section
variable {s : State} {ra p q rs : Reg} {dst src n ka kl v : Scalar}

theorem xorrep_faultsWith_of_operands (hdst : s.readS ra = .ok dst) (hsrc : s.readPair p = .ok (src, n))
    (hkey : s.readPair q = .ok (ka, kl)) :
    if kl = 0 then FaultsWith (.xorrep ra p q) s (.emptyKey 0)
    else if s.cfg.dmemSize < src.toNat + n.toNat then FaultsWith (.xorrep ra p q) s (.memRead src)
    else if s.cfg.dmemSize < ka.toNat + kl.toNat then FaultsWith (.xorrep ra p q) s (.memRead ka)
    else s.cfg.dmemSize < dst.toNat + n.toNat → FaultsWith (.xorrep ra p q) s (.memWrite dst) := by
  have hafter {r : Raise} := fun h => faultsWith_of_check (i := .xorrep ra p q) (r := r) rfl
    (Check.bind_error_later hdst (Check.bind_error_later hsrc (Check.bind_error_later hkey h)))
  split_ifs with hempty hread hreadKey
  · exact hafter (Check.bind_error_first (ensure_of_false (bne_eq_false_iff_eq.2 hempty)) _)
  · exact hafter (Check.bind_error_later (ensure_of_true (bne_iff_ne.2 hempty))
      (Check.bind_error_first (State.checkRead_outside hread) _))
  · exact hafter (Check.bind_error_later (ensure_of_true (bne_iff_ne.2 hempty))
      (Check.bind_error_later (State.checkRead_inside (Nat.le_of_not_lt hread))
        (Check.bind_error_first (State.checkRead_outside hreadKey) _)))
  · intro hwrite
    exact hafter (Check.bind_error_later (ensure_of_true (bne_iff_ne.2 hempty))
      (Check.bind_error_later (State.checkRead_inside (Nat.le_of_not_lt hread))
        (Check.bind_error_later (State.checkRead_inside (Nat.le_of_not_lt hreadKey))
          (Check.bind_error_first (State.checkWrite_outside hwrite) _))))

theorem caesar_faultsWith_of_operands (hdst : s.readS ra = .ok dst) (hsrc : s.readPair p = .ok (src, n))
    (hshift : s.readS rs = .ok v) :
    if s.cfg.dmemSize < src.toNat + n.toNat then FaultsWith (.caesar ra p rs) s (.memRead src)
    else s.cfg.dmemSize < dst.toNat + n.toNat → FaultsWith (.caesar ra p rs) s (.memWrite dst) := by
  have hafter {r : Raise} := fun h => faultsWith_of_check (i := .caesar ra p rs) (r := r) rfl
    (Check.bind_error_later hdst (Check.bind_error_later hsrc (Check.bind_error_later hshift h)))
  split_ifs with hread
  · exact hafter (Check.bind_error_first (State.checkRead_outside hread) _)
  · intro hwrite
    exact hafter (Check.bind_error_later (State.checkRead_inside (Nat.le_of_not_lt hread))
      (Check.bind_error_first (State.checkWrite_outside hwrite) _))

end

/-! ## Searches: the checks after the operands (R213) -/

section
variable {s : State} {i : Instr} {rd p q d : Reg} {ca n oa cap da cnt : Scalar}

/-- Capacity, then output bounds: the faults at the end of every search whose rule ends with `searchOutput`. -/
theorem search_faultsWith {size : Nat} {records : List (List Byte)}
    (hi : ∀ r, searchOutput s rd oa cap size records = .error r → FaultsWith i s r) :
    if cap.toNat < records.length then FaultsWith i s (.capacity (BitVec.ofNat 64 records.length))
    else s.cfg.dmemSize < oa.toNat + records.length * size → FaultsWith i s (.memWrite oa) := by
  split_ifs with hcap
  · exact hi _ (searchOutput_eq_error.2 (.inl ⟨hcap, rfl⟩))
  · intro hwrite
    exact hi _ (searchOutput_eq_error.2 (.inr ⟨Nat.le_of_not_lt hcap, hwrite, rfl⟩))

/-- The faults of the common rule of BFX1 and BFX2 once its operands are read. -/
theorem keySearch_faultsWith {trials : List Trial} {nameLen : Nat}
    (hexec : exec i s = complete s (keySearch trials nameLen rd p q s)) (hp : s.readPair p = .ok (ca, n))
    (hq : s.readPair q = .ok (oa, cap)) :
    let h := (searchRecords (s.readBytes ca.toNat n.toNat) trials).length
    if s.cfg.dmemSize < ca.toNat + n.toNat then FaultsWith i s (.memRead ca)
    else if cap.toNat < h then FaultsWith i s (.capacity (BitVec.ofNat 64 h))
    else s.cfg.dmemSize < oa.toNat + h * (nameLen + n.toNat) → FaultsWith i s (.memWrite oa) := by
  have hafter {r : Raise} := fun h => faultsWith_of_check (r := r) hexec
    (Check.bind_error_later hp (Check.bind_error_later hq h))
  intro h
  by_cases hread : s.cfg.dmemSize < ca.toNat + n.toNat
  · rw [if_pos hread]
    exact hafter (Check.bind_error_first (State.checkRead_outside hread) _)
  · rw [if_neg hread]
    exact search_faultsWith fun r hr =>
      hafter (Check.bind_error_later (State.checkRead_inside (Nat.le_of_not_lt hread)) hr)

theorem bfxd_faultsWith_of_operands (hp : s.readPair p = .ok (ca, n)) (hq : s.readPair q = .ok (oa, cap))
    (hd : s.readPair d = .ok (da, cnt)) :
    (s.cfg.dmemSize < ca.toNat + n.toNat → FaultsWith (.bfxd rd p q d) s (.memRead ca)) ∧
    (ca.toNat + n.toNat ≤ s.cfg.dmemSize →
      (∀ r, s.parseDict cnt.toNat 0 da.toNat = .error r → FaultsWith (.bfxd rd p q d) s r) ∧
      (∀ keys, s.parseDict cnt.toNat 0 da.toNat = .ok keys →
        let h := (searchRecords (s.readBytes ca.toNat n.toNat) (dictTrials keys)).length
        if cap.toNat < h then FaultsWith (.bfxd rd p q d) s (.capacity (BitVec.ofNat 64 h))
        else s.cfg.dmemSize < oa.toNat + h * (4 + n.toNat) → FaultsWith (.bfxd rd p q d) s (.memWrite oa))) := by
  have hafter {r : Raise} := fun h => faultsWith_of_check (i := .bfxd rd p q d) (r := r) rfl
    (Check.bind_error_later hp (Check.bind_error_later hq (Check.bind_error_later hd h)))
  refine ⟨fun hread => ?read, fun hread => ⟨fun r hr => ?parse, fun keys hkeys => ?output⟩⟩
  case read => exact hafter (Check.bind_error_first (State.checkRead_outside hread) _)
  case parse => exact hafter (Check.bind_error_later (State.checkRead_inside hread) (Check.bind_error_first hr _))
  case output =>
    exact search_faultsWith fun r hr =>
      hafter (Check.bind_error_later (State.checkRead_inside hread) (Check.bind_error_later hkeys hr))

end

/-- Settles O55: operands in order, then the checks of each command after its operands. -/
theorem classicalAndSearchFaults : Obligations.ClassicalAndSearchFaults := by
  intro s
  refine ⟨fun ra p q rs r h => ⟨?xorrepDst, ?caesarDst⟩, fun ra p q rs a r hx h => ⟨?xorrepSrc, ?caesarSrc⟩,
    fun ra p q a x r hx hy h => ?xorrepKey, fun ra p q a src n ka kl => xorrep_faultsWith_of_operands,
    fun ra p rs a x r hx hy h => ?caesarShift, fun ra p rs a src n v => caesar_faultsWith_of_operands,
    fun rd p q d r h => ⟨?plaus, ?ckey, ?bfx1First, ?bfx2First, ?bfxdFirst⟩,
    fun rd p a n hp hb => ⟨?plausRead, ?ckeyRead⟩,
    fun rd p q d x r hx h => ⟨?bfx1Second, ?bfx2Second, ?bfxdSecond⟩, fun rd p q ca n oa cap hp hq => ?keySearch,
    fun rd p q d x y r hx hy h => ?bfxdThird, fun rd p q d ca n oa cap da cnt hp hq hd => ?bfxd⟩
  case xorrepDst | caesarDst | plaus | ckey | bfx1First | bfx2First | bfxdFirst =>
    exact faultsWith_of_check rfl (Check.bind_error_first h _)
  case xorrepSrc | caesarSrc | bfx1Second | bfx2Second | bfxdSecond =>
    exact faultsWith_of_check rfl (Check.bind_error_later hx (Check.bind_error_first h _))
  case xorrepKey | caesarShift | bfxdThird =>
    exact faultsWith_of_check rfl
      (Check.bind_error_later hx (Check.bind_error_later hy (Check.bind_error_first h _)))
  case plausRead | ckeyRead =>
    exact faultsWith_of_check rfl (Check.bind_error_later hp (Check.bind_error_first (State.checkRead_outside hb) _))
  case keySearch =>
    have hbfx1 := keySearch_faultsWith (i := .bfx1 rd p q) rfl hp hq
    have hbfx2 := keySearch_faultsWith (i := .bfx2 rd p q) rfl hp hq
    by_cases hread : s.cfg.dmemSize < ca.toNat + n.toNat
    · simp only [if_pos hread] at hbfx1 hbfx2 ⊢
      exact ⟨hbfx1, hbfx2⟩
    · simp only [if_neg hread] at hbfx1 hbfx2 ⊢
      exact ⟨hbfx1, hbfx2⟩
  case bfxd =>
    obtain ⟨houtside, hinside⟩ := bfxd_faultsWith_of_operands (rd := rd) hp hq hd
    by_cases hread : s.cfg.dmemSize < ca.toNat + n.toNat
    · rw [if_pos hread]
      exact houtside hread
    · rw [if_neg hread]
      obtain ⟨hparse, houtput⟩ := hinside (Nat.le_of_not_lt hread)
      split
      · exact hparse _ ‹_›
      · exact houtput _ ‹_›

end Sys2Proof.Machine
end

/-! PROOFS. Reset and the end of a run (R260, R261, R266). -/
section

namespace Sys2Proof.Machine

/-! ## An engine step that is taken -/

section
variable {s t : State}

theorem State.engineStep_of_step (h : step s = .next t) : s.engineStep = t := by
  rw [State.engineStep, h]

/-- No engine step writes START_PC, CMDMEM or the model's own fields, a fetch that fails included (R30, R33, R51). -/
theorem step_hostState_eq (h : step s = .next t) :
    t.startPc = s.startPc ∧ t.cmdMem = s.cmdMem ∧ t.cfg = s.cfg ∧ t.powerUp = s.powerUp := by
  obtain ⟨-, ⟨i, -, hexec⟩ | ⟨r, -, rfl⟩⟩ := step_eq_next h
  · exact exec_hostState_eq hexec
  · exact ⟨rfl, rfl, rfl, rfl⟩

theorem State.cmdWord_congr (hmem : t.cmdMem = s.cmdMem) (hpower : t.powerUp = s.powerUp) (j : Nat) :
    t.cmdWord j = s.cmdWord j := by
  rw [State.cmdWord, State.cmdWord, hmem, hpower]

theorem step_cmdWord_eq (h : step s = .next t) (j : Nat) : t.cmdWord j = s.cmdWord j := by
  obtain ⟨-, hmem, -, hpower⟩ := step_hostState_eq h
  exact State.cmdWord_congr hmem hpower j

end

/-! ## Reset (R260, R261) -/

section
variable (s : State)

@[simp] theorem State.host_reset_completeFirst : (s.host (.reset .completeFirst)).2 = s.engineStep.resetAgain := rfl

@[simp] theorem State.host_reset_beforeStart : (s.host (.reset .beforeStart)).2 = s.resetAgain := rfl

/-- A second reset after power-on changes nothing, so what every HOST_RESET sets holds of power-on too. -/
theorem State.reset_eq_resetAgain : State.reset = State.reset.resetAgain := rfl

/-- Every reset, at power-on or by the host, ends in the same operation (R260). -/
theorem State.exists_eq_resetAgain {t : State}
    (h : t ∈ [State.reset, (s.host (.reset .beforeStart)).2, (s.host (.reset .completeFirst)).2]) :
    ∃ u : State, t = u.resetAgain := by
  simp only [List.mem_cons, List.not_mem_nil, or_false] at h
  rcases h with rfl | rfl | rfl
  · exact ⟨_, State.reset_eq_resetAgain⟩
  · exact ⟨_, s.host_reset_beforeStart⟩
  · exact ⟨_, s.host_reset_completeFirst⟩

end

/-- Settles O13: what `resetAgain` sets, whichever reset it ends, and its frame. -/
theorem resetSetsState : Obligations.ResetSetsState := by
  intro s t ht
  obtain ⟨u, rfl⟩ := s.exists_eq_resetAgain ht
  exact ⟨u.resetAgain_reg, rfl, rfl, rfl, rfl, rfl, rfl, rfl, rfl, s.resetAgain_byte, s.resetAgain_cmdWord⟩

/-- Settles O14: the reset follows the engine step, which is the command's where one is in progress and none where the
engine is stopped. -/
theorem resetAfterCommandKeepsItsMemory : Obligations.ResetAfterCommandKeepsItsMemory := by
  intro s
  refine ⟨fun t h => ?running, fun h => ?stopped⟩
  case running =>
    rw [State.host_reset_completeFirst, State.engineStep_of_step h]
    exact ⟨t.resetAgain_byte, fun j => (t.resetAgain_cmdWord j).trans (step_cmdWord_eq h j)⟩
  case stopped =>
    rw [State.host_reset_completeFirst, State.host_reset_beforeStart, State.engineStep_of_stopped h]

/-! ## The end of a run (R24, R266) -/

/-- pc never wraps below CMD_DEPTH, which is at most 2 ^ 32 - 1 (R24). -/
theorem toNat_pc_add_one {s : State} (hpc : s.pc.toNat < s.cfg.cmdDepth) : (s.pc + 1).toNat = s.pc.toNat + 1 := by
  have hdepth : s.cfg.cmdDepth ≤ 2 ^ 32 - 1 := s.cfg.cmdLess1.isLt
  exact BitVec.toNat_add_of_lt (show s.pc.toNat + 1 < 2 ^ 32 by omega)

/-- A step that leaves the engine RUNNING was taken within CMDMEM and moved pc to the next word of it (R24, R236). -/
theorem step_pc_of_running {s t : State} (h : step s = .next t) (ht : t.runState = .running) :
    s.pc.toNat < s.cfg.cmdDepth ∧ t.pc = s.pc + 1 := by
  obtain ⟨hrun, ⟨i, hfetch, hexec⟩ | ⟨r, -, rfl⟩⟩ := step_eq_next h
  · obtain ⟨hpc, -⟩ := State.fetch_eq_ok.1 hfetch
    rcases pcRule i s t hrun hexec with ⟨-, -, hnext⟩ | ⟨-, hhalted, -⟩ | ⟨-, hfaulted, -⟩
    · exact ⟨hpc, hnext⟩
    · simp [hhalted] at ht
    · simp [hfaulted] at ht
  · cases ht

/-- Each step after which the engine is still RUNNING uses up one of the commands left in CMDMEM. -/
theorem State.engineStep_commandsLeft {s : State} (hrun : s.runState = .running)
    (hnext : s.engineStep.runState = .running) :
    s.engineStep.cfg.cmdDepth - s.engineStep.pc.toNat + 1 = s.cfg.cmdDepth - s.pc.toNat := by
  obtain ⟨t, h⟩ := step_total hrun
  rw [State.engineStep_of_step h] at hnext ⊢
  obtain ⟨hpc, hpcNext⟩ := step_pc_of_running h hnext
  obtain ⟨-, -, hcfg, -⟩ := step_hostState_eq h
  rw [hcfg, hpcNext, toNat_pc_add_one hpc]
  omega

theorem State.runEngine_succ (s : State) (k : Nat) : s.runEngine (k + 1) = s.engineStep.runEngine k := rfl

/-- A run ends, by recursion on the commands left in CMDMEM; the last step is HALT's or a fault's. -/
theorem State.exists_runEngine_ne_running (s : State) (hrun : s.runState = .running) :
    ∃ k, k ≤ s.cfg.cmdDepth - s.pc.toNat + 1 ∧ (s.runEngine k).runState ≠ .running := by
  by_cases hnext : s.engineStep.runState = .running
  · have hleft := State.engineStep_commandsLeft hrun hnext
    obtain ⟨k, hk, hends⟩ := s.engineStep.exists_runEngine_ne_running hnext
    exact ⟨k + 1, by omega, s.runEngine_succ k ▸ hends⟩
  · exact ⟨1, Nat.le_add_left 1 _, hnext⟩
termination_by s.cfg.cmdDepth - s.pc.toNat

/-- Settles O9: each step that leaves the engine RUNNING uses up a command. -/
theorem everyRunEnds : Obligations.EveryRunEnds := State.exists_runEngine_ne_running

end Sys2Proof.Machine
end
